-- ==== Sys2Proof/Word.lean ====
section
/-! DEFINITION. The units the spec moves and the fixed sets of names it uses
(spec/00_scope.md R10 to R15, spec/10_state.md R42). -/

namespace Sys2Proof

/-- A codeword: one byte of CW memory (R17, R43). -/
abbrev Byte := BitVec 8

/-- A character record of TEXT memory, format REC, 55 bits: `raw[31:0], rlm1[1:0], cp[20:0]` (R42). -/
abbrev Rec := BitVec 55

/-- The command word the host writes to register 0, format CMD, 16 bits (R91). -/
abbrev CmdWord := BitVec 16

/-- The four encoding modes (R15, R17). -/
inductive Mode where
  | numeric
  | alnum
  | byte
  | kanji
deriving DecidableEq, Repr

/-- The four correction levels, in the order the source lists them (R15, R92). -/
inductive Level where
  | L
  | M
  | Q
  | H
deriving DecidableEq, Repr

/-- The three version tiers 1-9, 10-26, 27-40 (R17, R141). -/
inductive Tier where
  | t1
  | t2
  | t3
deriving DecidableEq, Repr

/-- The three typed errors, and no other (R250). -/
inductive JobError where
  | invalidCharacterForMode
  | noVersionFits
  | capacityOverflow
deriving DecidableEq, Repr

/-- `ceil(n / 8)`, the number of bytes that hold `n` bits (R11). -/
def ceil8 (n : Nat) : Nat := (n + 7) / 8

end Sys2Proof
end

