-- ==== Sys2Proof/Config.lean ====
section
/-! DEFINITION. What an integrator fixes before the first job (spec/00_scope.md R8, R9; spec/93 part 2)
and the free values the spec leaves open (spec/93 part 1, U1 to U4, U9).
A configuration is plain data; the machine carries it in State.cfg and no step changes it (log entry 1). -/

namespace Sys2Proof

/-- A ROM row, as a record of nine naturals (R46, R95, D22): four capacities, the data-codeword count and
the two block groups that are carried through and never used (R147). -/
structure Row where
  capN  : Nat
  capA  : Nat
  capB  : Nat
  capK  : Nat
  total : Nat
  g1b   : Nat
  g1w   : Nat
  g2b   : Nat
  g2w   : Nat
deriving DecidableEq, Repr

/-- The nine row registers at reset and at the start of a job (R29, R48). -/
def Row.zero : Row := ⟨0, 0, 0, 0, 0, 0, 0, 0, 0⟩

/-- What the character count counts in Byte mode: parameter BYTE_COUNT_UNIT (R8, R129, D12). -/
inductive CountUnit where
  | chars
  | bytes
deriving DecidableEq, Repr

/-- The parameters of the block (R8). `rom` is CAP_ROM, row `v-l` at index `(v-1)*4 + l` (R45); `cjk` is
CJK_SET as inclusive ranges of code points (R124); `kanji` is KANJI_MAP as pairs of a code point and its
13-bit value, undefined on every code point it does not list, so the empty list is an unbound port
(R184, R283); `unit` is BYTE_COUNT_UNIT (R129). -/
structure Config where
  rom   : List Row
  cjk   : List (Nat × Nat)
  kanji : List (Nat × BitVec 13)
  unit  : CountUnit
deriving DecidableEq, Repr

/-- TEXT_MAX: the number of TEXT locations, addresses 0 to 8190 (R8, R41, D3). -/
def textMax : Nat := 8191

/-- N_VERSIONS (R8). -/
def nVersions : Nat := 40

/-- ROM_ROWS (R8). -/
def romRows : Nat := 160

/-- CW_MAX: the largest total_words of any row, the size of CW memory (R8, R43). -/
def Config.cwMax (c : Config) : Nat := c.rom.foldl (fun m r => max m r.total) 0

/-- The widths of the fields of a ROM row (R95), which are the widths of the row registers (R21). -/
def Row.fits (r : Row) : Bool :=
  r.capN < 2 ^ 13 && r.capA < 2 ^ 13 && r.capB < 2 ^ 12 && r.capK < 2 ^ 11 && r.total < 2 ^ 12 &&
  r.g1b < 2 ^ 8 && r.g1w < 2 ^ 8 && r.g2b < 2 ^ 8 && r.g2w < 2 ^ 8

/-- A configuration the ROM space can hold: 160 rows (R45), each within the row word's fields (R95). -/
def Config.wf (c : Config) : Bool := c.rom.length == romRows && c.rom.all Row.fits

/-- FREE VALUE (U1): the record TEXT holds at an address nothing has written since the `epoch`-th reset. -/
opaque Config.freeText (epoch addr : Nat) : Rec

/-- FREE VALUE (U2, U3): the byte CW holds at an address whose contents are unspecified, after a reset or
after a job that ended in an error; `epoch` counts those events. -/
opaque Config.freeCw (epoch addr : Nat) : Byte

/-- FREE VALUE (U4): what the `k`-th host read of a result register or of CW while BUSY returns. -/
opaque Config.freeRead (k : Nat) : Nat

/-- PLATFORM_BASE: where a platform places the block; open, and used by no rule (R69, U9). -/
opaque Config.platformBase : Nat

end Sys2Proof
end

