-- ==== Sys2Proof/Syntax.lean ====
section
/-! DEFINITION. The syntax: one constructor for each of the 31 rows of spec/opcode_table.json
(spec/30_encoding.md R90, R105): five command forms and twenty-six stream elements. -/

namespace Sys2Proof

/-- The operations of the block. A command carries the bits of its word that are not fixed (R91). A stream
element carries its operands: the count of a count indicator (R98), the digit values of a numeric group
(R99), the alphabet values of an alphanumeric group (R100), a raw byte (R101), a Kanji value (R102). -/
inductive Instr where
  | encodeL (len : BitVec 13)
  | encodeM (len : BitVec 13)
  | encodeQ (len : BitVec 13)
  | encodeH (len : BitVec 13)
  | nop (x : BitVec 15)
  | miNumeric
  | miAlnum
  | miByte
  | miKanji
  | cciNT1 (c : BitVec 10)
  | cciNT2 (c : BitVec 12)
  | cciNT3 (c : BitVec 14)
  | cciAT1 (c : BitVec 9)
  | cciAT2 (c : BitVec 11)
  | cciAT3 (c : BitVec 13)
  | cciBT1 (c : BitVec 8)
  | cciBT2 (c : BitVec 16)
  | cciBT3 (c : BitVec 16)
  | cciKT1 (c : BitVec 8)
  | cciKT2 (c : BitVec 10)
  | cciKT3 (c : BitVec 12)
  | num3 (d0 d1 d2 : Nat)
  | num2 (d0 d1 : Nat)
  | num1 (d0 : Nat)
  | an2 (a0 a1 : Nat)
  | an1 (a0 : Nat)
  | byte8 (b : Byte)
  | kanji13 (k : BitVec 13)
  | gap
  | pad0
  | pad1
deriving DecidableEq, Repr

end Sys2Proof
end

