-- ==== Sys2Proof/WellFormed.lean ====
section
/-! DEFINITION. Which terms of the syntax stand for an operation the block has: digit values are 0 to 9
(spec/43_segment_pack.md R173 to R176), alphabet values are 0 to 44 (R177 to R180).
Every other operand is a bit field, all of whose values are legal (spec/30_encoding.md R106). -/

namespace Sys2Proof

/-- A digit value (R173). -/
def isDigitValue (d : Nat) : Bool := d < 10

/-- An alphabet value (R177). -/
def isAlphaValue (a : Nat) : Bool := a < 45

def Instr.wf : Instr → Bool
  | .num3 d0 d1 d2 => isDigitValue d0 && isDigitValue d1 && isDigitValue d2
  | .num2 d0 d1 => isDigitValue d0 && isDigitValue d1
  | .num1 d0 => isDigitValue d0
  | .an2 a0 a1 => isAlphaValue a0 && isAlphaValue a1
  | .an1 a0 => isAlphaValue a0
  | .encodeL _ | .encodeM _ | .encodeQ _ | .encodeH _ | .nop _ => true
  | .miNumeric | .miAlnum | .miByte | .miKanji => true
  | .cciNT1 _ | .cciNT2 _ | .cciNT3 _ | .cciAT1 _ | .cciAT2 _ | .cciAT3 _ => true
  | .cciBT1 _ | .cciBT2 _ | .cciBT3 _ | .cciKT1 _ | .cciKT2 _ | .cciKT3 _ => true
  | .byte8 _ | .kanji13 _ | .gap | .pad0 | .pad1 => true

end Sys2Proof
end

