-- ==== Sys2Proof/Decode.lean ====
section
/-! DEFINITION. Formats and encodings (spec/30_encoding.md): the command word, the STREAM elements, the
record and row words; the decoder, total and rejecting by name; and the encoder.
A command word is decoded from its bits alone (R91). A stream element is not self-identifying (R105): it is
decoded at a SLOT, which says what stands at that position (R96, R107). -/

namespace Sys2Proof

/-! Codes of the fixed names. -/

/-- Level codes (R92). -/
def Level.code : Level → BitVec 2
  | .L => 0
  | .M => 1
  | .Q => 2
  | .H => 3

/-- The level a code names; all four codes are legal (R92). -/
def Level.ofCode (c : BitVec 2) : Level :=
  if c = 0 then .L else if c = 1 then .M else if c = 2 then .Q else .H

/-- The mode indicator nibbles (R97), which are the encoding of the MODE register (R27). -/
def Mode.nibble : Mode → BitVec 4
  | .numeric => 0b0001
  | .alnum => 0b0010
  | .byte => 0b0100
  | .kanji => 0b1000

/-- The mode a nibble names; the twelve other nibbles are unassigned (R106 (d), U6). -/
def Mode.ofNibble (n : BitVec 4) : Option Mode :=
  if n = 0b0001 then some .numeric
  else if n = 0b0010 then some .alnum
  else if n = 0b0100 then some .byte
  else if n = 0b1000 then some .kanji
  else none

/-- `tier(v)` for a version index 1 to 40 (R141). -/
def tier (v : Nat) : Tier := if v ≤ 9 then .t1 else if v ≤ 26 then .t2 else .t3

/-- The width table of the character-count indicator (R142). -/
def countWidth : Tier → Mode → Nat
  | .t1, .numeric => 10
  | .t1, .alnum => 9
  | .t1, .byte => 8
  | .t1, .kanji => 8
  | .t2, .numeric => 12
  | .t2, .alnum => 11
  | .t2, .byte => 16
  | .t2, .kanji => 10
  | .t3, .numeric => 14
  | .t3, .alnum => 13
  | .t3, .byte => 16
  | .t3, .kanji => 12

/-! Bit strings, most significant bit first (R10, R11, R60). -/

/-- The `n` bits of `v`, most significant first. -/
def bitsOf (n v : Nat) : List Bool := (List.range n).map fun k => v.testBit (n - 1 - k)

/-- The number a bit string writes, most significant bit first. -/
def bitsVal (bs : List Bool) : Nat := bs.foldl (fun v b => 2 * v + b.toNat) 0

/-! The command word (R91). -/

/-- GO, bit 0. -/
def cmdGo (w : CmdWord) : Bool := w.getLsbD 0

/-- LVL, bits 2:1. -/
def cmdLvl (w : CmdWord) : BitVec 2 := w.extractLsb' 1 2

/-- LEN, bits 15:3. -/
def cmdLen (w : CmdWord) : BitVec 13 := w.extractLsb' 3 13

/-- Every 16-bit word is exactly one of the five command forms (R91, R106 (a)). -/
def decodeCommand (w : CmdWord) : Instr :=
  if cmdGo w then
    match Level.ofCode (cmdLvl w) with
    | .L => .encodeL (cmdLen w)
    | .M => .encodeM (cmdLen w)
    | .Q => .encodeQ (cmdLen w)
    | .H => .encodeH (cmdLen w)
  else .nop (w.extractLsb' 1 15)

/-- `ENCODE.x` with `n` characters assembles to `(n << 3) | (lvl << 1) | 1` (R108). -/
def encodeWord (l : Level) (n : BitVec 13) : CmdWord := n ++ l.code ++ 1#1

/-! Slots: what stands at a position (R96, R107). -/

inductive Slot where
  | command
  | modeInd
  | countInd (m : Mode) (t : Tier)
  | num3
  | num2
  | num1
  | an2
  | an1
  | byte8
  | kanji13
  | gap
  | pad0
  | pad1
deriving DecidableEq, Repr

/-- The width the opcode table gives the rows of a slot (R64, R91, R97 to R103). -/
def Slot.width : Slot → Nat
  | .command => 16
  | .modeInd => 4
  | .countInd m t => countWidth t m
  | .num3 => 10
  | .num2 => 7
  | .num1 => 4
  | .an2 => 11
  | .an1 => 6
  | .byte8 => 8
  | .kanji13 => 13
  | .gap => 8
  | .pad0 => 8
  | .pad1 => 8

/-- The slot an operation stands in. -/
def Instr.slot : Instr → Slot
  | .encodeL _ | .encodeM _ | .encodeQ _ | .encodeH _ | .nop _ => .command
  | .miNumeric | .miAlnum | .miByte | .miKanji => .modeInd
  | .cciNT1 _ => .countInd .numeric .t1
  | .cciNT2 _ => .countInd .numeric .t2
  | .cciNT3 _ => .countInd .numeric .t3
  | .cciAT1 _ => .countInd .alnum .t1
  | .cciAT2 _ => .countInd .alnum .t2
  | .cciAT3 _ => .countInd .alnum .t3
  | .cciBT1 _ => .countInd .byte .t1
  | .cciBT2 _ => .countInd .byte .t2
  | .cciBT3 _ => .countInd .byte .t3
  | .cciKT1 _ => .countInd .kanji .t1
  | .cciKT2 _ => .countInd .kanji .t2
  | .cciKT3 _ => .countInd .kanji .t3
  | .num3 _ _ _ => .num3
  | .num2 _ _ => .num2
  | .num1 _ => .num1
  | .an2 _ _ => .an2
  | .an1 _ => .an1
  | .byte8 _ => .byte8
  | .kanji13 _ => .kanji13
  | .gap => .gap
  | .pad0 => .pad0
  | .pad1 => .pad1

/-- The slot of the next data group, with `left` characters (in Byte mode: bytes) still to come (R107). -/
def dataSlot : Mode → Nat → Option Slot
  | _, 0 => none
  | .numeric, 1 => some .num1
  | .numeric, 2 => some .num2
  | .numeric, _ => some .num3
  | .alnum, 1 => some .an1
  | .alnum, _ => some .an2
  | .byte, _ => some .byte8
  | .kanji, _ => some .kanji13

/-- How many characters (in Byte mode: bytes) a data slot stands for. -/
def Slot.units : Slot → Nat
  | .num3 => 3
  | .num2 => 2
  | .an2 => 2
  | _ => 1

/-- Why a bit string is no operation at a slot. -/
inductive DecodeError where
  /-- the value needs more bits than the slot has -/
  | tooWide
  /-- the bit string ends inside the element -/
  | truncated
  /-- one of the twelve nibbles that name no mode (R106 (d), U6) -/
  | unassignedModeNibble
  /-- a group value that never occurs: 1000..1023, 100..127, 10..15, 2025..2047 or 45..63 (R174 to R180) -/
  | groupValueOutOfRange
  /-- a byte other than 0x00 in the gap, or other than the pad byte due in a pad position (R103) -/
  | wrongFixedByte
deriving DecidableEq, Repr

/-- Decode the value `v` of the bits at a slot. -/
def decodeAt (sl : Slot) (v : Nat) : Except DecodeError Instr :=
  if 2 ^ sl.width ≤ v then .error .tooWide
  else
    match sl with
    | .command => .ok (decodeCommand (BitVec.ofNat 16 v))
    | .modeInd =>
      match Mode.ofNibble (BitVec.ofNat 4 v) with
      | some .numeric => .ok .miNumeric
      | some .alnum => .ok .miAlnum
      | some .byte => .ok .miByte
      | some .kanji => .ok .miKanji
      | none => .error .unassignedModeNibble
    | .countInd .numeric .t1 => .ok (.cciNT1 (BitVec.ofNat 10 v))
    | .countInd .numeric .t2 => .ok (.cciNT2 (BitVec.ofNat 12 v))
    | .countInd .numeric .t3 => .ok (.cciNT3 (BitVec.ofNat 14 v))
    | .countInd .alnum .t1 => .ok (.cciAT1 (BitVec.ofNat 9 v))
    | .countInd .alnum .t2 => .ok (.cciAT2 (BitVec.ofNat 11 v))
    | .countInd .alnum .t3 => .ok (.cciAT3 (BitVec.ofNat 13 v))
    | .countInd .byte .t1 => .ok (.cciBT1 (BitVec.ofNat 8 v))
    | .countInd .byte .t2 => .ok (.cciBT2 (BitVec.ofNat 16 v))
    | .countInd .byte .t3 => .ok (.cciBT3 (BitVec.ofNat 16 v))
    | .countInd .kanji .t1 => .ok (.cciKT1 (BitVec.ofNat 8 v))
    | .countInd .kanji .t2 => .ok (.cciKT2 (BitVec.ofNat 10 v))
    | .countInd .kanji .t3 => .ok (.cciKT3 (BitVec.ofNat 12 v))
    | .num3 =>
      if v < 1000 then .ok (.num3 (v / 100) (v / 10 % 10) (v % 10)) else .error .groupValueOutOfRange
    | .num2 => if v < 100 then .ok (.num2 (v / 10) (v % 10)) else .error .groupValueOutOfRange
    | .num1 => if v < 10 then .ok (.num1 v) else .error .groupValueOutOfRange
    | .an2 => if v < 2025 then .ok (.an2 (v / 45) (v % 45)) else .error .groupValueOutOfRange
    | .an1 => if v < 45 then .ok (.an1 v) else .error .groupValueOutOfRange
    | .byte8 => .ok (.byte8 (BitVec.ofNat 8 v))
    | .kanji13 => .ok (.kanji13 (BitVec.ofNat 13 v))
    | .gap => if v = 0x00 then .ok .gap else .error .wrongFixedByte
    | .pad0 => if v = 0xEC then .ok .pad0 else .error .wrongFixedByte
    | .pad1 => if v = 0x11 then .ok .pad1 else .error .wrongFixedByte

/-- Decode the element at the head of a bit string; the answer carries the rest of the string. -/
def decodeBits (sl : Slot) (bs : List Bool) : Except DecodeError (Instr × List Bool) :=
  if bs.length < sl.width then .error .truncated
  else
    match decodeAt sl (bitsVal (bs.take sl.width)) with
    | .ok i => .ok (i, bs.drop sl.width)
    | .error e => .error e

/-- Decode the data groups of a segment, `left` characters (in Byte mode: bytes) still to come (R107).
`fuel` bounds the number of groups; `left` groups always suffice. -/
def decodeGroups (m : Mode) : (fuel left : Nat) → List Bool → Except DecodeError (List Instr × List Bool)
  | 0, _, bs => .ok ([], bs)
  | fuel + 1, left, bs =>
    match dataSlot m left with
    | none => .ok ([], bs)
    | some sl =>
      match decodeBits sl bs with
      | .error e => .error e
      | .ok (i, rest) =>
        match decodeGroups m fuel (left - sl.units) rest with
        | .error e => .error e
        | .ok (is, rest') => .ok (i :: is, rest')

/-! The encoder. -/

/-- The number the bits of an operation write (R91, R97 to R103). -/
def Instr.value : Instr → Nat
  | .encodeL n => (encodeWord .L n).toNat
  | .encodeM n => (encodeWord .M n).toNat
  | .encodeQ n => (encodeWord .Q n).toNat
  | .encodeH n => (encodeWord .H n).toNat
  | .nop x => (x ++ 0#1).toNat
  | .miNumeric => 0b0001
  | .miAlnum => 0b0010
  | .miByte => 0b0100
  | .miKanji => 0b1000
  | .cciNT1 c => c.toNat
  | .cciNT2 c => c.toNat
  | .cciNT3 c => c.toNat
  | .cciAT1 c => c.toNat
  | .cciAT2 c => c.toNat
  | .cciAT3 c => c.toNat
  | .cciBT1 c => c.toNat
  | .cciBT2 c => c.toNat
  | .cciBT3 c => c.toNat
  | .cciKT1 c => c.toNat
  | .cciKT2 c => c.toNat
  | .cciKT3 c => c.toNat
  | .num3 d0 d1 d2 => 100 * d0 + 10 * d1 + d2
  | .num2 d0 d1 => 10 * d0 + d1
  | .num1 d0 => d0
  | .an2 a0 a1 => 45 * a0 + a1
  | .an1 a0 => a0
  | .byte8 b => b.toNat
  | .kanji13 k => k.toNat
  | .gap => 0x00
  | .pad0 => 0xEC
  | .pad1 => 0x11

/-- The width of an operation's bits. -/
def Instr.width (i : Instr) : Nat := i.slot.width

/-- The bits of an operation, most significant first. -/
def encode (i : Instr) : List Bool := bitsOf i.width i.value

/-- The bits of a sequence of stream elements, with nothing between them (R172). -/
def encodeAll (is : List Instr) : List Bool := is.flatMap encode

/-! A table word taken without its position. -/

/-- The slots a word of `nbits` bits is tried at, in order (log entry 12): 16 bits are a command word; the
fixed patterns of the narrower rows come before the rows without fixed bits. -/
def tableSlots (nbits : Nat) : List Slot :=
  match nbits with
  | 4 => [.modeInd, .num1]
  | 6 => [.an1]
  | 7 => [.num2]
  | 8 => [.modeInd, .gap, .pad0, .pad1, .byte8]
  | 9 => [.countInd .alnum .t1]
  | 10 => [.countInd .numeric .t1]
  | 11 => [.countInd .alnum .t2]
  | 12 => [.countInd .numeric .t2]
  | 13 => [.countInd .alnum .t3]
  | 14 => [.countInd .numeric .t3]
  | 16 => [.command]
  | _ => []

/-- The first answer among some slots. -/
def decodeFirst : List Slot → Nat → Option Instr
  | [], _ => none
  | sl :: sls, w =>
    match decodeAt sl w with
    | .ok i => some i
    | .error _ => decodeFirst sls w

/-- The operation the decoder reads from a word of the opcode table, numbered as the table numbers it. -/
def decodeTableWord (nbits w : Nat) : Option Instr := decodeFirst (tableSlots nbits) w

/-! The record word (R42) and the row word (R95). -/

/-- `cp = rec[20:0]`. -/
def recCp (r : Rec) : Nat := (r.extractLsb' 0 21).toNat

/-- `rawlen = rlm1 + 1`, `rlm1 = rec[22:21]`. -/
def recRawLen (r : Rec) : Nat := (r.extractLsb' 21 2).toNat + 1

/-- Raw byte `k` is `raw[8k+7 : 8k]`, `raw = rec[54:23]`. -/
def recRawByte (r : Rec) (k : Nat) : Byte := r.extractLsb' (23 + 8 * k) 8

/-- The raw bytes of a record, first in text order first; those from `rawlen` on are ignored. -/
def recRaw (r : Rec) : List Byte := (List.range (recRawLen r)).map (recRawByte r)

/-- A record from its fields, most significant first. -/
def mkRec (raw : BitVec 32) (rlm1 : BitVec 2) (cp : BitVec 21) : Rec := raw ++ rlm1 ++ cp

/-- The 93-bit word of a row (R95). -/
def rowWord (r : Row) : BitVec 93 :=
  BitVec.ofNat 8 r.g2w ++ BitVec.ofNat 8 r.g2b ++ BitVec.ofNat 8 r.g1w ++ BitVec.ofNat 8 r.g1b ++
  BitVec.ofNat 12 r.total ++ BitVec.ofNat 11 r.capK ++ BitVec.ofNat 12 r.capB ++ BitVec.ofNat 13 r.capA ++
  BitVec.ofNat 13 r.capN

/-- The row a 93-bit word holds (R95). -/
def rowOfWord (w : BitVec 93) : Row where
  capN := (w.extractLsb' 0 13).toNat
  capA := (w.extractLsb' 13 13).toNat
  capB := (w.extractLsb' 26 12).toNat
  capK := (w.extractLsb' 38 11).toNat
  total := (w.extractLsb' 49 12).toNat
  g1b := (w.extractLsb' 61 8).toNat
  g1w := (w.extractLsb' 69 8).toNat
  g2b := (w.extractLsb' 77 8).toNat
  g2w := (w.extractLsb' 85 8).toNat

end Sys2Proof
end

