-- ==== Sys2Proof/Machine/CapRom.lean ====
section
/-! DEFINITION. The default contents of the capacity ROM (spec/42_capacity_rom.md R165), and the default
configuration (spec/93_implementation_defined.md part 2). The table is the spec's own default, marked there
"from general knowledge, not in source"; a row is (cap_n, cap_a, cap_b, cap_k, total_words, g1_blocks,
g1_words, g2_blocks, g2_words), four rows (L, M, Q, H) a version. -/

namespace Sys2Proof.Machine

/-- Versions 1 to 5. -/
def romVersions1to5 : List Row :=
  [⟨41, 25, 17, 10, 19, 1, 19, 0, 0⟩, ⟨34, 20, 14, 8, 16, 1, 16, 0, 0⟩,
   ⟨27, 16, 11, 7, 13, 1, 13, 0, 0⟩, ⟨17, 10, 7, 4, 9, 1, 9, 0, 0⟩,
   ⟨77, 47, 32, 20, 34, 1, 34, 0, 0⟩, ⟨63, 38, 26, 16, 28, 1, 28, 0, 0⟩,
   ⟨48, 29, 20, 12, 22, 1, 22, 0, 0⟩, ⟨34, 20, 14, 8, 16, 1, 16, 0, 0⟩,
   ⟨127, 77, 53, 32, 55, 1, 55, 0, 0⟩, ⟨101, 61, 42, 26, 44, 1, 44, 0, 0⟩,
   ⟨77, 47, 32, 20, 34, 2, 17, 0, 0⟩, ⟨58, 35, 24, 15, 26, 2, 13, 0, 0⟩,
   ⟨187, 114, 78, 48, 80, 1, 80, 0, 0⟩, ⟨149, 90, 62, 38, 64, 2, 32, 0, 0⟩,
   ⟨111, 67, 46, 28, 48, 2, 24, 0, 0⟩, ⟨82, 50, 34, 21, 36, 4, 9, 0, 0⟩,
   ⟨255, 154, 106, 65, 108, 1, 108, 0, 0⟩, ⟨202, 122, 84, 52, 86, 2, 43, 0, 0⟩,
   ⟨144, 87, 60, 37, 62, 2, 15, 2, 16⟩, ⟨106, 64, 44, 27, 46, 2, 11, 2, 12⟩]

/-- Versions 6 to 10. -/
def romVersions6to10 : List Row :=
  [⟨322, 195, 134, 82, 136, 2, 68, 0, 0⟩, ⟨255, 154, 106, 65, 108, 4, 27, 0, 0⟩,
   ⟨178, 108, 74, 45, 76, 4, 19, 0, 0⟩, ⟨139, 84, 58, 36, 60, 4, 15, 0, 0⟩,
   ⟨370, 224, 154, 95, 156, 2, 78, 0, 0⟩, ⟨293, 178, 122, 75, 124, 4, 31, 0, 0⟩,
   ⟨207, 125, 86, 53, 88, 2, 14, 4, 15⟩, ⟨154, 93, 64, 39, 66, 4, 13, 1, 14⟩,
   ⟨461, 279, 192, 118, 194, 2, 97, 0, 0⟩, ⟨365, 221, 152, 93, 154, 2, 38, 2, 39⟩,
   ⟨259, 157, 108, 66, 110, 4, 18, 2, 19⟩, ⟨202, 122, 84, 52, 86, 4, 14, 2, 15⟩,
   ⟨552, 335, 230, 141, 232, 2, 116, 0, 0⟩, ⟨432, 262, 180, 111, 182, 3, 36, 2, 37⟩,
   ⟨312, 189, 130, 80, 132, 4, 16, 4, 17⟩, ⟨235, 143, 98, 60, 100, 4, 12, 4, 13⟩,
   ⟨652, 395, 271, 167, 274, 2, 68, 2, 69⟩, ⟨513, 311, 213, 131, 216, 4, 43, 1, 44⟩,
   ⟨364, 221, 151, 93, 154, 6, 19, 2, 20⟩, ⟨288, 174, 119, 74, 122, 6, 15, 2, 16⟩]

/-- Versions 11 to 15. -/
def romVersions11to15 : List Row :=
  [⟨772, 468, 321, 198, 324, 4, 81, 0, 0⟩, ⟨604, 366, 251, 155, 254, 1, 50, 4, 51⟩,
   ⟨427, 259, 177, 109, 180, 4, 22, 4, 23⟩, ⟨331, 200, 137, 85, 140, 3, 12, 8, 13⟩,
   ⟨883, 535, 367, 226, 370, 2, 92, 2, 93⟩, ⟨691, 419, 287, 177, 290, 6, 36, 2, 37⟩,
   ⟨489, 296, 203, 125, 206, 4, 20, 6, 21⟩, ⟨374, 227, 155, 96, 158, 7, 14, 4, 15⟩,
   ⟨1022, 619, 425, 262, 428, 4, 107, 0, 0⟩, ⟨796, 483, 331, 204, 334, 8, 37, 1, 38⟩,
   ⟨580, 352, 241, 149, 244, 8, 20, 4, 21⟩, ⟨427, 259, 177, 109, 180, 12, 11, 4, 12⟩,
   ⟨1101, 667, 458, 282, 461, 3, 115, 1, 116⟩, ⟨871, 528, 362, 223, 365, 4, 40, 5, 41⟩,
   ⟨621, 376, 258, 159, 261, 11, 16, 5, 17⟩, ⟨468, 283, 194, 120, 197, 11, 12, 5, 13⟩,
   ⟨1250, 758, 520, 320, 523, 5, 87, 1, 88⟩, ⟨991, 600, 412, 254, 415, 5, 41, 5, 42⟩,
   ⟨703, 426, 292, 180, 295, 5, 24, 7, 25⟩, ⟨530, 321, 220, 136, 223, 11, 12, 7, 13⟩]

/-- Versions 16 to 20. -/
def romVersions16to20 : List Row :=
  [⟨1408, 854, 586, 361, 589, 5, 98, 1, 99⟩, ⟨1082, 656, 450, 277, 453, 7, 45, 3, 46⟩,
   ⟨775, 470, 322, 198, 325, 15, 19, 2, 20⟩, ⟨602, 365, 250, 154, 253, 3, 15, 13, 16⟩,
   ⟨1548, 938, 644, 397, 647, 1, 107, 5, 108⟩, ⟨1212, 734, 504, 310, 507, 10, 46, 1, 47⟩,
   ⟨876, 531, 364, 224, 367, 1, 22, 15, 23⟩, ⟨674, 408, 280, 173, 283, 2, 14, 17, 15⟩,
   ⟨1725, 1046, 718, 442, 721, 5, 120, 1, 121⟩, ⟨1346, 816, 560, 345, 563, 9, 43, 4, 44⟩,
   ⟨948, 574, 394, 243, 397, 17, 22, 1, 23⟩, ⟨746, 452, 310, 191, 313, 2, 14, 19, 15⟩,
   ⟨1903, 1153, 792, 488, 795, 3, 113, 4, 114⟩, ⟨1500, 909, 624, 384, 627, 3, 44, 11, 45⟩,
   ⟨1063, 644, 442, 272, 445, 17, 21, 4, 22⟩, ⟨813, 493, 338, 208, 341, 9, 13, 16, 14⟩,
   ⟨2061, 1249, 858, 528, 861, 3, 107, 5, 108⟩, ⟨1600, 970, 666, 410, 669, 3, 41, 13, 42⟩,
   ⟨1159, 702, 482, 297, 485, 15, 24, 5, 25⟩, ⟨919, 557, 382, 235, 385, 15, 15, 10, 16⟩]

/-- Versions 21 to 25. -/
def romVersions21to25 : List Row :=
  [⟨2232, 1352, 929, 572, 932, 4, 116, 4, 117⟩, ⟨1708, 1035, 711, 438, 714, 17, 42, 0, 0⟩,
   ⟨1224, 742, 509, 314, 512, 17, 22, 6, 23⟩, ⟨969, 587, 403, 248, 406, 19, 16, 6, 17⟩,
   ⟨2409, 1460, 1003, 618, 1006, 2, 111, 7, 112⟩, ⟨1872, 1134, 779, 480, 782, 17, 46, 0, 0⟩,
   ⟨1358, 823, 565, 348, 568, 7, 24, 16, 25⟩, ⟨1056, 640, 439, 270, 442, 34, 13, 0, 0⟩,
   ⟨2620, 1588, 1091, 672, 1094, 4, 121, 5, 122⟩, ⟨2059, 1248, 857, 528, 860, 4, 47, 14, 48⟩,
   ⟨1468, 890, 611, 376, 614, 11, 24, 14, 25⟩, ⟨1108, 672, 461, 284, 464, 16, 15, 14, 16⟩,
   ⟨2812, 1704, 1171, 721, 1174, 6, 117, 4, 118⟩, ⟨2188, 1326, 911, 561, 914, 6, 45, 14, 46⟩,
   ⟨1588, 963, 661, 407, 664, 11, 24, 16, 25⟩, ⟨1228, 744, 511, 315, 514, 30, 16, 2, 17⟩,
   ⟨3057, 1853, 1273, 784, 1276, 8, 106, 4, 107⟩, ⟨2395, 1451, 997, 614, 1000, 8, 47, 13, 48⟩,
   ⟨1718, 1041, 715, 440, 718, 7, 24, 22, 25⟩, ⟨1286, 779, 535, 330, 538, 22, 15, 13, 16⟩]

/-- Versions 26 to 30. -/
def romVersions26to30 : List Row :=
  [⟨3283, 1990, 1367, 842, 1370, 10, 114, 2, 115⟩, ⟨2544, 1542, 1059, 652, 1062, 19, 46, 4, 47⟩,
   ⟨1804, 1094, 751, 462, 754, 28, 22, 6, 23⟩, ⟨1425, 864, 593, 365, 596, 33, 16, 4, 17⟩,
   ⟨3517, 2132, 1465, 902, 1468, 8, 122, 4, 123⟩, ⟨2701, 1637, 1125, 692, 1128, 22, 45, 3, 46⟩,
   ⟨1933, 1172, 805, 496, 808, 8, 23, 26, 24⟩, ⟨1501, 910, 625, 385, 628, 12, 15, 28, 16⟩,
   ⟨3669, 2223, 1528, 940, 1531, 3, 117, 10, 118⟩, ⟨2857, 1732, 1190, 732, 1193, 3, 45, 23, 46⟩,
   ⟨2085, 1263, 868, 534, 871, 4, 24, 31, 25⟩, ⟨1581, 958, 658, 405, 661, 11, 15, 31, 16⟩,
   ⟨3909, 2369, 1628, 1002, 1631, 7, 116, 7, 117⟩, ⟨3035, 1839, 1264, 778, 1267, 21, 45, 7, 46⟩,
   ⟨2181, 1322, 908, 559, 911, 1, 23, 37, 24⟩, ⟨1677, 1016, 698, 430, 701, 19, 15, 26, 16⟩,
   ⟨4158, 2520, 1732, 1066, 1735, 5, 115, 10, 116⟩, ⟨3289, 1994, 1370, 843, 1373, 19, 47, 10, 48⟩,
   ⟨2358, 1429, 982, 604, 985, 15, 24, 25, 25⟩, ⟨1782, 1080, 742, 457, 745, 23, 15, 25, 16⟩]

/-- Versions 31 to 35. -/
def romVersions31to35 : List Row :=
  [⟨4417, 2677, 1840, 1132, 1843, 13, 115, 3, 116⟩, ⟨3486, 2113, 1452, 894, 1455, 2, 46, 29, 47⟩,
   ⟨2473, 1499, 1030, 634, 1033, 42, 24, 1, 25⟩, ⟨1897, 1150, 790, 486, 793, 23, 15, 28, 16⟩,
   ⟨4686, 2840, 1952, 1201, 1955, 17, 115, 0, 0⟩, ⟨3693, 2238, 1538, 947, 1541, 10, 46, 23, 47⟩,
   ⟨2670, 1618, 1112, 684, 1115, 10, 24, 35, 25⟩, ⟨2022, 1226, 842, 518, 845, 19, 15, 35, 16⟩,
   ⟨4965, 3009, 2068, 1273, 2071, 17, 115, 1, 116⟩, ⟨3909, 2369, 1628, 1002, 1631, 14, 46, 21, 47⟩,
   ⟨2805, 1700, 1168, 719, 1171, 29, 24, 19, 25⟩, ⟨2157, 1307, 898, 553, 901, 11, 15, 46, 16⟩,
   ⟨5253, 3183, 2188, 1347, 2191, 13, 115, 6, 116⟩, ⟨4134, 2506, 1722, 1060, 1725, 14, 46, 23, 47⟩,
   ⟨2949, 1787, 1228, 756, 1231, 44, 24, 7, 25⟩, ⟨2301, 1394, 958, 590, 961, 59, 16, 1, 17⟩,
   ⟨5529, 3351, 2303, 1417, 2306, 12, 121, 7, 122⟩, ⟨4343, 2632, 1809, 1113, 1812, 12, 47, 26, 48⟩,
   ⟨3081, 1867, 1283, 790, 1286, 39, 24, 14, 25⟩, ⟨2361, 1431, 983, 605, 986, 22, 15, 41, 16⟩]

/-- Versions 36 to 40. -/
def romVersions36to40 : List Row :=
  [⟨5836, 3537, 2431, 1496, 2434, 6, 121, 14, 122⟩, ⟨4588, 2780, 1911, 1176, 1914, 6, 47, 34, 48⟩,
   ⟨3244, 1966, 1351, 832, 1354, 46, 24, 10, 25⟩, ⟨2524, 1530, 1051, 647, 1054, 2, 15, 64, 16⟩,
   ⟨6153, 3729, 2563, 1577, 2566, 17, 122, 4, 123⟩, ⟨4775, 2894, 1989, 1224, 1992, 29, 46, 14, 47⟩,
   ⟨3417, 2071, 1423, 876, 1426, 49, 24, 10, 25⟩, ⟨2625, 1591, 1093, 673, 1096, 24, 15, 46, 16⟩,
   ⟨6479, 3927, 2699, 1661, 2702, 4, 122, 18, 123⟩, ⟨5039, 3054, 2099, 1292, 2102, 13, 46, 32, 47⟩,
   ⟨3599, 2181, 1499, 923, 1502, 48, 24, 14, 25⟩, ⟨2735, 1658, 1139, 701, 1142, 42, 15, 32, 16⟩,
   ⟨6743, 4087, 2809, 1729, 2812, 20, 117, 4, 118⟩, ⟨5313, 3220, 2213, 1362, 2216, 40, 47, 7, 48⟩,
   ⟨3791, 2298, 1579, 972, 1582, 43, 24, 22, 25⟩, ⟨2927, 1774, 1219, 750, 1222, 10, 15, 67, 16⟩,
   ⟨7089, 4296, 2953, 1817, 2956, 19, 118, 6, 119⟩, ⟨5596, 3391, 2331, 1435, 2334, 18, 47, 31, 48⟩,
   ⟨3993, 2420, 1663, 1024, 1666, 34, 24, 34, 25⟩, ⟨3057, 1852, 1273, 784, 1276, 20, 15, 61, 16⟩]

/-- The 160 rows, row `v-l` at index `(v-1)*4 + l` (R45, R165). -/
def defaultRom : List Row :=
  romVersions1to5 ++ romVersions6to10 ++ romVersions11to15 ++ romVersions16to20 ++
  romVersions21to25 ++ romVersions26to30 ++ romVersions31to35 ++ romVersions36to40

/-- The default configuration: CAP_ROM of R165, CJK_SET U+4E00..U+9FFF (R124), KANJI_MAP unbound (R283),
BYTE_COUNT_UNIT = CHARS (R8). -/
def defaultConfig : Config where
  rom := defaultRom
  cjk := [(0x4E00, 0x9FFF)]
  kanji := []
  unit := .chars

end Sys2Proof.Machine
end

