-- ==== Sys2Proof/Machine/State.lean ====
section
/-! DEFINITION. The state of the block (spec/10_state.md), what stops a step, and the state after reset
(R48, spec/70_reset_and_hazards.md R280, R281). Plain data throughout. -/

namespace Sys2Proof.Machine

/-- A memory of records or bytes: (address, unit) pairs, addresses strictly rising. An address that is not
listed holds no value the spec fixes; what a read of it gives is a free value (State.textRec, State.cwByte). -/
abbrev Memory (α : Type) := List (Nat × α)

/-- The one canonical form: addresses strictly rising. -/
abbrev Memory.wf {α : Type} (m : Memory α) : Prop := List.Pairwise (· < ·) (m.map Prod.fst)

/-- PHASE, the sequencer's place (R30). -/
inductive Phase where
  | idle
  | classify
  | select
  | pack
  | assemble
  | done
  | error
deriving DecidableEq, Repr

/-- Where ASSEMBLE stands in the order of R200 (the model's own, log entry 4): the overflow test and zero
fill, the mode indicator, the count indicator, the data, the gap, then the pad bytes in turn. -/
inductive Stage where
  | test
  | modeInd
  | countInd
  | data
  | gap
  | pad0
  | pad1
deriving DecidableEq, Repr

/-- What the host can do (R240), and how the model says whose turn it is (log entry 3). -/
inductive HostOp where
  /-- write `w` to register `n`; register 0 is CMD (R21, R22) -/
  | writeReg (n : Nat) (w : CmdWord)
  /-- read register `n` (R21) -/
  | readReg (n : Nat)
  /-- write a record to TEXT (R41) -/
  | writeText (a : Nat) (r : Rec)
  /-- read a record of TEXT (R41) -/
  | readText (a : Nat)
  /-- read a byte of CW (R43) -/
  | readCw (a : Nat)
  /-- assert the reset input (R280) -/
  | reset
  /-- the WAIT of R108: read STATUS until STATE is not BUSY -/
  | wait
  /-- do nothing while the block takes one step -/
  | tick
deriving DecidableEq, Repr

/-- Everything the spec gives the block, then the model's own bookkeeping. -/
structure State where
  /-- the integrator's configuration, ROM contents among it; no step changes it (R9, R45, R47) -/
  cfg : Config
  /-- PHASE (R30); STATUS.STATE and the `done` output are functions of it (R23, R258) -/
  phase : Phase
  /-- STATUS.ERR; `none` is code 0, no error (R23, R251) -/
  err : Option JobError
  /-- register 2, LVL_R (R24) -/
  lvlR : Level
  /-- register 3, LEN_R (R25) -/
  lenR : Nat
  /-- register 4, COUNT (R26) -/
  count : Nat
  /-- register 5, MODE; `none` is 0b0000, no job classified (R27) -/
  mode : Option Mode
  /-- register 6, VER (R28) -/
  ver : Nat
  /-- registers 7 to 15: TOTAL, CAPN, CAPA, CAPB, CAPK, G1B, G1W, G2B, G2W (R29) -/
  row : Row
  /-- register 16, REQ (R34) -/
  req : Nat
  /-- IDX (R31) -/
  idx : Nat
  /-- VSCAN (R32) -/
  vscan : Nat
  /-- CUR, the bit cursor (R33) -/
  cur : Nat
  /-- the classifier's mode so far, `m` of R125 -/
  scanMode : Mode
  /-- the classifier's flag "halted", `h` of R125 -/
  scanHalted : Bool
  /-- SEG, the elements packed and not yet written (R37, R172) -/
  seg : List Instr
  /-- TEXT memory (R41) -/
  text : Memory Rec
  /-- CW memory (R43) -/
  cw : Memory Byte
  /-- model: where ASSEMBLE stands -/
  stage : Stage
  /-- model: the host's accesses still to come, oldest first; no buffer of the block -/
  host : List HostOp
  /-- model: the value the last host read returned -/
  dout : Nat
  /-- model: counts the events after which unwritten TEXT is a new unknown (U1) -/
  textEpoch : Nat
  /-- model: counts the events after which unlisted CW is a new unknown (U2, U3) -/
  cwEpoch : Nat
  /-- model: counts the reads whose value the spec leaves open (U4) -/
  freeReads : Nat
deriving DecidableEq, Repr

/-- Why the machine stops. Raised by the host port and the selector only; all three are safe: the spec says
the location does not exist and gives such an access no effect. -/
inductive Fault where
  /-- a host access to TEXT at an address above 8190 (R41); raised by hostAccess; safe -/
  | textAddress (a : Nat)
  /-- a host read of CW at or above CW_MAX (R43); raised by hostAccess; safe -/
  | cwAddress (a : Nat)
  /-- a read of a ROM row the configuration does not hold (R45, R70); raised by selectStep, and never with
  the 160 rows of a well-formed configuration; safe -/
  | romAddress (v : Nat) (l : Level)
deriving DecidableEq, Repr

/-- Why an operation has no meaning here. -/
inductive Refusal where
  /-- an operation of the opcode table without a meaning in this model; raised by exec; safe -/
  | notModelled (mnemonic : String)
  /-- a phase that dispatches on MODE while MODE holds 0b0000, a value no phase after CLASSIFY meets (R27,
  R106 (d), U6); raised by the sequencer, and never from a state that meets the invariant; safe -/
  | modeUnassigned
deriving DecidableEq, Repr

/-- The state after reset (R48, R281): every host-visible register 0, PHASE = IDLE, nothing known of TEXT
and CW. IDX, VSCAN and CUR are unspecified there and 0 here; the configuration is the default one and the
remaining fields are the model's own (log entries 1, 5, 6). -/
def State.reset : State where
  cfg := defaultConfig
  phase := .idle
  err := none
  lvlR := .L
  lenR := 0
  count := 0
  mode := none
  ver := 0
  row := Row.zero
  req := 0
  idx := 0
  vscan := 0
  cur := 0
  scanMode := .numeric
  scanHalted := false
  seg := []
  text := []
  cw := []
  stage := .test
  host := []
  dout := 0
  textEpoch := 0
  cwEpoch := 0
  freeReads := 0

end Sys2Proof.Machine
end

