-- ==== Sys2Proof/Machine/Flags.lean ====
section
/-! DEFINITION. The flags: the two fields of STATUS and the `done` output (spec/10_state.md R23, R30, R35,
spec/60_exceptions.md R251, R258). There are no condition codes. -/

namespace Sys2Proof.Machine

/-- STATE as a function of PHASE: 0 IDLE, 1 BUSY, 2 DONE, 3 ERROR (R23, R30). -/
def stateCode : Phase → BitVec 2
  | .idle => 0
  | .classify | .select | .pack | .assemble => 1
  | .done => 2
  | .error => 3

/-- ERR: 0 none, then the errors in the order of the source's list (R251). -/
def errCode : Option JobError → BitVec 2
  | none => 0
  | some .invalidCharacterForMode => 1
  | some .noVersionFits => 2
  | some .capacityOverflow => 3

/-- `STATUS = {ERR, STATE}` (R23). -/
def State.statusWord (s : State) : BitVec 4 := errCode s.err ++ stateCode s.phase

/-- STATE = BUSY (R23). -/
def State.busy (s : State) : Bool := stateCode s.phase == 1

/-- The level output `done`: 1 exactly when STATE is DONE or ERROR (R258). -/
def State.doneOut (s : State) : Bool := stateCode s.phase == 2 || stateCode s.phase == 3

/-- The MODE register as its indicator nibble (R27). -/
def modeNibble : Option Mode → BitVec 4
  | none => 0b0000
  | some m => m.nibble

end Sys2Proof.Machine
end

