-- ==== Sys2Proof/Machine/Operands.lean ====
section
/-! DEFINITION. How operand values are formed: the classifier's character classes and its scan
(spec/40_classify.md), the alphabet, the Kanji transform and the four packers (spec/43_segment_pack.md), the
capacities and the version scan (spec/41_version_select.md). Pure functions of the configuration and the
text; the sequencer applies them to the state. -/

namespace Sys2Proof.Machine

/-! Character classes (R121 to R124). -/

/-- U+0030..U+0039 (R121). -/
def isDigit (c : Nat) : Bool := 0x30 ≤ c && c ≤ 0x39

/-- U+0041..U+005A (R122). -/
def isUpper (c : Nat) : Bool := 0x41 ≤ c && c ≤ 0x5A

/-- The nine symbols `$ % * + - . / :` and space (R123). -/
def isSym9 (c : Nat) : Bool := [0x24, 0x25, 0x2A, 0x2B, 0x2D, 0x2E, 0x2F, 0x3A, 0x20].contains c

/-- Membership in CJK_SET (R124). -/
def isCJK (cfg : Config) (c : Nat) : Bool := cfg.cjk.any fun r => r.1 ≤ c && c ≤ r.2

/-! The classifier (R120, R125, R129). -/

/-- The scan of R120 from a mode so far: digits do nothing, a Byte trigger ends the scan. -/
def classifyFrom (cfg : Config) : Mode → List Nat → Mode
  | m, [] => m
  | m, c :: cs =>
    if isDigit c then classifyFrom cfg m cs
    else if isUpper c || isSym9 c then classifyFrom cfg .alnum cs
    else if isCJK cfg c then classifyFrom cfg .kanji cs
    else .byte

/-- `CLASSIFY` of a sequence of code points (R120). -/
def classify (cfg : Config) (cps : List Nat) : Mode := classifyFrom cfg .numeric cps

/-- The per-character step of R125 on (mode so far, halted). -/
def classStep (cfg : Config) (mh : Mode × Bool) (c : Nat) : Mode × Bool :=
  if mh.2 then (mh.1, true)
  else if isDigit c then (mh.1, false)
  else if isUpper c || isSym9 c then (.alnum, false)
  else if isCJK cfg c then (.kanji, false)
  else (.byte, true)

/-- `N_byte`, the sum of the raw lengths (R14). -/
def byteCount (txt : List Rec) : Nat := (txt.map recRawLen).sum

/-- `COUNT` (R129): raw bytes in Byte mode when BYTE_COUNT_UNIT = BYTES, else characters. -/
def countOf (cfg : Config) (m : Mode) (txt : List Rec) : Nat :=
  if m = .byte ∧ cfg.unit = .bytes then byteCount txt else txt.length

/-! Capacities and the version scan (R143 to R146). -/

/-- The capacity field for a mode (R143). -/
def Row.cap (r : Row) : Mode → Nat
  | .numeric => r.capN
  | .alnum => r.capA
  | .byte => r.capB
  | .kanji => r.capK

/-- `ROM[v][l]`, the row at address `(v-1)*4 + l` (R45, R144). -/
def romRow (cfg : Config) (v : Nat) (l : Level) : Option Row := cfg.rom[(v - 1) * 4 + l.code.toNat]?

/-- The scan of R145 over `fuel` versions from `v`: the first row whose capacity suffices. -/
def selectFrom (cfg : Config) (l : Level) (m : Mode) (count : Nat) : (fuel v : Nat) → Option (Nat × Row)
  | 0, _ => none
  | fuel + 1, v =>
    match romRow cfg v l with
    | none => none
    | some row => if count ≤ Row.cap row m then some (v, row) else selectFrom cfg l m count fuel (v + 1)

/-- `SELECT`: versions 1 to 40 in ascending order, the first fit wins (R145); `none` is NoVersionFits (R146). -/
def selectVersion (cfg : Config) (l : Level) (m : Mode) (count : Nat) : Option (Nat × Row) :=
  selectFrom cfg l m count nVersions 1

/-! The packers (R170 to R187). -/

/-- A digit's value (R173), undefined outside U+0030..U+0039. -/
def digitVal (c : Nat) : Option Nat := if isDigit c then some (c - 0x30) else none

/-- The values of the eight symbols and space in the alphabet (R177). -/
def symbolValues : List (Nat × Nat) :=
  [(0x20, 36), (0x24, 37), (0x25, 38), (0x2A, 39), (0x2B, 40), (0x2D, 41), (0x2E, 42), (0x2F, 43), (0x3A, 44)]

/-- `alpha(c)`, the 45-symbol alphabet (R177). -/
def alpha (c : Nat) : Option Nat :=
  if isDigit c then some (c - 0x30)
  else if isUpper c then some (c - 0x41 + 10)
  else symbolValues.lookup c

/-- The Kanji lookup port (R184). -/
def kanjiMap (cfg : Config) (c : Nat) : Option (BitVec 13) := cfg.kanji.lookup c

/-- The legal set of a mode (R186). -/
def legal (cfg : Config) (m : Mode) (r : Rec) : Bool :=
  match m with
  | .numeric => isDigit (recCp r)
  | .alnum => (alpha (recCp r)).isSome
  | .byte => true
  | .kanji => (kanjiMap cfg (recCp r)).isSome

/-- The characters one group takes (R173, R178, R181, R183). -/
def groupSize : Mode → Nat
  | .numeric => 3
  | .alnum => 2
  | .byte => 1
  | .kanji => 1

/-- The elements of the next group, made of the records given (at most `groupSize` of them); `none` if one
of them is outside the legal set (R173, R178, R181, R183, R187). -/
def packGroup (cfg : Config) (m : Mode) (g : List Rec) : Option (List Instr) :=
  match m with
  | .numeric =>
    match g.map fun r => digitVal (recCp r) with
    | [some d0, some d1, some d2] => some [.num3 d0 d1 d2]
    | [some d0, some d1] => some [.num2 d0 d1]
    | [some d0] => some [.num1 d0]
    | _ => none
  | .alnum =>
    match g.map fun r => alpha (recCp r) with
    | [some a0, some a1] => some [.an2 a0 a1]
    | [some a0] => some [.an1 a0]
    | _ => none
  | .byte =>
    match g with
    | [r] => some ((recRaw r).map .byte8)
    | _ => none
  | .kanji =>
    match g.map fun r => kanjiMap cfg (recCp r) with
    | [some k] => some [.kanji13 k]
    | _ => none

/-- `PACK.N` (R173). -/
def packNumeric : List Rec → Option (List Instr)
  | [] => some []
  | [r0] => do
    let d0 ← digitVal (recCp r0)
    return [.num1 d0]
  | [r0, r1] => do
    let d0 ← digitVal (recCp r0)
    let d1 ← digitVal (recCp r1)
    return [.num2 d0 d1]
  | r0 :: r1 :: r2 :: rs => do
    let d0 ← digitVal (recCp r0)
    let d1 ← digitVal (recCp r1)
    let d2 ← digitVal (recCp r2)
    let es ← packNumeric rs
    return .num3 d0 d1 d2 :: es

/-- `PACK.A` (R178). -/
def packAlnum : List Rec → Option (List Instr)
  | [] => some []
  | [r0] => do
    let a0 ← alpha (recCp r0)
    return [.an1 a0]
  | r0 :: r1 :: rs => do
    let a0 ← alpha (recCp r0)
    let a1 ← alpha (recCp r1)
    let es ← packAlnum rs
    return .an2 a0 a1 :: es

/-- `PACK.B` (R181). -/
def packByte (txt : List Rec) : List Instr := txt.flatMap fun r => (recRaw r).map .byte8

/-- `PACK.K` (R183). -/
def packKanji (cfg : Config) : List Rec → Option (List Instr)
  | [] => some []
  | r :: rs => do
    let k ← kanjiMap cfg (recCp r)
    let es ← packKanji cfg rs
    return .kanji13 k :: es

/-- `PACK` of a whole text; `none` is InvalidCharacterForMode (R170, R187). -/
def pack (cfg : Config) (m : Mode) (txt : List Rec) : Option (List Instr) :=
  match m with
  | .numeric => packNumeric txt
  | .alnum => packAlnum txt
  | .byte => some (packByte txt)
  | .kanji => packKanji cfg txt

/-- `D(m, text)` for `n` characters and `nb` raw bytes (R171). -/
def dataBits (m : Mode) (n nb : Nat) : Nat :=
  match m with
  | .numeric => 10 * (n / 3) + (if n % 3 = 0 then 0 else if n % 3 = 1 then 4 else 7)
  | .alnum => 11 * (n / 2) + 6 * (n % 2)
  | .byte => 8 * nb
  | .kanji => 13 * n

/-- `P = 4 + C + D`, the bits the header and the data need (R202). -/
def requiredBits (v : Nat) (m : Mode) (txt : List Rec) : Nat :=
  4 + countWidth (tier v) m + dataBits m txt.length (byteCount txt)

/-- `MI.<mode>` (R204). -/
def modeIndOf : Mode → Instr
  | .numeric => .miNumeric
  | .alnum => .miAlnum
  | .byte => .miByte
  | .kanji => .miKanji

/-- `CCI.<mode>.T<tier>` of a count, widened with zeros to `C` bits (R98, R205). -/
def countIndOf (m : Mode) (t : Tier) (count : Nat) : Instr :=
  match m, t with
  | .numeric, .t1 => .cciNT1 (BitVec.ofNat 10 count)
  | .numeric, .t2 => .cciNT2 (BitVec.ofNat 12 count)
  | .numeric, .t3 => .cciNT3 (BitVec.ofNat 14 count)
  | .alnum, .t1 => .cciAT1 (BitVec.ofNat 9 count)
  | .alnum, .t2 => .cciAT2 (BitVec.ofNat 11 count)
  | .alnum, .t3 => .cciAT3 (BitVec.ofNat 13 count)
  | .byte, .t1 => .cciBT1 (BitVec.ofNat 8 count)
  | .byte, .t2 => .cciBT2 (BitVec.ofNat 16 count)
  | .byte, .t3 => .cciBT3 (BitVec.ofNat 16 count)
  | .kanji, .t1 => .cciKT1 (BitVec.ofNat 8 count)
  | .kanji, .t2 => .cciKT2 (BitVec.ofNat 10 count)
  | .kanji, .t3 => .cciKT3 (BitVec.ofNat 12 count)

end Sys2Proof.Machine
end

