-- ==== Sys2Proof/Machine/Ops.lean ====
section
/-! DEFINITION. The operations over memory and registers that the meanings share: the two writable memories
(spec/10_state.md R41, R43), the store primitive APPEND (spec/20_memory.md R66), starting a job
(spec/45_encode_command.md R230), raising an error (spec/60_exceptions.md R256), the register file of R21,
and reset (spec/70_reset_and_hazards.md R280). -/

namespace Sys2Proof.Machine

/-! Memories in canonical form. -/

/-- What is listed at an address. -/
def Memory.read {α : Type} : Memory α → Nat → Option α
  | [], _ => none
  | (b, u) :: m, a => if b = a then some u else Memory.read m a

/-- Write one unit, keeping addresses strictly rising. -/
def Memory.write {α : Type} : Memory α → Nat → α → Memory α
  | [], a, v => [(a, v)]
  | (b, u) :: m, a, v =>
    if a < b then (a, v) :: (b, u) :: m
    else if b = a then (a, v) :: m
    else (b, u) :: Memory.write m a v

/-- The cells at and above an address. -/
def Memory.from {α : Type} (m : Memory α) (t : Nat) : Memory α := m.filter fun c => t ≤ c.1

/-- `CW[0 .. t-1] <- 0x00`, the locations from `t` on unchanged (R201). -/
def zeroFill (t : Nat) (m : Memory Byte) : Memory Byte :=
  (List.range t).map (fun a => (a, (0 : Byte))) ++ Memory.from m t

/-- The record at a TEXT address: the stored one, else the free value of that address (R41, U1). -/
def State.textRec (s : State) (a : Nat) : Rec := (Memory.read s.text a).getD (Config.freeText s.textEpoch a)

/-- A byte of a CW memory: the stored one, else the free value of that address (R43, U2, U3). -/
def cwGet (epoch : Nat) (m : Memory Byte) (a : Nat) : Byte := (Memory.read m a).getD (Config.freeCw epoch a)

/-- The byte at a CW address. -/
def State.cwByte (s : State) (a : Nat) : Byte := cwGet s.cwEpoch s.cw a

/-- Global bit `g` of CW: bit `7 - (g mod 8)` of byte `g div 8` (R12). -/
def State.cwBit (s : State) (g : Nat) : Bool := (s.cwByte (g / 8)).getLsbD (7 - g % 8)

/-- The job's text: records `0 .. LEN_R - 1` in index order (R25). -/
def State.jobText (s : State) : List Rec := (List.range s.lenR).map s.textRec

/-- The next (up to) `k` records of the job's text from IDX on. -/
def State.nextRecs (s : State) (k : Nat) : List Rec :=
  (List.range (min k (s.lenR - s.idx))).map fun j => s.textRec (s.idx + j)

/-! APPEND (R66). -/

/-- OR bits into a buffer from global bit `g` on, the loop of R66: bit `k` of the list goes to byte
`(g+k) div 8`, bit position `7 - ((g+k) mod 8)`. -/
def orBits (epoch : Nat) : List Bool → Nat → Memory Byte → Memory Byte
  | [], _, m => m
  | b :: bs, g, m =>
    orBits epoch bs (g + 1)
      (Memory.write m (g / 8) (cwGet epoch m (g / 8) ||| (BitVec.ofNat 8 b.toNat <<< (7 - g % 8))))

/-- `APPEND(buf, g, n, v)` as a buffer, the value's most significant bit first (R66). -/
def append (epoch : Nat) (m : Memory Byte) (g n v : Nat) : Memory Byte := orBits epoch (bitsOf n v) g m

/-- The byte-wise form R67 restates: fill the low bits left in byte `g div 8`, carry the remainder into the
next byte. `fuel` bounds the bytes covered. -/
def appendBytewise (epoch : Nat) : (fuel : Nat) → (m : Memory Byte) → (g n v : Nat) → Memory Byte
  | 0, m, _, _, _ => m
  | fuel + 1, m, g, n, v =>
    if n = 0 then m
    else
      let room := 8 - g % 8
      let k := min n room
      let part := BitVec.ofNat 8 (v / 2 ^ (n - k)) <<< (room - k)
      appendBytewise epoch fuel (Memory.write m (g / 8) (cwGet epoch m (g / 8) ||| part))
        (g + k) (n - k) (v % 2 ^ (n - k))

/-! Ending a job with an error (R256, R257). -/

/-- `raise E`: ERR <- code(E), PHASE <- ERROR. Nothing else a host can read changes, but CW holds nothing the
spec promises any more (R257, U3), so every byte of it is a new unknown (log entry 6). -/
def State.raise (s : State) (e : JobError) : State :=
  { s with err := some e, phase := .error, cw := [], cwEpoch := s.cwEpoch + 1 }

/-- `CUR <- APPEND(CW, CUR, n, v)` (R200, R204 to R206). Where the bits would pass the end of the buffer the
block raises CapacityOverflow instead of writing out of bounds (R33, R255; log entry 8); the overflow test
of R203 keeps every job from there. -/
def appendValue (n v : Nat) (s : State) : Host.Outcome State Fault Refusal :=
  if s.cur + n ≤ 8 * s.row.total then
    .next { s with cw := append s.cwEpoch s.cw s.cur n v, cur := s.cur + n }
  else .next (s.raise .capacityOverflow)

/-- Leave the boundary byte: the cursor moves past byte `E = ceil(CUR/8)`, nothing is written; with no byte
left for it (`E = T`) the cursor stands at the end (R208, R211). -/
def skipByte (s : State) : Host.Outcome State Fault Refusal :=
  .next { s with cur := min (8 * (ceil8 s.cur + 1)) (8 * s.row.total) }

/-- Write a pad byte at the next whole byte position, if one is left (R209, R211). -/
def padByte (b : Byte) (s : State) : Host.Outcome State Fault Refusal :=
  if ceil8 s.cur < s.row.total then
    .next { s with cw := Memory.write s.cw (ceil8 s.cur) b, cur := 8 * (ceil8 s.cur + 1) }
  else .next s

/-! Starting a job (R230). -/

/-- The effect of `ENCODE.x` when STATE is not BUSY (R230, R236: IDX <- 0; R125: the scan starts at
(NUMERIC, false)). -/
def State.startJob (s : State) (l : Level) (n : Nat) : State :=
  { s with
    lvlR := l, lenR := n,
    err := none, mode := none, count := 0, ver := 0, req := 0, row := Row.zero,
    idx := 0, scanMode := .numeric, scanHalted := false,
    phase := .classify }

/-- An `ENCODE.x` command: ignored while BUSY (R232), else it starts a job (R230). -/
def encodeCommand (l : Level) (len : BitVec 13) (s : State) : Host.Outcome State Fault Refusal :=
  if s.busy then .next s else .next (s.startJob l len.toNat)

/-! The register file (R21). -/

/-- The widths of R21. Those marked with a dagger are the ones of the default CAP_ROM, kept under every
configuration (DESIGN CHOICE, log entry 20): R160 has an integrator widen them for larger numbers and leaves by
how much open. They bound what a read while BUSY may return and nothing else. -/
def regWidth (n : Nat) : Nat :=
  [16, 4, 2, 13, 15, 4, 6, 12, 13, 13, 12, 11, 8, 8, 8, 8, 18].getD n 0

/-- What a register holds, by its number; CMD is write-only and reads zero, numbers 17 and above select
nothing and read zero (R21). Every register reads the whole natural it holds: for G1B to G2W, which R21 gives 8
bits without a dagger, this is the model's where a CAP_ROM has larger block-group fields (DESIGN CHOICE, log
entry 21). -/
def readReg (n : Nat) (s : State) : Nat :=
  match n with
  | 1 => s.statusWord.toNat
  | 2 => s.lvlR.code.toNat
  | 3 => s.lenR
  | 4 => s.count
  | 5 => (modeNibble s.mode).toNat
  | 6 => s.ver
  | 7 => s.row.total
  | 8 => s.row.capN
  | 9 => s.row.capA
  | 10 => s.row.capB
  | 11 => s.row.capK
  | 12 => s.row.g1b
  | 13 => s.row.g1w
  | 14 => s.row.g2b
  | 15 => s.row.g2w
  | 16 => s.req
  | _ => 0

/-- A host read that returns a value the spec gives. -/
def returns (v : Nat) (s : State) : State := { s with dout := v }

/-- A host read whose value the spec leaves open: any value of the given width (R286, U4). -/
def returnsFree (width : Nat) (s : State) : State :=
  { s with dout := Config.freeRead s.freeReads % 2 ^ width, freeReads := s.freeReads + 1 }

/-! Reset (R280). -/

/-- Assert the reset input: the job in progress ends without a result, every host-visible register is 0,
PHASE is IDLE, TEXT and CW are unspecified anew; the configuration is not affected (R48, R280, R281). -/
def State.resetBlock (s : State) : State :=
  { State.reset with
    cfg := s.cfg, host := s.host, dout := s.dout, freeReads := s.freeReads,
    textEpoch := s.textEpoch + 1, cwEpoch := s.cwEpoch + 1 }

end Sys2Proof.Machine
end

