-- ==== Sys2Proof/Machine/Command.lean ====
section
/-! DEFINITION. The meanings of the command forms (spec/45_encode_command.md R230 to R232). -/

namespace Sys2Proof.Machine

/-- `ENCODE.L`: level code 0 (R92, R230). -/
def execEncodeL (len : BitVec 13) (s : State) : Host.Outcome State Fault Refusal := encodeCommand .L len s

/-- `ENCODE.M`: level code 1 (R92, R230). -/
def execEncodeM (len : BitVec 13) (s : State) : Host.Outcome State Fault Refusal := encodeCommand .M len s

/-- `ENCODE.Q`: level code 2 (R92, R230). -/
def execEncodeQ (len : BitVec 13) (s : State) : Host.Outcome State Fault Refusal := encodeCommand .Q len s

/-- `ENCODE.H`: level code 3 (R92, R230). -/
def execEncodeH (len : BitVec 13) (s : State) : Host.Outcome State Fault Refusal := encodeCommand .H len s

/-- `NOP`: no effect in any state; the fifteen other bits are ignored (R231). -/
def execNop (_x : BitVec 15) (s : State) : Host.Outcome State Fault Refusal := .next s

end Sys2Proof.Machine
end

