-- ==== Sys2Proof/Machine/Data.lean ====
section
/-! DEFINITION. The meanings of the data elements (spec/43_segment_pack.md R174 to R185), written at the
cursor as R206 says. -/

namespace Sys2Proof.Machine

/-- `NUM3`: the value of three digits in 10 bits (R174). -/
def execNum3 (d0 d1 d2 : Nat) (s : State) : Host.Outcome State Fault Refusal :=
  appendValue 10 (100 * d0 + 10 * d1 + d2) s

/-- `NUM2`: the value of two digits in 7 bits (R175). -/
def execNum2 (d0 d1 : Nat) (s : State) : Host.Outcome State Fault Refusal := appendValue 7 (10 * d0 + d1) s

/-- `NUM1`: a digit in 4 bits (R176). -/
def execNum1 (d0 : Nat) (s : State) : Host.Outcome State Fault Refusal := appendValue 4 d0 s

/-- `AN2`: 45 times the first alphabet value plus the second, in 11 bits (R179). -/
def execAn2 (a0 a1 : Nat) (s : State) : Host.Outcome State Fault Refusal := appendValue 11 (45 * a0 + a1) s

/-- `AN1`: an alphabet value in 6 bits (R180). -/
def execAn1 (a0 : Nat) (s : State) : Host.Outcome State Fault Refusal := appendValue 6 a0 s

/-- `BYTE8`: a raw byte as it is, in 8 bits (R182). -/
def execByte8 (b : Byte) (s : State) : Host.Outcome State Fault Refusal := appendValue 8 b.toNat s

/-- `KANJI13`: a KANJI_MAP value in 13 bits (R185). -/
def execKanji13 (k : BitVec 13) (s : State) : Host.Outcome State Fault Refusal := appendValue 13 k.toNat s

end Sys2Proof.Machine
end

