-- ==== Sys2Proof/Machine/Header.lean ====
section
/-! DEFINITION. The meanings of the header elements: the mode indicator (spec/44_assemble.md R204,
spec/30_encoding.md R97) and the count indicator (R205, R98, widths R142). -/

namespace Sys2Proof.Machine

/-- `MI.NUMERIC` (R204). -/
def execMiNumeric (s : State) : Host.Outcome State Fault Refusal := appendValue 4 0b0001 s

/-- `MI.ALNUM` (R204). -/
def execMiAlnum (s : State) : Host.Outcome State Fault Refusal := appendValue 4 0b0010 s

/-- `MI.BYTE` (R204). -/
def execMiByte (s : State) : Host.Outcome State Fault Refusal := appendValue 4 0b0100 s

/-- `MI.KANJI` (R204). -/
def execMiKanji (s : State) : Host.Outcome State Fault Refusal := appendValue 4 0b1000 s

/-- `CCI.N.T1`: the count in 10 bits (R205). -/
def execCciNT1 (c : BitVec 10) (s : State) : Host.Outcome State Fault Refusal := appendValue 10 c.toNat s

/-- `CCI.N.T2`: the count in 12 bits (R205). -/
def execCciNT2 (c : BitVec 12) (s : State) : Host.Outcome State Fault Refusal := appendValue 12 c.toNat s

/-- `CCI.N.T3`: the count in 14 bits (R205). -/
def execCciNT3 (c : BitVec 14) (s : State) : Host.Outcome State Fault Refusal := appendValue 14 c.toNat s

/-- `CCI.A.T1`: the count in 9 bits (R205). -/
def execCciAT1 (c : BitVec 9) (s : State) : Host.Outcome State Fault Refusal := appendValue 9 c.toNat s

/-- `CCI.A.T2`: the count in 11 bits (R205). -/
def execCciAT2 (c : BitVec 11) (s : State) : Host.Outcome State Fault Refusal := appendValue 11 c.toNat s

/-- `CCI.A.T3`: the count in 13 bits (R205). -/
def execCciAT3 (c : BitVec 13) (s : State) : Host.Outcome State Fault Refusal := appendValue 13 c.toNat s

/-- `CCI.B.T1`: the count in 8 bits (R205). -/
def execCciBT1 (c : BitVec 8) (s : State) : Host.Outcome State Fault Refusal := appendValue 8 c.toNat s

/-- `CCI.B.T2`: the count in 16 bits (R205). -/
def execCciBT2 (c : BitVec 16) (s : State) : Host.Outcome State Fault Refusal := appendValue 16 c.toNat s

/-- `CCI.B.T3`: the count in 16 bits (R205). -/
def execCciBT3 (c : BitVec 16) (s : State) : Host.Outcome State Fault Refusal := appendValue 16 c.toNat s

/-- `CCI.K.T1`: the count in 8 bits (R205). -/
def execCciKT1 (c : BitVec 8) (s : State) : Host.Outcome State Fault Refusal := appendValue 8 c.toNat s

/-- `CCI.K.T2`: the count in 10 bits (R205). -/
def execCciKT2 (c : BitVec 10) (s : State) : Host.Outcome State Fault Refusal := appendValue 10 c.toNat s

/-- `CCI.K.T3`: the count in 12 bits (R205). -/
def execCciKT3 (c : BitVec 12) (s : State) : Host.Outcome State Fault Refusal := appendValue 12 c.toNat s

end Sys2Proof.Machine
end

