-- ==== Sys2Proof/Machine/Padding.lean ====
section
/-! DEFINITION. The meanings of the whole-byte elements after the data: the gap (spec/44_assemble.md R208)
and the two pad bytes (R209, spec/30_encoding.md R103). -/

namespace Sys2Proof.Machine

/-- `GAP`: the boundary byte is skipped, not written (R208). -/
def execGap (s : State) : Host.Outcome State Fault Refusal := skipByte s

/-- `PAD0`: the pad byte 0xEC (R209). -/
def execPad0 (s : State) : Host.Outcome State Fault Refusal := padByte 0xEC s

/-- `PAD1`: the pad byte 0x11 (R209). -/
def execPad1 (s : State) : Host.Outcome State Fault Refusal := padByte 0x11 s

end Sys2Proof.Machine
end

