-- ==== Sys2Proof/Machine/Dispatch.lean ====
section
/-! DEFINITION. One arm for each operation of the opcode table. -/

namespace Sys2Proof.Machine

def exec (i : Instr) (s : State) : Host.Outcome State Fault Refusal :=
  match i with
  | .encodeL n => Sys2Proof.Machine.execEncodeL n s
  | .encodeM n => Sys2Proof.Machine.execEncodeM n s
  | .encodeQ n => Sys2Proof.Machine.execEncodeQ n s
  | .encodeH n => Sys2Proof.Machine.execEncodeH n s
  | .nop x => Sys2Proof.Machine.execNop x s
  | .miNumeric => Sys2Proof.Machine.execMiNumeric s
  | .miAlnum => Sys2Proof.Machine.execMiAlnum s
  | .miByte => Sys2Proof.Machine.execMiByte s
  | .miKanji => Sys2Proof.Machine.execMiKanji s
  | .cciNT1 c => Sys2Proof.Machine.execCciNT1 c s
  | .cciNT2 c => Sys2Proof.Machine.execCciNT2 c s
  | .cciNT3 c => Sys2Proof.Machine.execCciNT3 c s
  | .cciAT1 c => Sys2Proof.Machine.execCciAT1 c s
  | .cciAT2 c => Sys2Proof.Machine.execCciAT2 c s
  | .cciAT3 c => Sys2Proof.Machine.execCciAT3 c s
  | .cciBT1 c => Sys2Proof.Machine.execCciBT1 c s
  | .cciBT2 c => Sys2Proof.Machine.execCciBT2 c s
  | .cciBT3 c => Sys2Proof.Machine.execCciBT3 c s
  | .cciKT1 c => Sys2Proof.Machine.execCciKT1 c s
  | .cciKT2 c => Sys2Proof.Machine.execCciKT2 c s
  | .cciKT3 c => Sys2Proof.Machine.execCciKT3 c s
  | .num3 d0 d1 d2 => Sys2Proof.Machine.execNum3 d0 d1 d2 s
  | .num2 d0 d1 => Sys2Proof.Machine.execNum2 d0 d1 s
  | .num1 d0 => Sys2Proof.Machine.execNum1 d0 s
  | .an2 a0 a1 => Sys2Proof.Machine.execAn2 a0 a1 s
  | .an1 a0 => Sys2Proof.Machine.execAn1 a0 s
  | .byte8 b => Sys2Proof.Machine.execByte8 b s
  | .kanji13 k => Sys2Proof.Machine.execKanji13 k s
  | .gap => Sys2Proof.Machine.execGap s
  | .pad0 => Sys2Proof.Machine.execPad0 s
  | .pad1 => Sys2Proof.Machine.execPad1 s

end Sys2Proof.Machine
end

