-- ==== Sys2Proof/Machine/Sequencer.lean ====
section
/-! DEFINITION. The sequencer: one step of the block in each phase, the transitions of
spec/45_encode_command.md R236. ASSEMBLE is taken element by element, in the order of
spec/44_assemble.md R200 (log entry 4): each step fetches the element that stands at the cursor (R96, R107)
and runs it. -/

namespace Sys2Proof.Machine

/-- One step of CLASSIFY (R236): classify the character at IDX, or, at the end of the text or after a Byte
trigger, write MODE and COUNT (R120, R129) and go to SELECT. -/
def classifyStep (s : State) : Host.Outcome State Fault Refusal :=
  if s.idx < s.lenR ∧ s.scanHalted = false then
    let mh := classStep s.cfg (s.scanMode, s.scanHalted) (recCp (s.textRec s.idx))
    .next { s with scanMode := mh.1, scanHalted := mh.2, idx := s.idx + 1 }
  else
    .next { s with
      mode := some s.scanMode, count := countOf s.cfg s.scanMode s.jobText, vscan := 1, phase := .select }

/-- Latch the selected version and its row (R145), and begin PACK on a fresh SEG (R37, R236). -/
def State.latchVersion (s : State) (row : Row) : State :=
  { s with ver := s.vscan, row := row, idx := 0, seg := [], phase := .pack }

/-- One step of SELECT (R145, R236): try the row of version VSCAN. -/
def selectStep (s : State) : Host.Outcome State Fault Refusal :=
  match s.mode with
  | none => .refused .modeUnassigned
  | some m =>
    match romRow s.cfg s.vscan s.lvlR with
    | none => .fault (.romAddress s.vscan s.lvlR)
    | some row =>
      if s.count ≤ Row.cap row m then .next (s.latchVersion row)
      else if s.vscan < nVersions then .next { s with vscan := s.vscan + 1 }
      else .next (s.raise .noVersionFits)

/-- One step of PACK (R236): emit the next group into SEG, or raise, or, at the end of the text, compute REQ
(R202) and go to ASSEMBLE. -/
def packStep (s : State) : Host.Outcome State Fault Refusal :=
  match s.mode with
  | none => .refused .modeUnassigned
  | some m =>
    if s.idx < s.lenR then
      let g := s.nextRecs (groupSize m)
      match packGroup s.cfg m g with
      | none => .next (s.raise .invalidCharacterForMode)
      | some es => .next { s with seg := s.seg ++ es, idx := s.idx + g.length }
    else
      .next { s with req := requiredBits s.ver m s.jobText, phase := .assemble, stage := .test }

/-- The overflow test (R203), then creation and zero fill (R201) and `CUR <- 0`. -/
def beginBuffer (m : Mode) (s : State) : Host.Outcome State Fault Refusal :=
  if 2 ^ countWidth (tier s.ver) m ≤ s.count ∨ 8 * s.row.total < s.req then
    .next (s.raise .capacityOverflow)
  else
    .next { s with cw := zeroFill s.row.total s.cw, cur := 0, stage := .modeInd }

/-- `CUR <- 8*T; PHASE <- DONE` (R200, R210). -/
def State.finish (s : State) : State := { s with cur := 8 * s.row.total, phase := .done }

/-- The element that stands at the cursor, and the state in which it is run: SEG without it, or the stage
that comes after it. `none` at the end of the data, where the gap is due next, and at the end of the
buffer (R96, R107, R208, R209, R211). -/
def fetchElem (m : Mode) (s : State) : Option (Instr × State) :=
  match s.stage with
  | .test => none
  | .modeInd => some (modeIndOf m, { s with stage := .countInd })
  | .countInd => some (countIndOf m (tier s.ver) s.count, { s with stage := .data })
  | .data =>
    match s.seg with
    | e :: es => some (e, { s with seg := es })
    | [] => none
  | .gap => if ceil8 s.cur < s.row.total then some (.gap, { s with stage := .pad0 }) else none
  | .pad0 => if s.cur < 8 * s.row.total then some (.pad0, { s with stage := .pad1 }) else none
  | .pad1 => if s.cur < 8 * s.row.total then some (.pad1, { s with stage := .pad0 }) else none

/-- One step of ASSEMBLE. -/
def assembleStep (s : State) : Host.Outcome State Fault Refusal :=
  match s.mode with
  | none => .refused .modeUnassigned
  | some m =>
    match fetchElem m s with
    | some (i, t) => exec i t
    | none =>
      match s.stage with
      | .test => beginBuffer m s
      | .data => .next { s with stage := .gap }
      | _ => .next s.finish

/-- One step of the block (R30, R236); outside BUSY nothing runs (R259). -/
def blockStep (s : State) : Host.Outcome State Fault Refusal :=
  match s.phase with
  | .classify => classifyStep s
  | .select => selectStep s
  | .pack => packStep s
  | .assemble => assembleStep s
  | .idle | .done | .error => .next s

end Sys2Proof.Machine
end

