-- ==== Sys2Proof/Machine/HostPort.lean ====
section
/-! DEFINITION. What a host access does (spec/45_encode_command.md R240; spec/10_state.md R21, R22, R41, R43;
spec/70_reset_and_hazards.md R280, R285, R286), and the job notation of spec/30_encoding.md R108. -/

namespace Sys2Proof.Machine

/-- A write to register 0 is a command (R22); every other register is read only or unassigned, and a write
to it is ignored (R21). -/
def hostWriteReg (n : Nat) (w : CmdWord) (s : State) : Host.Outcome State Fault Refusal :=
  if n = 0 then exec (decodeCommand w) s else .next s

/-- STATUS is always current; registers 2 to 16 are unspecified while BUSY (R286). -/
def hostReadReg (n : Nat) (s : State) : Host.Outcome State Fault Refusal :=
  if s.busy ∧ 2 ≤ n ∧ n ≤ 16 then .next (returnsFree (regWidth n) s) else .next (returns (readReg n s) s)

/-- A TEXT write is ignored while BUSY (R232, R285); addresses are 0 to 8190 (R41). -/
def hostWriteText (a : Nat) (r : Rec) (s : State) : Host.Outcome State Fault Refusal :=
  if s.busy then .next s
  else if a < textMax then .next { s with text := Memory.write s.text a r }
  else .fault (.textAddress a)

/-- A TEXT read returns the stored record in every state (R41, R286). -/
def hostReadText (a : Nat) (s : State) : Host.Outcome State Fault Refusal :=
  if a < textMax then .next (returns (s.textRec a).toNat s) else .fault (.textAddress a)

/-- A CW read while BUSY is unspecified (R286); addresses are 0 to CW_MAX - 1 (R43). -/
def hostReadCw (a : Nat) (s : State) : Host.Outcome State Fault Refusal :=
  if s.cfg.cwMax ≤ a then .fault (.cwAddress a)
  else if s.busy then .next (returnsFree 8 s)
  else .next (returns (s.cwByte a).toNat s)

/-- One host access, already taken off the list of those to come; `wait` and `tick` are dealt with by the
step. -/
def hostAccess (op : HostOp) (s : State) : Host.Outcome State Fault Refusal :=
  match op with
  | .writeReg n w => hostWriteReg n w s
  | .readReg n => hostReadReg n s
  | .writeText a r => hostWriteText a r s
  | .readText a => hostReadText a s
  | .readCw a => hostReadCw a s
  | .reset => .next s.resetBlock
  | .wait => .next (returns (readReg 1 s) s)
  | .tick => .next s

/-- What happens next: with no access to come, or a `tick`, the block steps; a `wait` lets it step until
STATE is not BUSY, and then has read STATUS (R108); any other access happens (R240). -/
def turn (s : State) : Host.Outcome State Fault Refusal :=
  match s.host with
  | [] => blockStep s
  | .tick :: rest => blockStep { s with host := rest }
  | .wait :: rest => if s.busy then blockStep s else hostAccess .wait { s with host := rest }
  | op :: rest => hostAccess op { s with host := rest }

/-- `TEXT "s"`: host writes of the records from address `a` on (R108). -/
def textOps : Nat → List Rec → List HostOp
  | _, [] => []
  | a, r :: rs => .writeText a r :: textOps (a + 1) rs

/-- `TEXT "s"`, `ENCODE.x`, `WAIT` (R108, R282). -/
def jobScript (l : Level) (txt : List Rec) : List HostOp :=
  textOps 0 txt ++ [.writeReg 0 (encodeWord l (BitVec.ofNat 13 txt.length)), .wait]

/-- The cursor, the selected row, SEG and the phase under which the block's next step runs one stream
element alone: a job in ASSEMBLE whose SEG is that element, in an empty buffer of at least the 19 bytes of
row 1-L (log entry 13). -/
def State.withElement (s : State) (i : Instr) : State :=
  { s with
    host := [], phase := .assemble, stage := .data, mode := some .numeric, seg := [i], cur := 0,
    row := { s.row with total := max 19 s.row.total } }

end Sys2Proof.Machine
end

