-- ==== Sys2Proof/Machine/Job.lean ====
section
/-! DEFINITION. The whole-job function `encode` (spec/45_encode_command.md R233), on the closed form of the
buffer (spec/44_assemble.md R212). It is a function of the text, the level and the configuration alone and
shares no step with the sequencer; the statements say the two agree, as R236 requires. -/

namespace Sys2Proof.Machine

/-- The `Ok` record of R233. -/
structure JobResult where
  mode    : Mode
  count   : Nat
  version : Nat
  row     : Row
  req     : Nat
  cw      : List Byte
deriving DecidableEq, Repr

/-- `H`: the `P`-bit header-and-data string (R212). -/
def headerAndData (v : Nat) (m : Mode) (count : Nat) (seg : List Instr) : List Bool :=
  bitsOf 4 m.nibble.toNat ++ bitsOf (countWidth (tier v) m) count ++ encodeAll seg

/-- The pad byte due at byte index `i` when the gap is byte `e` (R209). -/
def padAt (e i : Nat) : Byte := if (i - (e + 1)) % 2 = 0 then 0xEC else 0x11

/-- Global bit `g` of the finished buffer (R212): a bit of `h`, then zeros to the end of the gap byte, then
the pad pattern. -/
def layoutBit (h : List Bool) (g : Nat) : Bool :=
  if g < h.length then h.getD g false
  else if g < 8 * (ceil8 h.length + 1) then false
  else (padAt (ceil8 h.length) (g / 8)).getLsbD (7 - g % 8)

/-- The byte whose most significant bit is the first of eight bits (R12). -/
def byteOfBits (b : Nat → Bool) : Byte := BitVec.ofNat 8 (bitsVal ((List.range 8).map b))

/-- The finished buffer of `t` bytes (R212). -/
def layout (t : Nat) (h : List Bool) : List Byte :=
  (List.range t).map fun i => byteOfBits fun k => layoutBit h (8 * i + k)

/-- `encode(txt, l)` (R233), the three tests in phase order (R254). -/
def encodeJob (cfg : Config) (l : Level) (txt : List Rec) : Except JobError JobResult :=
  let m := classify cfg (txt.map recCp)
  let count := countOf cfg m txt
  match selectVersion cfg l m count with
  | none => .error .noVersionFits
  | some (v, row) =>
    match pack cfg m txt with
    | none => .error .invalidCharacterForMode
    | some seg =>
      let p := requiredBits v m txt
      if 2 ^ countWidth (tier v) m ≤ count ∨ 8 * row.total < p then .error .capacityOverflow
      else
        .ok { mode := m, count := count, version := v, row := row, req := p,
              cw := layout row.total (headerAndData v m count seg) }

/-- The byte view of SEG, the source's "packed byte sequence": `ceil(D/8)` bytes, the unused low bits of the
last one zero (R172). -/
def byteView (seg : List Instr) : List Byte :=
  let h := encodeAll seg
  (List.range (ceil8 h.length)).map fun i => byteOfBits fun k => h.getD (8 * i + k) false

end Sys2Proof.Machine
end

