-- ==== Sys2Proof/Machine/Step.lean ====
section
/-! DEFINITION. One step of the machine, and placing one operation where the next step runs it. -/

namespace Sys2Proof.Machine

/-- One step: the host's next access, or one step of the block (R240, R236). -/
def step (s : State) : Host.Outcome State Fault Refusal := turn s

/-- The state in which the next step runs the operation a table word stands for. A command word is the
host's next access, a write to register 0 (R22). A stream element is never fetched from a word: the block
makes it (R90, R105), so the state is set to a job in ASSEMBLE whose SEG is that element (log entry 13). -/
def State.withFetchWord (s : State) (nbits w : Nat) : State :=
  match decodeTableWord nbits w with
  | none => s
  | some i =>
    if i.slot = .command then { s with host := .writeReg 0 (BitVec.ofNat 16 w) :: s.host } else s.withElement i

end Sys2Proof.Machine
end

