-- ==== Sys2Proof/Safety.lean ====
section
/-! DEFINITION. What counts as a safe state, and the terms the statements use: the well-formed capacity ROM
(spec/42_capacity_rom.md R161 to R164), the invariant of the machine, and what a stream element does to CW. -/

namespace Sys2Proof.Machine

/-! The capacity ROM. -/

/-- A check on every row `v-l`, which must be there. -/
def allRows (cfg : Config) (p : Nat → Level → Row → Bool) : Bool :=
  (List.range nVersions).all fun k =>
    [Level.L, Level.M, Level.Q, Level.H].all fun l => (romRow cfg (k + 1) l).any (p (k + 1) l)

/-- Anchor values of R161: 1-M has `cap_a = 20` and `total_words = 16`, 40-L has `cap_n = 7089`. -/
def romAnchors (cfg : Config) : Bool :=
  (romRow cfg 1 .M).any (fun r => r.capA == 20 && r.total == 16) &&
  (romRow cfg 40 .L).any (fun r => r.capN == 7089)

/-- Self-consistency of R162. -/
def romOrdered (cfg : Config) : Bool :=
  allRows cfg fun _ _ r => r.capB ≤ r.capA && r.capA ≤ r.capN && r.capK ≤ r.capB

/-- Monotonicity of R163. -/
def romMonotone (cfg : Config) : Bool :=
  allRows cfg fun v l r => v == nVersions || (romRow cfg (v + 1) l).any fun r' =>
    [Mode.numeric, Mode.alnum, Mode.byte, Mode.kanji].all fun m => Row.cap r m ≤ Row.cap r' m

/-- Fit of R164: a count up to the capacity fits its indicator, and its data the buffer. -/
def romFits (cfg : Config) : Bool :=
  allRows cfg fun v _ r => [Mode.numeric, Mode.alnum, Mode.byte, Mode.kanji].all fun m =>
    Row.cap r m < 2 ^ countWidth (tier v) m &&
    4 + countWidth (tier v) m + dataBits m (Row.cap r m) (Row.cap r m) ≤ 8 * r.total

/-- A well-formed CAP_ROM: R161 to R164 (R160). -/
def romWellFormed (cfg : Config) : Bool :=
  romAnchors cfg && romOrdered cfg && romMonotone cfg && romFits cfg

/-! The invariant. -/

/-- The job's mode, count, version and row are those of its text (R129, R145). -/
def Selected (s : State) (m : Mode) : Prop :=
  s.mode = some m ∧ m = classify s.cfg (s.jobText.map recCp) ∧ s.count = countOf s.cfg m s.jobText ∧
  selectVersion s.cfg s.lvlR m s.count = some (s.ver, s.row)

/-- Nothing is selected yet (R28, R29, R34). -/
def NotSelected (s : State) : Prop := s.ver = 0 ∧ s.row = Row.zero ∧ s.req = 0

/-- A row is latched, and it is the row of VER at the job's level (R29). -/
def Latched (s : State) : Prop := 1 ≤ s.ver ∧ s.ver ≤ nVersions ∧ romRow s.cfg s.ver s.lvlR = some s.row

/-- Where the cursor stands at each stage of ASSEMBLE (R33, R200, R204 to R210). -/
def CursorAt (s : State) (m : Mode) : Prop :=
  match s.stage with
  | .test => 4 + countWidth (tier s.ver) m + (encodeAll s.seg).length = s.req
  | .modeInd => s.cur = 0 ∧ 4 + countWidth (tier s.ver) m + (encodeAll s.seg).length = s.req
  | .countInd => s.cur = 4 ∧ 4 + countWidth (tier s.ver) m + (encodeAll s.seg).length = s.req
  | .data => s.cur + (encodeAll s.seg).length = s.req
  | .gap => s.cur = s.req
  | .pad0 | .pad1 => s.cur % 8 = 0 ∧ s.req ≤ s.cur ∧ s.cur ≤ 8 * s.row.total

/-- What holds in each phase. -/
def PhaseInv (s : State) : Prop :=
  match s.phase with
  | .idle => ∀ n, readReg n s = 0
  | .classify =>
    s.mode = none ∧ s.count = 0 ∧ NotSelected s ∧
    (s.scanMode, s.scanHalted) = ((s.jobText.take s.idx).map recCp).foldl (classStep s.cfg) (.numeric, false)
  | .select =>
    (∃ m, s.mode = some m ∧ m = classify s.cfg (s.jobText.map recCp) ∧ s.count = countOf s.cfg m s.jobText ∧
      ∀ v r, 1 ≤ v → v < s.vscan → romRow s.cfg v s.lvlR = some r → Row.cap r m < s.count) ∧
    1 ≤ s.vscan ∧ s.vscan ≤ nVersions ∧ NotSelected s
  | .pack =>
    ∃ m, Selected s m ∧ s.req = 0 ∧ pack s.cfg m (s.jobText.take s.idx) = some s.seg ∧
      (groupSize m ∣ s.idx ∨ s.idx = s.lenR)
  | .assemble =>
    ∃ m, Selected s m ∧ s.req = requiredBits s.ver m s.jobText ∧
      (∃ written, pack s.cfg m s.jobText = some (written ++ s.seg)) ∧ CursorAt s m ∧
      (s.stage ≠ .test →
        s.count < 2 ^ countWidth (tier s.ver) m ∧ s.req ≤ 8 * s.row.total ∧
        ∀ a, a < s.row.total → (Memory.read s.cw a).isSome)
  | .done =>
    s.mode.isSome ∧ Latched s ∧ s.req ≤ 8 * s.row.total ∧ s.cur = 8 * s.row.total ∧
    ∀ a, a < s.row.total → (Memory.read s.cw a).isSome
  | .error =>
    s.mode.isSome ∧
    match s.err with
    | none => False
    | some .noVersionFits => NotSelected s
    | some .invalidCharacterForMode => Latched s ∧ s.req = 0
    | some .capacityOverflow => Latched s

/-- The invariant every step keeps. -/
structure Inv (s : State) : Prop where
  /-- the ROM holds 160 rows that fit their word (R45, R95) -/
  cfg_wf : s.cfg.wf = true
  /-- TEXT is in canonical form and holds addresses 0 to 8190 only (R41) -/
  text_wf : Memory.wf s.text
  text_in : ∀ c ∈ s.text, c.1 < textMax
  /-- CW is in canonical form and holds addresses below CW_MAX only (R43) -/
  cw_wf : Memory.wf s.cw
  cw_in : ∀ c ∈ s.cw, c.1 < s.cfg.cwMax
  /-- ERR is set exactly in ERROR (R23) -/
  err_iff : s.err.isSome ↔ s.phase = .error
  /-- the registers stay within their widths (R21, R25, R26, R28, R34) -/
  len_le : s.lenR ≤ textMax
  count_le : s.count ≤ 4 * textMax
  ver_le : s.ver ≤ nVersions
  row_fits : s.row.fits = true
  req_le : s.req ≤ 4 + 16 + 32 * textMax
  /-- IDX never exceeds LEN_R in the two phases that use it (R31) -/
  idx_le : s.phase = .classify ∨ s.phase = .pack → s.idx ≤ s.lenR
  /-- what the phase says -/
  phase_inv : PhaseInv s

/-! What a stream element does. -/

/-- CW of `t` is CW of `s` with the `n` bits of `v` ORed in at global bits `[g, g+n)`, most significant bit
first, and no other bit changed (R66). -/
def OrsBits (s t : State) (g n v : Nat) : Prop :=
  ∀ h, t.cwBit h = if g ≤ h ∧ h < g + n then (s.cwBit h || v.testBit (n - 1 - (h - g))) else s.cwBit h

/-- `i` completes: it ORs the `n` bits of `v` into CW at the cursor, moves the cursor past them, and changes
nothing else. -/
def Appends (i : Instr) (s : State) (n v : Nat) : Prop :=
  ∃ t, exec i s = .next t ∧ t = { s with cw := t.cw, cur := s.cur + n } ∧ OrsBits s t s.cur n v

/-- The bits are inside the buffer (R66's precondition). -/
def Fits (s : State) (n : Nat) : Prop := s.cur + n ≤ 8 * s.row.total

/-- `i` completes: it starts a job at level `l` with `n` characters (R230): the command's fields latched,
ERR, MODE, COUNT, VER, REQ and the nine row registers 0, PHASE = CLASSIFY with IDX 0; TEXT, CW and
everything else unchanged. -/
def StartsJob (i : Instr) (s : State) (l : Level) (n : Nat) : Prop :=
  exec i s = .next { s with
    lvlR := l, lenR := n, err := none, mode := none, count := 0, ver := 0, req := 0, row := Row.zero,
    phase := .classify, idx := 0, scanMode := .numeric, scanHalted := false }

/-- The registers a host reads after an error, and the job's inputs (R257). -/
def ErrorResult (t : State) (l : Level) (txt : List Rec) (e : JobError) : Prop :=
  let m := classify t.cfg (txt.map recCp)
  let count := countOf t.cfg m txt
  t.phase = .error ∧ t.err = some e ∧ t.lvlR = l ∧ t.lenR = txt.length ∧ t.mode = some m ∧ t.count = count ∧
  match e with
  | .noVersionFits => t.ver = 0 ∧ t.row = Row.zero ∧ t.req = 0
  | .invalidCharacterForMode => selectVersion t.cfg l m count = some (t.ver, t.row) ∧ t.req = 0
  | .capacityOverflow =>
    selectVersion t.cfg l m count = some (t.ver, t.row) ∧ t.req = requiredBits t.ver m txt

/-- The registers and CW after DONE (R234). -/
def DoneResult (t : State) (l : Level) (txt : List Rec) (r : JobResult) : Prop :=
  t.phase = .done ∧ t.err = none ∧ t.lvlR = l ∧ t.lenR = txt.length ∧ t.mode = some r.mode ∧
  t.count = r.count ∧ t.ver = r.version ∧ t.row = r.row ∧ t.req = r.req ∧
  (List.range t.row.total).map t.cwByte = r.cw

/-- The state agrees with the whole-job function on this text and level (R233 to R235). -/
def EndsAs (t : State) (l : Level) (txt : List Rec) : Prop :=
  match encodeJob t.cfg l txt with
  | .ok r => DoneResult t l txt r
  | .error e => ErrorResult t l txt e

end Sys2Proof.Machine
end

