-- ==== Sys2Proof/Certificates/Slice0/Obligations.lean ====
section
/-! DEFINITION. The statements. Each docstring names the rule of spec/ it formalises; a statement that
rests on a choice of the model says so and names the log entry (notes/assumptions). -/

open Sys2Proof Sys2Proof.Machine

/-! Reset and the invariant. -/

/-- R280: reset, in any state, puts the block in IDLE with ERR 0, `done` 0 and every host-visible register 0;
the configuration, the ROM with it, is unaffected (R48, R281). -/
def Obligations.ResetEndsAnyJobAndZeroesRegisters : Prop :=
  ∀ (s : State) (rest : List HostOp), s.host = .reset :: rest →
    ∃ t, step s = .next t ∧ t.phase = .idle ∧ t.err = none ∧ t.doneOut = false ∧
      (∀ n, readReg n t = 0) ∧ t.cfg = s.cfg ∧ t.host = rest

/-- R48, U1, U2 as the model holds them (log entry 6): after reset every TEXT record and every CW byte is a
free value. -/
def Obligations.ResetLeavesTextAndCwFree : Prop :=
  ∀ (s : State) (rest : List HostOp), s.host = .reset :: rest →
    ∃ t, step s = .next t ∧
      (∀ a, t.textRec a = Config.freeText (s.textEpoch + 1) a) ∧
      (∀ a, t.cwByte a = Config.freeCw (s.cwEpoch + 1) a)

/-- The invariant holds right after reset. Of the default configuration, the model's in State.reset (log
entry 1), it needs that CAP_ROM has 160 rows that fit the row word. -/
def Obligations.InvariantHoldsAtReset : Prop := Inv State.reset

/-- The invariant is kept by every step, from every state that meets it. -/
def Obligations.EveryStepKeepsTheInvariant : Prop :=
  ∀ s t : State, Inv s → step s = .next t → Inv t

/-- R9: the configuration cannot be written by the host or by the block. -/
def Obligations.ConfigurationIsNeverWritten : Prop :=
  ∀ s t : State, step s = .next t → t.cfg = s.cfg

/-- The invariant of R23, kept by every step on its own: ERR is not 0 exactly when STATE is ERROR. -/
def Obligations.ErrIsSetExactlyInError : Prop :=
  ∀ s t : State, (errCode s.err ≠ 0 ↔ stateCode s.phase = 3) → step s = .next t →
    (errCode t.err ≠ 0 ↔ stateCode t.phase = 3)

/-- R21, R25, R26, R28, R34: the widths of registers 0 to 16, and every register reads a value of its width. -/
def Obligations.RegistersStayWithinTheirWidths : Prop :=
  (List.range 17).map regWidth = [16, 4, 2, 13, 15, 4, 6, 12, 13, 13, 12, 11, 8, 8, 8, 8, 18] ∧
  ∀ (s : State) (n : Nat), Inv s → readReg n s < 2 ^ regWidth n

/-- From a state that meets the invariant the only stop is a host access outside TEXT or CW (log entry 10). -/
def Obligations.OnlyABadHostAddressStops : Prop :=
  ∀ s : State, Inv s →
    (∀ f, step s = .fault f →
      (∃ a rest r, f = .textAddress a ∧ textMax ≤ a ∧ s.host = .writeText a r :: rest) ∨
      (∃ a rest, f = .textAddress a ∧ textMax ≤ a ∧ s.host = .readText a :: rest) ∨
      (∃ a rest, f = .cwAddress a ∧ s.cfg.cwMax ≤ a ∧ s.host = .readCw a :: rest)) ∧
    (∀ r, step s ≠ .refused r)

/-- The rows of R236 that change PHASE, reset among them, as they hold in every state: the condition, and the
registers the action writes. In ASSEMBLE the test is one step and the end another (log entry 4). -/
def phaseChange (s t : State) : Prop :=
  match s.phase, t.phase with
  | _, .idle => ∃ rest, s.host = .reset :: rest
  | .idle, .classify | .done, .classify | .error, .classify =>
    ∃ w rest, s.host = .writeReg 0 w :: rest ∧ w.toNat % 2 = 1 ∧ t.idx = 0
  | .classify, .select => (s.lenR ≤ s.idx ∨ s.scanHalted = true) ∧
      t.mode = some s.scanMode ∧ t.count = countOf s.cfg s.scanMode s.jobText ∧ t.vscan = 1
  | .select, .pack => ∃ m row, s.mode = some m ∧ romRow s.cfg s.vscan s.lvlR = some row ∧
      s.count ≤ Row.cap row m ∧ t.ver = s.vscan ∧ t.row = row ∧ t.idx = 0
  | .select, .error => ∃ m row, s.mode = some m ∧ romRow s.cfg s.vscan s.lvlR = some row ∧
      Row.cap row m < s.count ∧ nVersions ≤ s.vscan ∧ t.err = some .noVersionFits
  | .pack, .error => ∃ m, s.mode = some m ∧ s.idx < s.lenR ∧
      (∃ r ∈ s.nextRecs (groupSize m), legal s.cfg m r = false) ∧ t.err = some .invalidCharacterForMode
  | .pack, .assemble => s.lenR ≤ s.idx ∧ ∃ m, s.mode = some m ∧ t.req = requiredBits s.ver m s.jobText
  | .assemble, .error => t.err = some .capacityOverflow ∧ (s.stage = .test →
      ∃ m, s.mode = some m ∧ (2 ^ countWidth (tier s.ver) m ≤ s.count ∨ 8 * s.row.total < s.req))
  | .assemble, .done => s.stage ≠ .test ∧ t.cur = 8 * t.row.total
  | _, _ => False

/-- What the conditions of R236 say besides in a state that meets the invariant: IDX at LEN_R and VSCAN at 40
exactly, MODE the classifier's result on the whole text, ASSEMBLE to ERROR by the overflow test alone, and to
DONE only where that test passed (R203). -/
def phaseChangeOfInv (s t : State) : Prop :=
  match s.phase, t.phase with
  | .classify, .select => (s.idx = s.lenR ∨ s.scanHalted = true) ∧
      t.mode = some (classify s.cfg (s.jobText.map recCp))
  | .select, .error => s.vscan = nVersions
  | .pack, .assemble => s.idx = s.lenR
  | .assemble, .error => s.stage = .test ∧
      ∃ m, s.mode = some m ∧ (2 ^ countWidth (tier s.ver) m ≤ s.count ∨ 8 * s.row.total < s.req)
  | .assemble, .done =>
    ∃ m, s.mode = some m ∧ s.count < 2 ^ countWidth (tier s.ver) m ∧ s.req ≤ 8 * s.row.total
  | _, _ => True

/-- R236: every change of PHASE is one of the table's, made under its condition: to IDLE by reset alone, to
CLASSIFY by an ENCODE command alone. -/
def Obligations.OnlyTheListedPhaseChanges : Prop :=
  ∀ s t : State, step s = .next t → t.phase ≠ s.phase → phaseChange s t ∧ (Inv s → phaseChangeOfInv s t)

/-! Encodings. -/

/-- Words written out from the spec's encodings decode to the operations they stand for (R91, R97 to R103). -/
def Obligations.SampleWordsDecode : Prop :=
  decodeCommand 0x005B = .encodeM 11 ∧ decodeCommand 0x0029 = .encodeL 5 ∧
  decodeCommand 0x002D = .encodeQ 5 ∧ decodeCommand 0x0007 = .encodeH 0 ∧ decodeCommand 0x0000 = .nop 0 ∧
  decodeAt .modeInd 0b0010 = .ok .miAlnum ∧ decodeAt (.countInd .alnum .t1) 0b000001011 = .ok (.cciAT1 11) ∧
  decodeAt .num3 0b0001111011 = .ok (.num3 1 2 3) ∧ decodeAt .num2 0b0101101 = .ok (.num2 4 5) ∧
  decodeAt .num1 0b1000 = .ok (.num1 8) ∧ decodeAt .an2 0b01100001011 = .ok (.an2 17 14) ∧
  decodeAt .an1 0b001101 = .ok (.an1 13) ∧ decodeAt .byte8 0b01101000 = .ok (.byte8 0x68) ∧
  decodeAt .kanji13 0b0110110011111 = .ok (.kanji13 0x0D9F) ∧ decodeAt .gap 0b00000000 = .ok .gap ∧
  decodeAt .pad0 0b11101100 = .ok .pad0 ∧ decodeAt .pad1 0b00010001 = .ok .pad1

/-- R91: every 16-bit word is exactly one of the five forms; GO = 0 is NOP whatever the other bits are, GO = 1
selects the form by LVL and carries LEN as it stands. -/
def Obligations.EveryCommandWordIsOneForm : Prop :=
  ∀ w : CmdWord,
    (w.toNat % 2 = 0 → decodeCommand w = .nop (BitVec.ofNat 15 (w.toNat / 2))) ∧
    (w.toNat % 2 = 1 →
      (w.toNat / 2 % 4 = 0 → decodeCommand w = .encodeL (BitVec.ofNat 13 (w.toNat / 8))) ∧
      (w.toNat / 2 % 4 = 1 → decodeCommand w = .encodeM (BitVec.ofNat 13 (w.toNat / 8))) ∧
      (w.toNat / 2 % 4 = 2 → decodeCommand w = .encodeQ (BitVec.ofNat 13 (w.toNat / 8))) ∧
      (w.toNat / 2 % 4 = 3 → decodeCommand w = .encodeH (BitVec.ofNat 13 (w.toNat / 8))))

/-- Decoding the bits of any well-formed operation, at its slot and with anything after it, gives it back. -/
def Obligations.DecodingAnEncodingGivesItBack : Prop :=
  ∀ (i : Instr) (rest : List Bool), i.wf = true → decodeBits i.slot (encode i ++ rest) = .ok (i, rest)

/-- What decodes at a slot is well formed, stands in that slot, and encodes to the same bits. -/
def Obligations.WhatDecodesIsItsEncoding : Prop :=
  ∀ (sl : Slot) (v : Nat) (i : Instr), decodeAt sl v = .ok i → i.slot = sl ∧ i.wf = true ∧ i.value = v

/-- The operand values a data element carries, in order (R99 to R102). -/
def carriedValues : Instr → List Nat
  | .num3 d0 d1 d2 => [d0, d1, d2]
  | .num2 d0 d1 => [d0, d1]
  | .num1 d0 => [d0]
  | .an2 a0 a1 => [a0, a1]
  | .an1 a0 => [a0]
  | .byte8 b => [b.toNat]
  | .kanji13 k => [k.toNat]
  | _ => []

/-- What a mode packs of one character: the digit's value, the alphabet value, the raw bytes in order, or the
KANJI_MAP value (R173, R178, R181, R183). -/
def charValues (cfg : Config) (m : Mode) (r : Rec) : List Nat :=
  match m with
  | .numeric => [recCp r - 0x30]
  | .alnum => (alpha (recCp r)).toList
  | .byte => (recRaw r).map BitVec.toNat
  | .kanji => ((kanjiMap cfg (recCp r)).map BitVec.toNat).toList

/-- R107: a reader that knows the mode and how many characters (in Byte mode: raw bytes) are to come reads
back exactly the elements the packer emitted, whatever follows them; and these carry the values of the text's
characters, each once and in text order (R172). -/
def Obligations.PackedSegmentsReadBack : Prop :=
  ∀ (cfg : Config) (m : Mode) (txt : List Rec) (seg : List Instr) (rest : List Bool),
    pack cfg m txt = some seg →
    (let left := if m = .byte then byteCount txt else txt.length
     decodeGroups m left left (encodeAll seg ++ rest) = .ok (seg, rest)) ∧
    seg.flatMap carriedValues = txt.flatMap (charValues cfg m)

/-- R95: the nine fields stand at their bit positions in the 93-bit row word, and read back. -/
def Obligations.RowWordHoldsTheNineFields : Prop :=
  ∀ r : Row, r.fits = true →
    (rowWord r).toNat = r.capN + 2 ^ 13 * r.capA + 2 ^ 26 * r.capB + 2 ^ 38 * r.capK + 2 ^ 49 * r.total +
      2 ^ 61 * r.g1b + 2 ^ 69 * r.g1w + 2 ^ 77 * r.g2b + 2 ^ 85 * r.g2w ∧
    rowOfWord (rowWord r) = r

/-- R42: the fields of a record; raw bytes from `rawlen` on are ignored. -/
def Obligations.RecordFieldsReadBack : Prop :=
  ∀ (raw : BitVec 32) (rlm1 : BitVec 2) (cp : BitVec 21),
    recCp (mkRec raw rlm1 cp) = cp.toNat ∧
    recRawLen (mkRec raw rlm1 cp) = rlm1.toNat + 1 ∧
    recRaw (mkRec raw rlm1 cp) =
      (List.range (rlm1.toNat + 1)).map fun k => BitVec.ofNat 8 (raw.toNat / 256 ^ k)

/-! Commands and the step. -/

/-- R230: when STATE is not BUSY each of the four forms starts a job at its level with LEN characters; when
STATE is BUSY none has an effect. -/
def Obligations.EncodeCommandsStartAJob : Prop :=
  ∀ (s : State) (n : BitVec 13),
    (s.busy = false →
      StartsJob (.encodeL n) s .L n.toNat ∧ StartsJob (.encodeM n) s .M n.toNat ∧
      StartsJob (.encodeQ n) s .Q n.toNat ∧ StartsJob (.encodeH n) s .H n.toNat) ∧
    (s.busy = true →
      exec (.encodeL n) s = .next s ∧ exec (.encodeM n) s = .next s ∧
      exec (.encodeQ n) s = .next s ∧ exec (.encodeH n) s = .next s)

/-- R231: NOP has no effect in any state, whatever its other fifteen bits. -/
def Obligations.NopChangesNothing : Prop :=
  ∀ (x : BitVec 15) (s : State), exec (.nop x) s = .next s

/-- R232: a write to register 0 or to TEXT while BUSY changes nothing and is not remembered. -/
def Obligations.WritesWhileBusyAreIgnored : Prop :=
  ∀ (s : State) (rest : List HostOp), s.busy = true →
    (∀ w, s.host = .writeReg 0 w :: rest → step s = .next { s with host := rest }) ∧
    (∀ a r, s.host = .writeText a r :: rest → step s = .next { s with host := rest })

/-- A step on a write of `w` to register 0 is the execution of the command `w` decodes to (R22). -/
def Obligations.StepRunsTheDecodedCommand : Prop :=
  ∀ (s : State) (w : CmdWord) (rest : List HostOp), s.host = .writeReg 0 w :: rest →
    step s = exec (decodeCommand w) { s with host := rest }

/-- A step of ASSEMBLE runs the element that stands at the cursor: the mode indicator of MODE, then the count
indicator of MODE, VER and COUNT, then the elements of SEG in order (R200, R204 to R206; log entry 4). The
block steps when the host has no access to come, and on a `tick` (log entry 3). -/
def Obligations.StepRunsTheElementAtTheCursor : Prop :=
  ∀ (s : State) (m : Mode), s.phase = .assemble → s.mode = some m → s.host = [] →
    (s.stage = .modeInd → step s = exec (modeIndOf m) { s with stage := .countInd }) ∧
    (s.stage = .countInd → step s = exec (countIndOf m (tier s.ver) s.count) { s with stage := .data }) ∧
    (∀ e es, s.stage = .data → s.seg = e :: es → step s = exec e { s with seg := es }) ∧
    (s.stage = .gap → ceil8 s.cur < s.row.total → step s = exec .gap { s with stage := .pad0 }) ∧
    (s.stage = .pad0 → s.cur < 8 * s.row.total → step s = exec .pad0 { s with stage := .pad1 }) ∧
    (s.stage = .pad1 → s.cur < 8 * s.row.total → step s = exec .pad1 { s with stage := .pad0 }) ∧
    ∀ rest, step { s with host := .tick :: rest } = blockStep { s with host := rest }

/-- R33: while ASSEMBLE writes, and as it finishes, the cursor never moves back and never passes the end of the
buffer. -/
def Obligations.CursorOnlyAdvances : Prop :=
  ∀ s t : State, Inv s → s.phase = .assemble → s.stage ≠ .test → step s = .next t →
    t.phase = .assemble ∨ t.phase = .done → s.cur ≤ t.cur ∧ t.cur ≤ 8 * t.row.total

/-! Stream elements. -/

/-- R204: the mode indicators append `0001`, `0010`, `0100`, `1000`; at the start of a zeroed buffer CW[0]
becomes the nibble in its high half and CUR becomes 4. -/
def Obligations.ModeIndicatorsWriteTheirNibble : Prop :=
  ∀ s : State, Fits s 4 →
    (Appends .miNumeric s 4 0b0001 ∧ Appends .miAlnum s 4 0b0010 ∧ Appends .miByte s 4 0b0100 ∧
      Appends .miKanji s 4 0b1000) ∧
    (s.cur = 0 → s.cwByte 0 = 0 → ∀ m : Mode, ∃ t, exec (modeIndOf m) s = .next t ∧ t.cur = 4 ∧
      t.cwByte 0 = BitVec.ofNat 8 (m.nibble.toNat * 16))

/-- R98: the twelve count indicators append the count, zero-padded on the left to their width, which the mode
and the version choose (R141, R142). -/
def Obligations.CountIndicatorsWriteTheCount : Prop :=
  ([Mode.numeric, .alnum, .byte, .kanji].map (countWidth .t1) = [10, 9, 8, 8] ∧
    [Mode.numeric, .alnum, .byte, .kanji].map (countWidth .t2) = [12, 11, 16, 10] ∧
    [Mode.numeric, .alnum, .byte, .kanji].map (countWidth .t3) = [14, 13, 16, 12] ∧
    ∀ v, 1 ≤ v → v ≤ 40 →
      (v ≤ 9 → tier v = .t1) ∧ (10 ≤ v → v ≤ 26 → tier v = .t2) ∧ (27 ≤ v → tier v = .t3)) ∧
  ∀ s : State,
    (∀ c, Fits s 10 → Appends (.cciNT1 c) s 10 c.toNat) ∧ (∀ c, Fits s 12 → Appends (.cciNT2 c) s 12 c.toNat) ∧
    (∀ c, Fits s 14 → Appends (.cciNT3 c) s 14 c.toNat) ∧ (∀ c, Fits s 9 → Appends (.cciAT1 c) s 9 c.toNat) ∧
    (∀ c, Fits s 11 → Appends (.cciAT2 c) s 11 c.toNat) ∧ (∀ c, Fits s 13 → Appends (.cciAT3 c) s 13 c.toNat) ∧
    (∀ c, Fits s 8 → Appends (.cciBT1 c) s 8 c.toNat) ∧ (∀ c, Fits s 16 → Appends (.cciBT2 c) s 16 c.toNat) ∧
    (∀ c, Fits s 16 → Appends (.cciBT3 c) s 16 c.toNat) ∧ (∀ c, Fits s 8 → Appends (.cciKT1 c) s 8 c.toNat) ∧
    (∀ c, Fits s 10 → Appends (.cciKT2 c) s 10 c.toNat) ∧ (∀ c, Fits s 12 → Appends (.cciKT3 c) s 12 c.toNat) ∧
    (∀ m v count, count < 2 ^ countWidth (tier v) m → Fits s (countWidth (tier v) m) →
      Appends (countIndOf m (tier v) count) s (countWidth (tier v) m) count)

/-- R174 to R176: the numeric groups append the value of their digits in 10, 7 and 4 bits. -/
def Obligations.NumericGroupsWriteTheirValue : Prop :=
  ∀ (s : State) (d0 d1 d2 : Nat), d0 < 10 → d1 < 10 → d2 < 10 →
    (Fits s 10 → Appends (.num3 d0 d1 d2) s 10 (100 * d0 + 10 * d1 + d2)) ∧
    (Fits s 7 → Appends (.num2 d0 d1) s 7 (10 * d0 + d1)) ∧
    (Fits s 4 → Appends (.num1 d0) s 4 d0) ∧
    100 * d0 + 10 * d1 + d2 ≤ 999 ∧ 10 * d0 + d1 ≤ 99

/-- R179, R180: a pair appends 45 times the first value plus the second in 11 bits, a single its value in 6. -/
def Obligations.AlphanumericGroupsWriteTheirValue : Prop :=
  ∀ (s : State) (a0 a1 : Nat), a0 < 45 → a1 < 45 →
    (Fits s 11 → Appends (.an2 a0 a1) s 11 (45 * a0 + a1)) ∧
    (Fits s 6 → Appends (.an1 a0) s 6 a0) ∧ 45 * a0 + a1 ≤ 2024

/-- R182, R185: a raw byte is appended as it is in 8 bits, a Kanji value in 13. -/
def Obligations.ByteAndKanjiElementsWriteTheirValue : Prop :=
  ∀ s : State,
    (∀ b, Fits s 8 → Appends (.byte8 b) s 8 b.toNat) ∧ (∀ k, Fits s 13 → Appends (.kanji13 k) s 13 k.toNat)

/-- R208: the byte at index `E = ceil(P/8)` is skipped and not written; nothing but the cursor changes, and
with no byte left nothing is raised. Where the cursor stands in between is the model's (log entry 4). -/
def Obligations.GapSkipsOneByteUnwritten : Prop :=
  ∀ s : State,
    exec .gap s = .next { s with cur := min (8 * (ceil8 s.cur + 1)) (8 * s.row.total) }

/-- R209: a pad byte is written whole at the next byte position, whatever stood there; no other byte and no
register changes; with no position left it is simply absent (R211). -/
def Obligations.PadBytesFillThePosition : Prop :=
  ∀ s : State,
    (ceil8 s.cur < s.row.total →
      (∃ t, exec .pad0 s = .next t ∧ t = { s with cw := t.cw, cur := 8 * (ceil8 s.cur + 1) } ∧
        t.cwByte (ceil8 s.cur) = 0xEC ∧ ∀ a, a ≠ ceil8 s.cur → t.cwByte a = s.cwByte a) ∧
      (∃ t, exec .pad1 s = .next t ∧ t = { s with cw := t.cw, cur := 8 * (ceil8 s.cur + 1) } ∧
        t.cwByte (ceil8 s.cur) = 0x11 ∧ ∀ a, a ≠ ceil8 s.cur → t.cwByte a = s.cwByte a)) ∧
    (s.row.total ≤ ceil8 s.cur → exec .pad0 s = .next s ∧ exec .pad1 s = .next s)

/-- The model's reading of R255 for one element (log entry 8): where its bits would pass the end of the
buffer, the step is the raise of CapacityOverflow and nothing else: no register but STATUS and no TEXT record
changes, and of CW nothing is known any more, none of the element's bits either (log entry 6). -/
def Obligations.ElementsPastTheEndRaiseOverflow : Prop :=
  ∀ (s : State) (i : Instr), i.slot ≠ .command → i ≠ .gap → i ≠ .pad0 → i ≠ .pad1 → ¬ Fits s i.width →
    ∃ t, exec i s = .next t ∧ t = s.raise .capacityOverflow ∧ t.phase = .error ∧ t.err = some .capacityOverflow ∧
      (∀ a, t.textRec a = s.textRec a) ∧ (∀ a, t.cwByte a = Config.freeCw (s.cwEpoch + 1) a) ∧
      ∀ n, n ≠ 1 → readReg n t = readReg n s

/-- R66: APPEND ORs the value's bits, most significant first, into `[g, g+n)`, changes no bit outside, and
returns `g + n`; with its worked example. -/
def Obligations.AppendOrsTheValueBits : Prop :=
  (∀ (s : State) (n v : Nat), 1 ≤ n → n ≤ 16 → v < 2 ^ n → Fits s n →
    ∃ t, appendValue n v s = .next t ∧ t = { s with cw := t.cw, cur := s.cur + n } ∧ OrsBits s t s.cur n v) ∧
  append 0 [(0, 0x20), (1, 0x00)] 4 9 11 = [(0, 0x20), (1, 0x58)]

/-- R67: the byte-wise form writes the same bits. -/
def Obligations.BytewiseAppendIsTheSame : Prop :=
  ∀ (epoch : Nat) (m : Memory Byte) (g n v : Nat), 1 ≤ n → n ≤ 16 → v < 2 ^ n →
    appendBytewise epoch 3 m g n v = append epoch m g n v

/-! CLASSIFY. -/

/-- R125: the per-character step, and the scan of R120 as its fold over the text. -/
def Obligations.FoldedStepsAreTheScan : Prop :=
  ∀ (cfg : Config) (m : Mode) (c : Nat) (cps : List Nat),
    classStep cfg (m, true) c = (m, true) ∧
    (isDigit c = true → classStep cfg (m, false) c = (m, false)) ∧
    (isDigit c = false → (isUpper c || isSym9 c) = true → classStep cfg (m, false) c = (.alnum, false)) ∧
    (isDigit c = false → (isUpper c || isSym9 c) = false → isCJK cfg c = true →
      classStep cfg (m, false) c = (.kanji, false)) ∧
    (isDigit c = false → (isUpper c || isSym9 c) = false → isCJK cfg c = false →
      classStep cfg (m, false) c = (.byte, true)) ∧
    (cps.foldl (classStep cfg) (.numeric, false)).1 = classify cfg cps

/-- A code point that halts the scan (R127). -/
def byteTrigger (cfg : Config) (c : Nat) : Bool := !isDigit c && !isUpper c && !isSym9 c && !isCJK cfg c

/-- R127: a Byte trigger ends the scan, whatever follows it, and the result is Byte exactly when some code
point is one, wherever it stands. -/
def Obligations.ByteExactlyWithATrigger : Prop :=
  ∀ (cfg : Config) (cps : List Nat),
    (classify cfg cps = .byte ↔ ∃ c ∈ cps, byteTrigger cfg c = true) ∧
    ∀ c, byteTrigger cfg c = true → ∀ pre rest : List Nat,
      (∀ x ∈ pre, byteTrigger cfg x = false) →
      (pre ++ c :: rest).foldl (classStep cfg) (.numeric, false) = (.byte, true)

/-- R128: without a Byte trigger the last non-digit character alone decides. -/
def Obligations.LastNonDigitDecides : Prop :=
  ∀ (cfg : Config) (pre digits : List Nat) (c : Nat),
    (∀ x ∈ pre ++ [c], byteTrigger cfg x = false) → isDigit c = false → (∀ d ∈ digits, isDigit d = true) →
    classify cfg (pre ++ [c] ++ digits) = if isUpper c || isSym9 c then .alnum else .kanji

/-- R121 to R124: the four character classes. R130 (a), (b): the result is Numeric exactly when every
character is a digit, so for the empty text. -/
def Obligations.NumericExactlyForDigits : Prop :=
  (∀ (cfg : Config) (c : Nat),
    (isDigit c = true ↔ 0x30 ≤ c ∧ c ≤ 0x39) ∧ (isUpper c = true ↔ 0x41 ≤ c ∧ c ≤ 0x5A) ∧
    (isSym9 c = true ↔ c = 0x24 ∨ c = 0x25 ∨ c = 0x2A ∨ c = 0x2B ∨ c = 0x2D ∨ c = 0x2E ∨ c = 0x2F ∨ c = 0x3A ∨
      c = 0x20) ∧
    (isCJK cfg c = true ↔ ∃ r ∈ cfg.cjk, r.1 ≤ c ∧ c ≤ r.2)) ∧
  ∀ (cfg : Config) (cps : List Nat), classify cfg cps = .numeric ↔ ∀ c ∈ cps, isDigit c = true

/-- R120, R129: at the end of the scan MODE is the classifier's result on the whole text and COUNT its count,
raw bytes exactly in Byte mode with BYTE_COUNT_UNIT = BYTES; then SELECT starts at version 1 (R236). -/
def Obligations.ClassifyWritesModeAndCount : Prop :=
  ∀ s : State, Inv s → s.phase = .classify → s.host = [] → (s.idx = s.lenR ∨ s.scanHalted = true) →
    step s = .next { s with
      mode := some (classify s.cfg (s.jobText.map recCp)),
      count := if classify s.cfg (s.jobText.map recCp) = .byte ∧ s.cfg.unit = .bytes
        then (s.jobText.map recRawLen).sum else s.lenR,
      vscan := 1, phase := .select }

/-! SELECT and the ROM. -/

/-- R145, R148: the version selected is in 1..40, its row fits the count, and no smaller version of the same
level does. -/
def Obligations.SelectionIsTheFirstFit : Prop :=
  ∀ (cfg : Config) (l : Level) (m : Mode) (count v : Nat) (row : Row),
    selectVersion cfg l m count = some (v, row) →
    1 ≤ v ∧ v ≤ 40 ∧ romRow cfg v l = some row ∧ count ≤ Row.cap row m ∧
    ∀ v' r', 1 ≤ v' → v' < v → romRow cfg v' l = some r' → Row.cap r' m < count

/-- R146: NoVersionFits exactly when none of the forty rows of the level fits; with the row of a version and
level (R45, R144) and the capacity field of a mode (R143). -/
def Obligations.NoVersionFitsExactlyWhenNoneDoes : Prop :=
  (∀ r : Row, Row.cap r .numeric = r.capN ∧ Row.cap r .alnum = r.capA ∧ Row.cap r .byte = r.capB ∧
    Row.cap r .kanji = r.capK) ∧
  (∀ (cfg : Config) (v : Nat), romRow cfg v .L = cfg.rom[(v - 1) * 4]? ∧ romRow cfg v .M = cfg.rom[(v - 1) * 4 + 1]? ∧
    romRow cfg v .Q = cfg.rom[(v - 1) * 4 + 2]? ∧ romRow cfg v .H = cfg.rom[(v - 1) * 4 + 3]?) ∧
  ∀ (cfg : Config) (l : Level) (m : Mode) (count : Nat), cfg.wf = true →
    (selectVersion cfg l m count = none ↔
      ∀ v r, 1 ≤ v → v ≤ 40 → romRow cfg v l = some r → Row.cap r m < count)

/-- The default table, which the spec gives from general knowledge (R165), is well formed (R161 to R164), fits
the row word (R95), sums its block groups to total_words (R167), and makes CW_MAX 2956 (R8). -/
def Obligations.DefaultRomIsWellFormed : Prop :=
  defaultConfig.wf = true ∧ romWellFormed defaultConfig = true ∧ defaultConfig.cwMax = 2956 ∧
  allRows defaultConfig (fun _ _ r => r.g1b * r.g1w + r.g2b * r.g2w == r.total) = true

/-! PACK. -/

/-- R171: a packed segment has `D` bits, a number that depends on the mode and the lengths alone. -/
def Obligations.PackedLengthIsD : Prop :=
  ∀ (cfg : Config) (txt : List Rec),
    (∀ seg, pack cfg .numeric txt = some seg → (encodeAll seg).length =
      10 * (txt.length / 3) + [0, 4, 7].getD (txt.length % 3) 0) ∧
    (∀ seg, pack cfg .alnum txt = some seg → (encodeAll seg).length =
      11 * (txt.length / 2) + 6 * (txt.length % 2)) ∧
    (∀ seg, pack cfg .byte txt = some seg → (encodeAll seg).length = 8 * (txt.map recRawLen).sum) ∧
    (∀ seg, pack cfg .kanji txt = some seg → (encodeAll seg).length = 13 * txt.length) ∧
    ∀ m, dataBits m txt.length (byteCount txt) = match m with
      | .numeric => 10 * (txt.length / 3) + [0, 4, 7].getD (txt.length % 3) 0
      | .alnum => 11 * (txt.length / 2) + 6 * (txt.length % 2)
      | .byte => 8 * (txt.map recRawLen).sum
      | .kanji => 13 * txt.length

/-- R177: the 45 values of the alphabet; no other code point has one, and no two have the same. -/
def Obligations.AlphabetHasFortyFiveValues : Prop :=
  (∀ k, k < 10 → alpha (0x30 + k) = some k) ∧ (∀ k, k < 26 → alpha (0x41 + k) = some (10 + k)) ∧
  alpha 0x20 = some 36 ∧ alpha 0x24 = some 37 ∧ alpha 0x25 = some 38 ∧ alpha 0x2A = some 39 ∧
  alpha 0x2B = some 40 ∧ alpha 0x2D = some 41 ∧ alpha 0x2E = some 42 ∧ alpha 0x2F = some 43 ∧
  alpha 0x3A = some 44 ∧
  (∀ c, (alpha c).isSome = true ↔ isDigit c = true ∨ isUpper c = true ∨ isSym9 c = true) ∧
  ∀ c c' v, alpha c = some v → alpha c' = some v → c = c' ∧ v < 45

/-- R187: a handler raises exactly when some character is outside the mode's legal set; with the four legal
sets (R186). -/
def Obligations.PackFailsExactlyOnAnIllegalCharacter : Prop :=
  (∀ (cfg : Config) (r : Rec),
    (legal cfg .numeric r = true ↔ isDigit (recCp r) = true) ∧
    (legal cfg .alnum r = true ↔ ∃ v, alpha (recCp r) = some v) ∧ legal cfg .byte r = true ∧
    (legal cfg .kanji r = true ↔ ∃ k, kanjiMap cfg (recCp r) = some k)) ∧
  ∀ (cfg : Config) (m : Mode) (txt : List Rec), pack cfg m txt = none ↔ ∃ r ∈ txt, legal cfg m r = false

/-- R188: with the mode the classifier gives, packing never fails in Numeric and Byte mode; in Alphanumeric
mode exactly on a character that is neither digit, `A`..`Z` nor symbol, which then is in CJK_SET; in Kanji
mode exactly on a character KANJI_MAP does not know. -/
def Obligations.WhenAnInvalidCharacterIsReached : Prop :=
  ∀ (cfg : Config) (txt : List Rec),
    let cps := txt.map recCp
    (classify cfg cps = .numeric → pack cfg .numeric txt ≠ none) ∧
    (classify cfg cps = .byte → pack cfg .byte txt ≠ none) ∧
    (classify cfg cps = .alnum →
      (pack cfg .alnum txt = none ↔
        ∃ c ∈ cps, isDigit c = false ∧ isUpper c = false ∧ isSym9 c = false ∧ isCJK cfg c = true)) ∧
    (classify cfg cps = .kanji → (pack cfg .kanji txt = none ↔ ∃ c ∈ cps, kanjiMap cfg c = none))

/-- R172: the byte view is what APPENDing the elements from global bit 0 into a zeroed buffer of `ceil(D/8)`
bytes gives; it holds the bits of SEG in order, and the unused low bits of its last byte are zero. -/
def Obligations.ByteViewIsTheSegmentPadded : Prop :=
  ∀ (seg : List Instr) (epoch : Nat),
    (byteView seg).length = ceil8 (encodeAll seg).length ∧
    (∀ g, g < 8 * (byteView seg).length →
      ((byteView seg).getD (g / 8) 0).getLsbD (7 - g % 8) = (encodeAll seg).getD g false) ∧
    (List.range (ceil8 (encodeAll seg).length)).map (cwGet epoch (seg.foldl
      (fun bg i => (append epoch bg.1 bg.2 i.width i.value, bg.2 + i.width))
      (zeroFill (ceil8 (encodeAll seg).length) [], 0)).1) = byteView seg

/-! Errors. -/

/-- R256, R257: a raise writes ERR and puts PHASE in ERROR, so STATUS reads the error's code (R251) and ERROR
(R23), and `done` is 1; no other register and no TEXT record changes, and nothing is saved; CW is unspecified from there on, which the model
holds as a new free value in every byte (log entry 6). R258: in every state `done` is 1 exactly in DONE and
ERROR. -/
def Obligations.RaiseWritesStatusAndForgetsCw : Prop :=
  (∀ (s : State) (e : JobError),
    readReg 1 (s.raise e) = (match e with
      | .invalidCharacterForMode => 0x7 | .noVersionFits => 0xB | .capacityOverflow => 0xF) ∧
    (s.raise e).statusWord = errCode (some e) ++ (3 : BitVec 2) ∧ (s.raise e).doneOut = true ∧
    (∀ n, n ≠ 1 → readReg n (s.raise e) = readReg n s) ∧
    (∀ a, (s.raise e).textRec a = s.textRec a) ∧
    (∀ a, (s.raise e).cwByte a = Config.freeCw (s.cwEpoch + 1) a) ∧
    (s.raise e).idx = s.idx ∧ (s.raise e).vscan = s.vscan ∧ (s.raise e).cur = s.cur) ∧
  ∀ s : State, s.doneOut = true ↔ s.phase = .done ∨ s.phase = .error

/-- R259: ERROR is left only by a new ENCODE command, which clears ERR, or by reset. -/
def Obligations.ErrorIsLeftOnlyByCommandOrReset : Prop :=
  ∀ s t : State, s.phase = .error → step s = .next t →
    t.phase = .error ∨
    (∃ w rest, s.host = .writeReg 0 w :: rest ∧ w.toNat % 2 = 1 ∧ t.phase = .classify ∧ t.err = none) ∨
    (∃ rest, s.host = .reset :: rest ∧ t.phase = .idle)

/-! Memories and host accesses. -/

/-- R65, R71 (a), R75: the records TEXT reads as, the unwritten ones among them, change only by a host write
made while the block is not BUSY, at its one address, and by reset. -/
def Obligations.TextChangesOnlyByTheHost : Prop :=
  ∀ s t : State, step s = .next t →
    (∀ a, t.textRec a = s.textRec a) ∨
    (∃ a r rest, s.host = .writeText a r :: rest ∧ s.busy = false ∧ a < textMax ∧
      t.textRec a = r ∧ ∀ b, b ≠ a → t.textRec b = s.textRec b) ∨
    (∃ rest, s.host = .reset :: rest)

/-- R43, R289: only ASSEMBLE writes CW, and it never writes a location from TOTAL on; an error or a reset
leaves CW unspecified. -/
def Obligations.CwBeyondTotalIsNotWritten : Prop :=
  ∀ s t : State, step s = .next t → t.phase ≠ .error ∨ s.phase = .error →
    (∀ rest, s.host ≠ .reset :: rest) →
    (s.phase ≠ .assemble → ∀ a, t.cwByte a = s.cwByte a) ∧
    ∀ a, s.row.total ≤ a → t.cwByte a = s.cwByte a

/-- R287: after DONE every register and CW keep the job's result until the next ENCODE command or reset. -/
def Obligations.ResultLivesUntilTheNextJob : Prop :=
  ∀ s t : State, s.phase = .done → step s = .next t →
    (∀ w rest, s.host = .writeReg 0 w :: rest → w.toNat % 2 = 0) → (∀ rest, s.host ≠ .reset :: rest) →
    t = { s with host := t.host, dout := t.dout, freeReads := t.freeReads, text := t.text }

/-- R21, R286: STATUS, CMD and unassigned numbers read their value in every state, every register does when the
block is not BUSY; a write to any register but 0 is ignored; and what each number reads (R22 to R29, R34, with
the codes of R23, R24, R27 and R251; log entry 21 on the block-group registers). -/
def Obligations.RegisterReadsAndIgnoredWrites : Prop :=
  (∀ (s : State) (n : Nat) (rest : List HostOp),
    (s.host = .readReg n :: rest → (s.busy = false ∨ n ≤ 1 ∨ 17 ≤ n) →
      step s = .next { s with host := rest, dout := readReg n s }) ∧
    (∀ w, s.host = .writeReg n w :: rest → n ≠ 0 → step s = .next { s with host := rest }) ∧
    (17 ≤ n ∨ n = 0 → readReg n s = 0)) ∧
  ∀ s : State,
    readReg 1 s =
      4 * (match s.err with
        | none => 0 | some .invalidCharacterForMode => 1 | some .noVersionFits => 2 | some .capacityOverflow => 3) +
      (match s.phase with
        | .idle => 0 | .classify | .select | .pack | .assemble => 1 | .done => 2 | .error => 3) ∧
    readReg 2 s = (match s.lvlR with | .L => 0 | .M => 1 | .Q => 2 | .H => 3) ∧
    readReg 3 s = s.lenR ∧ readReg 4 s = s.count ∧
    readReg 5 s = (match s.mode with
      | none => 0b0000 | some .numeric => 0b0001 | some .alnum => 0b0010 | some .byte => 0b0100
      | some .kanji => 0b1000) ∧
    readReg 6 s = s.ver ∧ readReg 7 s = s.row.total ∧ readReg 8 s = s.row.capN ∧ readReg 9 s = s.row.capA ∧
    readReg 10 s = s.row.capB ∧ readReg 11 s = s.row.capK ∧ readReg 12 s = s.row.g1b ∧
    readReg 13 s = s.row.g1w ∧ readReg 14 s = s.row.g2b ∧ readReg 15 s = s.row.g2w ∧ readReg 16 s = s.req

/-- R41, R43, R286: TEXT reads return the stored record in every state, CW reads the stored byte when the block
is not BUSY, at the addresses the spaces have. -/
def Obligations.MemoryReadsReturnTheStoredUnit : Prop :=
  ∀ (s : State) (a : Nat) (rest : List HostOp),
    (s.host = .readText a :: rest → a < textMax →
      step s = .next { s with host := rest, dout := (s.textRec a).toNat }) ∧
    (s.host = .readCw a :: rest → a < s.cfg.cwMax → s.busy = false →
      step s = .next { s with host := rest, dout := (s.cwByte a).toNat })

/-- U4 as the model holds it (log entry 7): a read of registers 2 to 16 or of CW while BUSY returns some value
of its width, the one of R21 under every CAP_ROM (log entry 20), and changes nothing the block holds. -/
def Obligations.ReadsWhileBusyAreFree : Prop :=
  ∀ (s : State) (rest : List HostOp), s.busy = true →
    (∀ n, 2 ≤ n → n ≤ 16 → s.host = .readReg n :: rest → ∃ v, v < 2 ^ regWidth n ∧
      step s = .next { s with host := rest, dout := v, freeReads := s.freeReads + 1 }) ∧
    (∀ a, a < s.cfg.cwMax → s.host = .readCw a :: rest → ∃ v, v < 2 ^ 8 ∧
      step s = .next { s with host := rest, dout := v, freeReads := s.freeReads + 1 })

/-- The model's stop for a location the spaces do not have (R41, R43; log entry 10). -/
def Obligations.AddressesOutsideTheSpacesFault : Prop :=
  ∀ (s : State) (a : Nat) (rest : List HostOp),
    (s.host = .readText a :: rest → textMax ≤ a → step s = .fault (.textAddress a)) ∧
    (∀ r, s.host = .writeText a r :: rest → s.busy = false → textMax ≤ a → step s = .fault (.textAddress a)) ∧
    (s.host = .readCw a :: rest → s.cfg.cwMax ≤ a → step s = .fault (.cwAddress a))

/-- R41, R75: a TEXT write while not BUSY stores the record at its address and leaves every other record, and
everything else, as it was. -/
def Obligations.TextWritesStoreTheRecord : Prop :=
  ∀ (s : State) (a : Nat) (r : Rec) (rest : List HostOp),
    s.host = .writeText a r :: rest → s.busy = false → a < textMax →
    ∃ t, step s = .next t ∧ t = { s with host := rest, text := t.text } ∧ t.textRec a = r ∧
      ∀ b, b ≠ a → t.textRec b = s.textRec b

/-! Whole jobs. -/

/-- R212, R209: the buffer of a job that ends DONE, of exactly TOTAL bytes, bit by bit: the mode nibble, COUNT in
C bits, the bits of the segment, `P` together; zeros to the end of the gap byte `E`; then the bytes after it
alternate 0xEC, 0x11. -/
def Obligations.GapAndPadPositions : Prop :=
  ∀ (cfg : Config) (l : Level) (txt : List Rec) (r : JobResult), encodeJob cfg l txt = .ok r →
    let bit := fun g => (r.cw.getD (g / 8) 0).getLsbD (7 - g % 8)
    let c := countWidth (tier r.version) r.mode
    r.cw.length = r.row.total ∧ ceil8 r.req ≤ r.row.total ∧
    (∀ g, g < 4 → bit g = (modeNibble (some r.mode)).getLsbD (3 - g)) ∧
    (∀ k, k < c → bit (4 + k) = r.count.testBit (c - 1 - k)) ∧
    (∃ seg, pack cfg r.mode txt = some seg ∧ r.req = 4 + c + (encodeAll seg).length ∧
      ∀ k, k < (encodeAll seg).length → bit (4 + c + k) = (encodeAll seg).getD k false) ∧
    (∀ g, r.req ≤ g → g < 8 * (ceil8 r.req + 1) → g < 8 * r.row.total → bit g = false) ∧
    (ceil8 r.req < r.row.total → r.cw[ceil8 r.req]? = some 0x00) ∧
    (∀ k, ceil8 r.req + 1 + 2 * k < r.row.total → r.cw[ceil8 r.req + 1 + 2 * k]? = some 0xEC) ∧
    (∀ k, ceil8 r.req + 2 + 2 * k < r.row.total → r.cw[ceil8 r.req + 2 + 2 * k]? = some 0x11)

/-- R203: with a well-formed CAP_ROM, CapacityOverflow happens only in Byte mode with BYTE_COUNT_UNIT = CHARS and
a character of more than one raw byte. -/
def Obligations.OverflowOnlyFromWideCharacters : Prop :=
  ∀ (cfg : Config) (l : Level) (txt : List Rec), romWellFormed cfg = true →
    encodeJob cfg l txt = .error .capacityOverflow →
    classify cfg (txt.map recCp) = .byte ∧ cfg.unit = .chars ∧ ∃ r ∈ txt, 1 < recRawLen r

/-- R233 to R237, R257: from any state that is not BUSY, whatever came before, loading a text, commanding
ENCODE.x and waiting ends, within a bound, in the state the whole-job function gives: DONE with its record and
buffer, or ERROR with its code and the registers of R257. -/
def Obligations.JobsEndAsTheFunctionSays : Prop :=
  ∀ (s : State) (l : Level) (txt : List Rec) (rest : List HostOp),
    s.cfg.wf = true → s.busy = false → txt.length ≤ textMax → s.host = jobScript l txt ++ rest →
    ∃ k t, k ≤ 7 * txt.length + s.cfg.cwMax + 50 ∧ Host.Core.run core k s = .next t ∧
      t.host = rest ∧ t.cfg = s.cfg ∧ t.jobText = txt ∧ EndsAs t l txt

/-- R239: the same text and level under the same configuration give the same STATUS, the same registers and, on
DONE, the same CW[0 .. TOTAL-1], whatever the two machines did before. -/
def Obligations.SameJobSameResult : Prop :=
  ∀ (s₁ s₂ : State) (l : Level) (txt : List Rec) (rest₁ rest₂ : List HostOp),
    s₁.cfg = s₂.cfg → s₁.cfg.wf = true → txt.length ≤ textMax →
    s₁.busy = false → s₁.host = jobScript l txt ++ rest₁ →
    s₂.busy = false → s₂.host = jobScript l txt ++ rest₂ →
    ∃ k₁ k₂ t₁ t₂, Host.Core.run core k₁ s₁ = .next t₁ ∧ Host.Core.run core k₂ s₂ = .next t₂ ∧
      t₁.host = rest₁ ∧ t₂.host = rest₂ ∧ t₁.busy = false ∧
      (∀ n, readReg n t₁ = readReg n t₂) ∧
      (t₁.phase = .done → ∀ a, a < t₁.row.total → t₁.cwByte a = t₂.cwByte a)

/-- R237: from any BUSY state that meets the invariant the job ends within a bound, with no host access. -/
def Obligations.EveryJobEnds : Prop :=
  ∀ s : State, Inv s → s.busy = true → s.host = [] →
    ∃ k t, k ≤ 6 * s.lenR + s.cfg.cwMax + 50 ∧ Host.Core.run core k s = .next t ∧ t.busy = false
end

