-- ==== Sys2Proof/Laws/Memory.lean ====
section
/-! SUPPORT. The laws of the two memories: read after write, the canonical form, and the zero fill. -/

namespace Sys2Proof.Machine

variable {α : Type}

@[simp] theorem Memory.read_nil (a : Nat) : Memory.read ([] : Memory α) a = none := rfl

theorem Memory.read_cons (b : Nat) (u : α) (m : Memory α) (a : Nat) :
    Memory.read ((b, u) :: m) a = if b = a then some u else Memory.read m a := rfl

@[simp] theorem Memory.read_write_same (m : Memory α) (a : Nat) (v : α) :
    Memory.read (Memory.write m a v) a = some v := by
  induction m with
  | nil => simp [Memory.write, Memory.read]
  | cons c m ih =>
    obtain ⟨b, u⟩ := c
    simp only [Memory.write]
    split
    · simp [Memory.read]
    · split
      · simp [Memory.read]
      · simp [Memory.read, *]

theorem Memory.read_write_other (m : Memory α) {a b : Nat} (v : α) (h : b ≠ a) :
    Memory.read (Memory.write m a v) b = Memory.read m b := by
  induction m with
  | nil => simp [Memory.write, Memory.read, Ne.symm h]
  | cons c m ih =>
    obtain ⟨k, u⟩ := c
    simp only [Memory.write]
    split
    · simp [Memory.read, Ne.symm h]
    · split
      · rename_i hk; subst hk; simp [Memory.read, Ne.symm h]
      · simp [Memory.read, ih]

theorem Memory.read_write (m : Memory α) (a b : Nat) (v : α) :
    Memory.read (Memory.write m a v) b = if b = a then some v else Memory.read m b := by
  split
  · subst_vars; simp
  · exact Memory.read_write_other m v ‹_›

/-- Writing an address twice is writing it once. -/
@[simp] theorem Memory.write_write (m : Memory α) (a : Nat) (u v : α) :
    Memory.write (Memory.write m a u) a v = Memory.write m a v := by
  induction m with
  | nil => simp [Memory.write]
  | cons c m ih =>
    obtain ⟨k, w⟩ := c
    by_cases h1 : a < k
    · simp [Memory.write, h1]
    · by_cases h2 : k = a
      · simp [Memory.write, h2]
      · simp [Memory.write, h1, h2, ih]

theorem Memory.mem_write {m : Memory α} {a : Nat} {v : α} {c : Nat × α} (h : c ∈ Memory.write m a v) :
    c = (a, v) ∨ c ∈ m := by
  induction m with
  | nil => simpa [Memory.write] using h
  | cons d m ih =>
    obtain ⟨k, u⟩ := d
    simp only [Memory.write] at h
    split at h
    · simpa using h
    · split at h
      · simp only [List.mem_cons] at h ⊢; tauto
      · simp only [List.mem_cons] at h ⊢; tauto

/-- A write keeps the canonical form. -/
theorem Memory.write_wf {m : Memory α} (h : Memory.wf m) (a : Nat) (v : α) : Memory.wf (Memory.write m a v) := by
  induction m with
  | nil => simp [Memory.write, Memory.wf]
  | cons d m ih =>
    obtain ⟨k, u⟩ := d
    simp only [Memory.wf, List.map_cons, List.pairwise_cons] at h ih
    simp only [Memory.write]
    split
    · rename_i hlt
      simp only [Memory.wf, List.map_cons, List.pairwise_cons, List.mem_cons]
      refine ⟨?_, h⟩
      rintro x (rfl | hx)
      · exact hlt
      · exact hlt.trans (h.1 x hx)
    · split
      · rename_i heq; subst heq
        simpa [Memory.wf] using h
      · simp only [Memory.wf, List.map_cons, List.pairwise_cons]
        refine ⟨fun x hx => ?_, ih h.2⟩
        obtain ⟨c, hc, rfl⟩ := List.mem_map.1 hx
        rcases Memory.mem_write hc with rfl | hc
        · simp; omega
        · exact h.1 _ (List.mem_map_of_mem hc)

theorem Memory.write_in {m : Memory α} {n : Nat} (h : ∀ c ∈ m, c.1 < n) {a : Nat} (ha : a < n) (v : α) :
    ∀ c ∈ Memory.write m a v, c.1 < n := by
  intro c hc
  rcases Memory.mem_write hc with rfl | hc
  · exact ha
  · exact h c hc

/-! The zero fill (R201). -/

theorem Memory.read_append (m m' : Memory α) (a : Nat) :
    Memory.read (m ++ m') a = (Memory.read m a).or (Memory.read m' a) := by
  induction m with
  | nil => simp [Memory.read]
  | cons c m ih =>
    obtain ⟨k, u⟩ := c
    simp only [List.cons_append, Memory.read]
    split <;> simp [ih]

theorem Memory.read_from (m : Memory α) (t a : Nat) :
    Memory.read (Memory.from m t) a = if t ≤ a then Memory.read m a else none := by
  induction m with
  | nil => simp [Memory.from, Memory.read]
  | cons c m ih =>
    obtain ⟨k, u⟩ := c
    simp only [Memory.from, List.filter_cons, Memory.read] at ih ⊢
    split <;> rename_i hk <;> simp only [decide_eq_true_eq] at hk
    · simp only [Memory.read, ih]
      split
      · subst_vars; simp [hk]
      · rfl
    · rw [ih]
      split
      · split
        · omega
        · rfl
      · rfl

theorem read_zeros (t a : Nat) :
    Memory.read ((List.range t).map fun a => (a, (0 : Byte))) a = if a < t then some 0 else none := by
  induction t with
  | zero => simp
  | succ t ih =>
    rw [List.range_succ, List.map_append, Memory.read_append, ih]
    simp only [List.map_cons, List.map_nil, Memory.read]
    by_cases h : a < t
    · simp [h, Nat.lt_succ_of_lt h]
    · by_cases h2 : t = a
      · subst h2; simp
      · have : ¬ a < t + 1 := by omega
        simp [h, h2, this]

/-- What the zero fill leaves: zeros below `t`, the old contents from `t` on. -/
theorem read_zeroFill (t : Nat) (m : Memory Byte) (a : Nat) :
    Memory.read (zeroFill t m) a = if a < t then some 0 else Memory.read m a := by
  rw [zeroFill, Memory.read_append, read_zeros, Memory.read_from]
  by_cases h : a < t
  · simp [h]
  · simp [h, Nat.not_lt.1 h]

theorem zeroFill_wf {m : Memory Byte} (h : Memory.wf m) (t : Nat) : Memory.wf (zeroFill t m) := by
  simp only [Memory.wf, zeroFill, List.map_append, List.map_map]
  rw [List.pairwise_append]
  refine ⟨?_, ?_, ?_⟩
  · have : (Prod.fst ∘ fun a : Nat => (a, (0 : Byte))) = id := rfl
    rw [this, List.map_id]
    exact List.pairwise_lt_range
  · exact List.Pairwise.sublist ((List.filter_sublist).map Prod.fst) h
  · intro x hx y hy
    simp only [List.mem_map, List.mem_range, Memory.from, List.mem_filter, decide_eq_true_eq] at hx hy
    obtain ⟨x', hx', rfl⟩ := hx
    obtain ⟨y', ⟨-, hy'⟩, rfl⟩ := hy
    simp only [Function.comp_apply]
    omega

theorem zeroFill_in {m : Memory Byte} {n t : Nat} (h : ∀ c ∈ m, c.1 < n) (ht : t ≤ n) :
    ∀ c ∈ zeroFill t m, c.1 < n := by
  intro c hc
  simp only [zeroFill, List.mem_append, List.mem_map, List.mem_range, Memory.from, List.mem_filter] at hc
  rcases hc with ⟨a, ha, rfl⟩ | ⟨hc, -⟩
  · exact lt_of_lt_of_le ha ht
  · exact h c hc

end Sys2Proof.Machine
end

