-- ==== Sys2Proof/Laws/Bits.lean ====
section
/-! SUPPORT. Bit strings (R10, R11), and what the store primitive APPEND does to each bit of CW (R66). -/

namespace Sys2Proof

@[simp] theorem bitsOf_length (n v : Nat) : (bitsOf n v).length = n := by simp [bitsOf]

theorem bitsOf_getElem (n v k : Nat) (h : k < (bitsOf n v).length) :
    (bitsOf n v)[k] = v.testBit (n - 1 - k) := by
  simp [bitsOf]

theorem bitsOf_getD (n v k : Nat) (h : k < n) : (bitsOf n v).getD k false = v.testBit (n - 1 - k) := by
  rw [List.getD_eq_getElem _ _ (by simpa using h), bitsOf_getElem]

theorem bitsOf_succ (n v : Nat) : bitsOf (n + 1) v = bitsOf n (v / 2) ++ [v.testBit 0] := by
  apply List.ext_getElem
  · simp
  · intro k h1 h2
    rw [bitsOf_getElem]
    by_cases hk : k < n
    · rw [List.getElem_append_left (by simpa using hk), bitsOf_getElem, Nat.testBit_div_two]
      congr 1; omega
    · have : k = n := by simp at h1; omega
      subst this
      rw [List.getElem_append_right (by simp)]
      simp

theorem bitsVal_append_singleton (bs : List Bool) (b : Bool) : bitsVal (bs ++ [b]) = 2 * bitsVal bs + b.toNat := by
  simp [bitsVal]

/-- Reading back the bits of a value gives its low `n` bits. -/
theorem bitsVal_bitsOf (n v : Nat) : bitsVal (bitsOf n v) = v % 2 ^ n := by
  induction n generalizing v with
  | zero => simp [bitsOf, bitsVal, Nat.mod_one]
  | succ n ih =>
    rw [bitsOf_succ, bitsVal_append_singleton, ih, Nat.testBit_zero, Nat.pow_succ', Nat.mod_mul]
    rcases Nat.mod_two_eq_zero_or_one v with h | h
    · simp [h]
    · simp [h]; omega

theorem bitsVal_bitsOf_of_lt {n v : Nat} (h : v < 2 ^ n) : bitsVal (bitsOf n v) = v := by
  rw [bitsVal_bitsOf, Nat.mod_eq_of_lt h]

theorem bitsVal_lt (bs : List Bool) : bitsVal bs < 2 ^ bs.length := by
  induction bs using List.reverseRecOn with
  | nil => simp [bitsVal]
  | append_singleton bs b ih =>
    rw [bitsVal_append_singleton, List.length_append, List.length_singleton, Nat.pow_succ]
    have := Bool.toNat_le b
    omega

theorem bitsOf_bitsVal (bs : List Bool) : bitsOf bs.length (bitsVal bs) = bs := by
  induction bs using List.reverseRecOn with
  | nil => simp [bitsOf]
  | append_singleton bs b ih =>
    rw [List.length_append, List.length_singleton, bitsOf_succ, bitsVal_append_singleton]
    have h1 : (2 * bitsVal bs + b.toNat) / 2 = bitsVal bs := by
      cases b
      · simp
      · simp; omega
    rw [h1, ih, Nat.testBit_zero]
    cases b <;> simp

namespace Machine

/-- Global bit `g` of a CW memory (R12). -/
abbrev memBit (epoch : Nat) (m : Memory Byte) (g : Nat) : Bool := (cwGet epoch m (g / 8)).getLsbD (7 - g % 8)

theorem cwGet_write (epoch : Nat) (m : Memory Byte) (a b : Nat) (v : Byte) :
    cwGet epoch (Memory.write m a v) b = if b = a then v else cwGet epoch m b := by
  unfold cwGet
  rw [Memory.read_write]
  split <;> simp

/-- The one place a bit lands in a byte. -/
theorem shifted_bit (b : Bool) (k j : Nat) (hk : k < 8) (hj : j < 8) :
    (BitVec.ofNat 8 b.toNat <<< (7 - k)).getLsbD (7 - j) = (b && decide (j = k)) := by
  rw [BitVec.getLsbD_shiftLeft]
  cases b
  · simp
  · by_cases h : j = k
    · subst h; simp; omega
    · simp only [h, decide_false, Bool.and_false]
      by_cases h2 : 7 - j < 7 - k
      · simp [h2]
      · have : 7 - j - (7 - k) ≠ 0 := by omega
        have h1 : Nat.testBit 1 (7 - j - (7 - k)) = false := by
          rw [← Bool.not_eq_true, Nat.testBit_one_eq_true_iff_self_eq_zero]
          exact this
        simp [BitVec.getLsbD_ofNat, h1]

/-- ORing in one bit changes that bit alone. -/
theorem memBit_orBit (epoch : Nat) (m : Memory Byte) (g h : Nat) (b : Bool) :
    memBit epoch (Memory.write m (g / 8) (cwGet epoch m (g / 8) ||| (BitVec.ofNat 8 b.toNat <<< (7 - g % 8)))) h
      = if h = g then (memBit epoch m h || b) else memBit epoch m h := by
  unfold memBit
  rw [cwGet_write]
  by_cases hb : h / 8 = g / 8
  · rw [if_pos hb, BitVec.getLsbD_or, shifted_bit b (g % 8) (h % 8) (by omega) (by omega), hb]
    by_cases hg : h = g
    · subst hg; simp
    · have : h % 8 ≠ g % 8 := by omega
      simp [this, hg]
  · rw [if_neg hb, if_neg (by rintro rfl; exact hb rfl)]

/-- The loop of R66, bit by bit. -/
theorem memBit_orBits (epoch : Nat) (bs : List Bool) (g : Nat) (m : Memory Byte) (h : Nat) :
    memBit epoch (orBits epoch bs g m) h =
      if g ≤ h ∧ h < g + bs.length then (memBit epoch m h || bs.getD (h - g) false) else memBit epoch m h := by
  induction bs generalizing g m with
  | nil => simp [orBits]
  | cons b bs ih =>
    rw [orBits, ih, memBit_orBit]
    by_cases h1 : h = g
    · subst h1; simp
    · by_cases h2 : g + 1 ≤ h ∧ h < g + 1 + bs.length
      · have h3 : g ≤ h ∧ h < g + (b :: bs).length := by simp; omega
        have h4 : h - g = (h - (g + 1)) + 1 := by omega
        rw [if_pos h2, if_pos h3, if_neg h1, h4]
        simp
      · have h3 : ¬ (g ≤ h ∧ h < g + (b :: bs).length) := by simp; omega
        rw [if_neg h2, if_neg h3, if_neg h1]

/-- `APPEND` ORs the bits of the value into `[g, g+n)` and changes no other bit (R66). -/
theorem memBit_append (epoch : Nat) (m : Memory Byte) (g n v h : Nat) :
    memBit epoch (append epoch m g n v) h =
      if g ≤ h ∧ h < g + n then (memBit epoch m h || v.testBit (n - 1 - (h - g))) else memBit epoch m h := by
  rw [append, memBit_orBits, bitsOf_length]
  split
  · rw [bitsOf_getD _ _ _ (by omega)]
  · rfl

/-- APPEND touches no byte outside the bytes that hold `[g, g+n)`. -/
theorem read_orBits_other (epoch : Nat) (bs : List Bool) (g : Nat) (m : Memory Byte) {a : Nat}
    (h : a < g / 8 ∨ g + bs.length ≤ 8 * a) : Memory.read (orBits epoch bs g m) a = Memory.read m a := by
  induction bs generalizing g m with
  | nil => rfl
  | cons b bs ih =>
    simp only [List.length_cons] at h
    rw [orBits, ih _ _ (by omega), Memory.read_write_other _ _ (by omega)]

theorem read_orBits_isSome (epoch : Nat) (bs : List Bool) (g : Nat) (m : Memory Byte) {a : Nat}
    (h : (Memory.read m a).isSome) : (Memory.read (orBits epoch bs g m) a).isSome := by
  induction bs generalizing g m with
  | nil => exact h
  | cons b bs ih =>
    rw [orBits]
    refine ih _ _ ?_
    rw [Memory.read_write]
    split <;> simp [h]

theorem orBits_wf (epoch : Nat) (bs : List Bool) (g : Nat) {m : Memory Byte} (h : Memory.wf m) :
    Memory.wf (orBits epoch bs g m) := by
  induction bs generalizing g m with
  | nil => exact h
  | cons b bs ih => exact ih _ (Memory.write_wf h _ _)

theorem orBits_in (epoch : Nat) (bs : List Bool) (g : Nat) {m : Memory Byte} {n : Nat}
    (h : ∀ c ∈ m, c.1 < n) (hg : g + bs.length ≤ 8 * n) : ∀ c ∈ orBits epoch bs g m, c.1 < n := by
  induction bs generalizing g m with
  | nil => exact h
  | cons b bs ih =>
    simp only [List.length_cons] at hg
    exact ih _ (Memory.write_in h (by omega) _) (by omega)

theorem append_append (epoch : Nat) (bs bs' : List Bool) (g : Nat) (m : Memory Byte) :
    orBits epoch (bs ++ bs') g m = orBits epoch bs' (g + bs.length) (orBits epoch bs g m) := by
  induction bs generalizing g m with
  | nil => simp [orBits]
  | cons b bs ih => simp only [List.cons_append, orBits, List.length_cons, ih]; congr 1; omega

theorem State.cwBit_eq (s : State) (g : Nat) : s.cwBit g = memBit s.cwEpoch s.cw g := rfl

/-- A byte is its eight bits. -/
theorem byte_ext {x y : Byte} (h : ∀ k, k < 8 → x.getLsbD (7 - k) = y.getLsbD (7 - k)) : x = y := by
  apply BitVec.eq_of_getLsbD_eq
  intro i hi
  have := h (7 - i) (by omega)
  rwa [show 7 - (7 - i) = i by omega] at this

/-- The byte at an address is determined by its global bits. -/
theorem cwGet_ext {e e' : Nat} {m m' : Memory Byte} {a : Nat}
    (h : ∀ k, k < 8 → memBit e m (8 * a + k) = memBit e' m' (8 * a + k)) : cwGet e m a = cwGet e' m' a := by
  apply byte_ext
  intro k hk
  have := h k hk
  simpa [memBit, show (8 * a + k) / 8 = a by omega, show (8 * a + k) % 8 = k by omega] using this

end Machine

end Sys2Proof
end

