-- ==== Sys2Proof/Laws/Encoding.lean ====
section
/-! SUPPORT. The lengths of encodings, the fields of a command word, and reading a list of elements back one by
one (spec/30_encoding.md R91, R107). -/

namespace Sys2Proof

theorem toNat_append {n m : Nat} (x : BitVec n) (y : BitVec m) : (x ++ y).toNat = x.toNat * 2 ^ m + y.toNat := by
  rw [BitVec.toNat_append, ← Nat.shiftLeft_add_eq_or_of_lt y.isLt, Nat.shiftLeft_eq]

@[simp] theorem encode_length (i : Instr) : (encode i).length = i.width := by simp [encode]

@[simp] theorem encodeAll_nil : encodeAll [] = [] := rfl

theorem encodeAll_cons (i : Instr) (is : List Instr) : encodeAll (i :: is) = encode i ++ encodeAll is := by
  simp [encodeAll]

theorem encodeAll_append (a b : List Instr) : encodeAll (a ++ b) = encodeAll a ++ encodeAll b := by
  simp [encodeAll]

theorem encodeAll_length_cons (i : Instr) (is : List Instr) :
    (encodeAll (i :: is)).length = i.width + (encodeAll is).length := by
  simp [encodeAll_cons]

/-! The fields of a command word (R91, R108). -/

@[simp] theorem cmdGo_encodeWord (l : Level) (n : BitVec 13) : cmdGo (encodeWord l n) = true := by
  simp only [cmdGo, encodeWord, BitVec.getLsbD_append]; rfl

@[simp] theorem cmdLvl_encodeWord (l : Level) (n : BitVec 13) : cmdLvl (encodeWord l n) = l.code := by
  apply BitVec.eq_of_getLsbD_eq
  intro i hi
  have h1 : ¬ (1 + i < 1) := by omega
  simp only [cmdLvl, encodeWord, BitVec.getLsbD_extractLsb', BitVec.getLsbD_append, hi, decide_true, Bool.true_and,
    if_neg h1, Nat.add_sub_cancel_left, if_true]

@[simp] theorem cmdLen_encodeWord (l : Level) (n : BitVec 13) : cmdLen (encodeWord l n) = n := by
  apply BitVec.eq_of_getLsbD_eq
  intro i hi
  have h1 : ¬ (3 + i < 1) := by omega
  have h2 : ¬ (3 + i - 1 < 2) := by omega
  have h3 : 3 + i - 1 - 2 = i := by omega
  simp only [cmdLen, encodeWord, BitVec.getLsbD_extractLsb', BitVec.getLsbD_append, hi, decide_true, Bool.true_and,
    if_neg h1, if_neg h2, h3]

@[simp] theorem Level.ofCode_code (l : Level) : Level.ofCode l.code = l := by cases l <;> rfl

@[simp] theorem Level.code_ofCode (c : BitVec 2) : (Level.ofCode c).code = c := by revert c; decide

theorem Level.code_lt (l : Level) : l.code.toNat < 4 := by cases l <;> decide

@[simp] theorem Mode.ofNibble_nibble (m : Mode) : Mode.ofNibble m.nibble = some m := by cases m <;> rfl

/-- GO, LVL and LEN as numbers. -/
theorem cmdGo_eq (w : CmdWord) : cmdGo w = decide (w.toNat % 2 = 1) := by
  simp [cmdGo, BitVec.getLsbD, Nat.testBit_zero]

theorem cmdLvl_eq (w : CmdWord) : cmdLvl w = BitVec.ofNat 2 (w.toNat / 2) := by
  simp [cmdLvl, BitVec.extractLsb']; rfl

theorem cmdLen_eq (w : CmdWord) : cmdLen w = BitVec.ofNat 13 (w.toNat / 8) := by
  simp [cmdLen, BitVec.extractLsb', Nat.shiftRight_eq_div_pow]

/-! The bits of a byte made of bits, and a bit string as a value. -/

theorem bitsVal_testBit (bs : List Bool) (k : Nat) (hk : k < bs.length) :
    (bitsVal bs).testBit (bs.length - 1 - k) = bs.getD k false := by
  rw [← bitsOf_getD _ _ _ hk, bitsOf_bitsVal]

theorem bitsOf_split (n v k : Nat) (hk : k ≤ n) :
    bitsOf n v = bitsOf k (v / 2 ^ (n - k)) ++ bitsOf (n - k) (v % 2 ^ (n - k)) := by
  apply List.ext_getElem
  · simp; omega
  intro j h1 h2
  rw [bitsOf_getElem]
  simp only [bitsOf_length] at h1
  by_cases hj : j < k
  · rw [List.getElem_append_left (by simpa using hj), bitsOf_getElem, Nat.testBit_div_two_pow]
    congr 1; omega
  · rw [List.getElem_append_right (by simpa using hj), bitsOf_getElem, Nat.testBit_mod_two_pow]
    simp only [bitsOf_length]
    rw [show n - k - 1 - (j - k) = n - 1 - j by omega]
    simp; omega

end Sys2Proof
end

