-- ==== Sys2Proof/Laws/Operands.lean ====
section
/-! SUPPORT. The laws of the operand functions: the scan, the version scan, and the packers, group by group
(spec/40_classify.md, spec/41_version_select.md, spec/43_segment_pack.md). -/

namespace Sys2Proof.Machine

/-! The scan. -/

/-- A scan from a mode so far, continued (R120, R125): without a halt it goes on, and a halt is final. -/
theorem classStep_halted (cfg : Config) (m : Mode) (cs : List Nat) :
    cs.foldl (classStep cfg) (m, true) = (m, true) := by
  induction cs with
  | nil => rfl
  | cons c cs ih => simp [classStep, ih]

/-- The capacity row of a version exists in a configuration of 160 rows (R45). -/
theorem romRow_some {cfg : Config} (h : cfg.wf = true) {v : Nat} (l : Level) (h1 : 1 ≤ v) (h2 : v ≤ nVersions) :
    ∃ r, romRow cfg v l = some r := by
  simp only [Config.wf, Bool.and_eq_true, beq_iff_eq, romRows] at h
  simp only [nVersions] at h2
  have := l.code_lt
  exact ⟨_, List.getElem?_eq_getElem (by omega)⟩

theorem romRow_mem {cfg : Config} {v : Nat} {l : Level} {r : Row} (h : romRow cfg v l = some r) : r ∈ cfg.rom :=
  List.mem_of_getElem? h

theorem romRow_fits {cfg : Config} (hw : cfg.wf = true) {v : Nat} {l : Level} {r : Row}
    (h : romRow cfg v l = some r) : r.fits = true := by
  simp only [Config.wf, Bool.and_eq_true, List.all_eq_true] at hw
  exact hw.2 _ (romRow_mem h)

/-- No row's total is above CW_MAX (R8, R43). -/
theorem total_le_cwMax {cfg : Config} {r : Row} (h : r ∈ cfg.rom) : r.total ≤ cfg.cwMax := by
  have key : ∀ (l : List Row) (a : Nat), a ≤ l.foldl (fun m r => max m r.total) a ∧
      ∀ r ∈ l, r.total ≤ l.foldl (fun m r => max m r.total) a := by
    intro l
    induction l with
    | nil => simp
    | cons x xs ih =>
      intro a
      obtain ⟨h1, h2⟩ := ih (max a x.total)
      simp only [List.foldl_cons, List.mem_cons, forall_eq_or_imp]
      exact ⟨by omega, by omega, h2⟩
  exact (key _ _).2 _ h

/-! Values and legal sets. -/

theorem digitVal_some {c d : Nat} : digitVal c = some d ↔ isDigit c = true ∧ d = c - 0x30 := by
  simp only [digitVal]
  by_cases h : isDigit c = true
  · simp only [h, if_true, Option.some.injEq, true_and]; exact eq_comm
  · simp [h]

theorem digitVal_none {c : Nat} : digitVal c = none ↔ isDigit c = false := by simp [digitVal]

theorem digitVal_wf {c d : Nat} (h : digitVal c = some d) : isDigitValue d = true := by
  obtain ⟨h1, rfl⟩ := digitVal_some.1 h
  simp only [isDigit, Bool.and_eq_true, decide_eq_true_eq] at h1
  simp only [isDigitValue, decide_eq_true_eq]
  omega

theorem alpha_wf {c d : Nat} (h : alpha c = some d) : isAlphaValue d = true := by
  unfold alpha at h
  split at h
  · rename_i h2; cases h; simp [isDigit] at h2; simp [isAlphaValue]; omega
  split at h
  · rename_i h2; cases h; simp [isUpper] at h2; simp [isAlphaValue]; omega
  · simp only [symbolValues, List.lookup] at h
    repeat' split at h
    all_goals first | (cases h; decide) | cases h

/-- The alphabet is the digits, the capital letters and the nine symbols (R121 to R123, R177). -/
theorem alpha_none {c : Nat} : alpha c = none ↔ isDigit c = false ∧ isUpper c = false ∧ isSym9 c = false := by
  unfold alpha
  by_cases h1 : isDigit c = true
  · simp [h1]
  by_cases h2 : isUpper c = true
  · simp [h1, h2]
  simp only [h1, h2]
  simp only [symbolValues, List.lookup, isSym9, List.contains_cons, List.contains_nil]
  repeat' split
  all_goals simp_all

/-! The packers, one group at a time. -/

theorem packNumeric_cons {r0 r1 r2 : Rec} {rs : List Rec} {seg : List Instr} :
    packNumeric (r0 :: r1 :: r2 :: rs) = some seg ↔
      ∃ d0 d1 d2 es, digitVal (recCp r0) = some d0 ∧ digitVal (recCp r1) = some d1 ∧
        digitVal (recCp r2) = some d2 ∧ packNumeric rs = some es ∧ seg = .num3 d0 d1 d2 :: es := by
  simp [packNumeric, Option.bind_eq_some_iff, @eq_comm _ _ seg]

theorem packAlnum_cons {r0 r1 : Rec} {rs : List Rec} {seg : List Instr} :
    packAlnum (r0 :: r1 :: rs) = some seg ↔
      ∃ a0 a1 es, alpha (recCp r0) = some a0 ∧ alpha (recCp r1) = some a1 ∧ packAlnum rs = some es ∧
        seg = .an2 a0 a1 :: es := by
  simp [packAlnum, Option.bind_eq_some_iff, @eq_comm _ _ seg]

theorem packKanji_cons {cfg : Config} {r : Rec} {rs : List Rec} {seg : List Instr} :
    packKanji cfg (r :: rs) = some seg ↔
      ∃ k es, kanjiMap cfg (recCp r) = some k ∧ packKanji cfg rs = some es ∧ seg = .kanji13 k :: es := by
  simp [packKanji, Option.bind_eq_some_iff, @eq_comm _ _ seg]

@[simp] theorem packByte_cons (r : Rec) (rs : List Rec) :
    packByte (r :: rs) = (recRaw r).map .byte8 ++ packByte rs := by
  simp [packByte]

@[simp] theorem recRaw_length (r : Rec) : (recRaw r).length = recRawLen r := by simp [recRaw]

theorem recRawLen_le (r : Rec) : recRawLen r ≤ 4 := by
  unfold recRawLen
  have := (r.extractLsb' 21 2).isLt
  omega

@[simp] theorem byteCount_nil : byteCount [] = 0 := rfl

@[simp] theorem byteCount_cons (r : Rec) (rs : List Rec) : byteCount (r :: rs) = recRawLen r + byteCount rs := by
  simp [byteCount]

theorem byteCount_le (txt : List Rec) : byteCount txt ≤ 4 * txt.length := by
  induction txt with
  | nil => simp
  | cons r rs ih =>
    have := recRawLen_le r
    simp only [byteCount_cons, List.length_cons]
    omega

/-! The length formula, one group at a time (R171). -/

theorem dataBits_numeric_add (n nb nb' : Nat) : dataBits .numeric (n + 3) nb = 10 + dataBits .numeric n nb' := by
  simp only [dataBits]
  rw [Nat.add_div_right _ (by decide), Nat.add_mod_right]
  omega

theorem dataBits_alnum_add (n nb nb' : Nat) : dataBits .alnum (n + 2) nb = 11 + dataBits .alnum n nb' := by
  simp only [dataBits]; omega

theorem dataBits_kanji_add (n nb nb' : Nat) : dataBits .kanji (n + 1) nb = 13 + dataBits .kanji n nb' := by
  simp only [dataBits]; omega

theorem countWidth_le (t : Tier) (m : Mode) : countWidth t m ≤ 16 := by cases t <;> cases m <;> decide

theorem dataBits_le (m : Mode) (n nb : Nat) (h : nb ≤ 4 * n) : dataBits m n nb ≤ 32 * n := by
  cases m <;> simp only [dataBits]
  · split_ifs <;> omega
  · omega
  · omega
  · omega

/-- The elements the sequencer makes for the header. -/
@[simp] theorem modeIndOf_slot (m : Mode) : (modeIndOf m).slot = .modeInd := by cases m <;> rfl

@[simp] theorem modeIndOf_value (m : Mode) : (modeIndOf m).value = m.nibble.toNat := by cases m <;> rfl

@[simp] theorem countIndOf_slot (m : Mode) (t : Tier) (c : Nat) : (countIndOf m t c).slot = .countInd m t := by
  cases m <;> cases t <;> rfl

theorem countIndOf_value {m : Mode} {t : Tier} {c : Nat} (h : c < 2 ^ countWidth t m) :
    (countIndOf m t c).value = c := by
  cases m <;> cases t <;> exact Nat.mod_eq_of_lt h

end Sys2Proof.Machine
end

