-- ==== Sys2Proof/Laws/State.lean ====
section
/-! SUPPORT. One lemma for each field of State under each named update, so that no proof unfolds a record
update. -/

namespace Sys2Proof.Machine

variable (s : State)

@[simp] theorem State.raise_cfg (e : JobError) : (s.raise e).cfg = s.cfg := rfl
@[simp] theorem State.raise_phase (e : JobError) : (s.raise e).phase = .error := rfl
@[simp] theorem State.raise_err (e : JobError) : (s.raise e).err = some e := rfl
@[simp] theorem State.raise_lvlR (e : JobError) : (s.raise e).lvlR = s.lvlR := rfl
@[simp] theorem State.raise_lenR (e : JobError) : (s.raise e).lenR = s.lenR := rfl
@[simp] theorem State.raise_count (e : JobError) : (s.raise e).count = s.count := rfl
@[simp] theorem State.raise_mode (e : JobError) : (s.raise e).mode = s.mode := rfl
@[simp] theorem State.raise_ver (e : JobError) : (s.raise e).ver = s.ver := rfl
@[simp] theorem State.raise_row (e : JobError) : (s.raise e).row = s.row := rfl
@[simp] theorem State.raise_req (e : JobError) : (s.raise e).req = s.req := rfl
@[simp] theorem State.raise_idx (e : JobError) : (s.raise e).idx = s.idx := rfl
@[simp] theorem State.raise_vscan (e : JobError) : (s.raise e).vscan = s.vscan := rfl
@[simp] theorem State.raise_cur (e : JobError) : (s.raise e).cur = s.cur := rfl
@[simp] theorem State.raise_scanMode (e : JobError) : (s.raise e).scanMode = s.scanMode := rfl
@[simp] theorem State.raise_scanHalted (e : JobError) : (s.raise e).scanHalted = s.scanHalted := rfl
@[simp] theorem State.raise_seg (e : JobError) : (s.raise e).seg = s.seg := rfl
@[simp] theorem State.raise_text (e : JobError) : (s.raise e).text = s.text := rfl
@[simp] theorem State.raise_cw (e : JobError) : (s.raise e).cw = [] := rfl
@[simp] theorem State.raise_stage (e : JobError) : (s.raise e).stage = s.stage := rfl
@[simp] theorem State.raise_host (e : JobError) : (s.raise e).host = s.host := rfl
@[simp] theorem State.raise_dout (e : JobError) : (s.raise e).dout = s.dout := rfl
@[simp] theorem State.raise_textEpoch (e : JobError) : (s.raise e).textEpoch = s.textEpoch := rfl
@[simp] theorem State.raise_cwEpoch (e : JobError) : (s.raise e).cwEpoch = s.cwEpoch + 1 := rfl
@[simp] theorem State.raise_freeReads (e : JobError) : (s.raise e).freeReads = s.freeReads := rfl

@[simp] theorem State.startJob_cfg (l : Level) (n : Nat) : (s.startJob l n).cfg = s.cfg := rfl
@[simp] theorem State.startJob_phase (l : Level) (n : Nat) : (s.startJob l n).phase = .classify := rfl
@[simp] theorem State.startJob_err (l : Level) (n : Nat) : (s.startJob l n).err = none := rfl
@[simp] theorem State.startJob_lvlR (l : Level) (n : Nat) : (s.startJob l n).lvlR = l := rfl
@[simp] theorem State.startJob_lenR (l : Level) (n : Nat) : (s.startJob l n).lenR = n := rfl
@[simp] theorem State.startJob_count (l : Level) (n : Nat) : (s.startJob l n).count = 0 := rfl
@[simp] theorem State.startJob_mode (l : Level) (n : Nat) : (s.startJob l n).mode = none := rfl
@[simp] theorem State.startJob_ver (l : Level) (n : Nat) : (s.startJob l n).ver = 0 := rfl
@[simp] theorem State.startJob_row (l : Level) (n : Nat) : (s.startJob l n).row = Row.zero := rfl
@[simp] theorem State.startJob_req (l : Level) (n : Nat) : (s.startJob l n).req = 0 := rfl
@[simp] theorem State.startJob_idx (l : Level) (n : Nat) : (s.startJob l n).idx = 0 := rfl
@[simp] theorem State.startJob_vscan (l : Level) (n : Nat) : (s.startJob l n).vscan = s.vscan := rfl
@[simp] theorem State.startJob_cur (l : Level) (n : Nat) : (s.startJob l n).cur = s.cur := rfl
@[simp] theorem State.startJob_scanMode (l : Level) (n : Nat) : (s.startJob l n).scanMode = .numeric := rfl
@[simp] theorem State.startJob_scanHalted (l : Level) (n : Nat) : (s.startJob l n).scanHalted = false := rfl
@[simp] theorem State.startJob_seg (l : Level) (n : Nat) : (s.startJob l n).seg = s.seg := rfl
@[simp] theorem State.startJob_text (l : Level) (n : Nat) : (s.startJob l n).text = s.text := rfl
@[simp] theorem State.startJob_cw (l : Level) (n : Nat) : (s.startJob l n).cw = s.cw := rfl
@[simp] theorem State.startJob_stage (l : Level) (n : Nat) : (s.startJob l n).stage = s.stage := rfl
@[simp] theorem State.startJob_host (l : Level) (n : Nat) : (s.startJob l n).host = s.host := rfl
@[simp] theorem State.startJob_dout (l : Level) (n : Nat) : (s.startJob l n).dout = s.dout := rfl
@[simp] theorem State.startJob_textEpoch (l : Level) (n : Nat) : (s.startJob l n).textEpoch = s.textEpoch := rfl
@[simp] theorem State.startJob_cwEpoch (l : Level) (n : Nat) : (s.startJob l n).cwEpoch = s.cwEpoch := rfl
@[simp] theorem State.startJob_freeReads (l : Level) (n : Nat) : (s.startJob l n).freeReads = s.freeReads := rfl

@[simp] theorem State.latchVersion_cfg (r : Row) : (s.latchVersion r).cfg = s.cfg := rfl
@[simp] theorem State.latchVersion_phase (r : Row) : (s.latchVersion r).phase = .pack := rfl
@[simp] theorem State.latchVersion_err (r : Row) : (s.latchVersion r).err = s.err := rfl
@[simp] theorem State.latchVersion_lvlR (r : Row) : (s.latchVersion r).lvlR = s.lvlR := rfl
@[simp] theorem State.latchVersion_lenR (r : Row) : (s.latchVersion r).lenR = s.lenR := rfl
@[simp] theorem State.latchVersion_count (r : Row) : (s.latchVersion r).count = s.count := rfl
@[simp] theorem State.latchVersion_mode (r : Row) : (s.latchVersion r).mode = s.mode := rfl
@[simp] theorem State.latchVersion_ver (r : Row) : (s.latchVersion r).ver = s.vscan := rfl
@[simp] theorem State.latchVersion_row (r : Row) : (s.latchVersion r).row = r := rfl
@[simp] theorem State.latchVersion_req (r : Row) : (s.latchVersion r).req = s.req := rfl
@[simp] theorem State.latchVersion_idx (r : Row) : (s.latchVersion r).idx = 0 := rfl
@[simp] theorem State.latchVersion_vscan (r : Row) : (s.latchVersion r).vscan = s.vscan := rfl
@[simp] theorem State.latchVersion_cur (r : Row) : (s.latchVersion r).cur = s.cur := rfl
@[simp] theorem State.latchVersion_scanMode (r : Row) : (s.latchVersion r).scanMode = s.scanMode := rfl
@[simp] theorem State.latchVersion_scanHalted (r : Row) : (s.latchVersion r).scanHalted = s.scanHalted := rfl
@[simp] theorem State.latchVersion_seg (r : Row) : (s.latchVersion r).seg = [] := rfl
@[simp] theorem State.latchVersion_text (r : Row) : (s.latchVersion r).text = s.text := rfl
@[simp] theorem State.latchVersion_cw (r : Row) : (s.latchVersion r).cw = s.cw := rfl
@[simp] theorem State.latchVersion_stage (r : Row) : (s.latchVersion r).stage = s.stage := rfl
@[simp] theorem State.latchVersion_host (r : Row) : (s.latchVersion r).host = s.host := rfl
@[simp] theorem State.latchVersion_dout (r : Row) : (s.latchVersion r).dout = s.dout := rfl
@[simp] theorem State.latchVersion_textEpoch (r : Row) : (s.latchVersion r).textEpoch = s.textEpoch := rfl
@[simp] theorem State.latchVersion_cwEpoch (r : Row) : (s.latchVersion r).cwEpoch = s.cwEpoch := rfl
@[simp] theorem State.latchVersion_freeReads (r : Row) : (s.latchVersion r).freeReads = s.freeReads := rfl

@[simp] theorem State.finish_cfg : (s.finish).cfg = s.cfg := rfl
@[simp] theorem State.finish_phase : (s.finish).phase = .done := rfl
@[simp] theorem State.finish_err : (s.finish).err = s.err := rfl
@[simp] theorem State.finish_lvlR : (s.finish).lvlR = s.lvlR := rfl
@[simp] theorem State.finish_lenR : (s.finish).lenR = s.lenR := rfl
@[simp] theorem State.finish_count : (s.finish).count = s.count := rfl
@[simp] theorem State.finish_mode : (s.finish).mode = s.mode := rfl
@[simp] theorem State.finish_ver : (s.finish).ver = s.ver := rfl
@[simp] theorem State.finish_row : (s.finish).row = s.row := rfl
@[simp] theorem State.finish_req : (s.finish).req = s.req := rfl
@[simp] theorem State.finish_idx : (s.finish).idx = s.idx := rfl
@[simp] theorem State.finish_vscan : (s.finish).vscan = s.vscan := rfl
@[simp] theorem State.finish_cur : (s.finish).cur = 8 * s.row.total := rfl
@[simp] theorem State.finish_scanMode : (s.finish).scanMode = s.scanMode := rfl
@[simp] theorem State.finish_scanHalted : (s.finish).scanHalted = s.scanHalted := rfl
@[simp] theorem State.finish_seg : (s.finish).seg = s.seg := rfl
@[simp] theorem State.finish_text : (s.finish).text = s.text := rfl
@[simp] theorem State.finish_cw : (s.finish).cw = s.cw := rfl
@[simp] theorem State.finish_stage : (s.finish).stage = s.stage := rfl
@[simp] theorem State.finish_host : (s.finish).host = s.host := rfl
@[simp] theorem State.finish_dout : (s.finish).dout = s.dout := rfl
@[simp] theorem State.finish_textEpoch : (s.finish).textEpoch = s.textEpoch := rfl
@[simp] theorem State.finish_cwEpoch : (s.finish).cwEpoch = s.cwEpoch := rfl
@[simp] theorem State.finish_freeReads : (s.finish).freeReads = s.freeReads := rfl

@[simp] theorem returns_cfg (v : Nat) : (returns v s).cfg = s.cfg := rfl
@[simp] theorem returns_phase (v : Nat) : (returns v s).phase = s.phase := rfl
@[simp] theorem returns_err (v : Nat) : (returns v s).err = s.err := rfl
@[simp] theorem returns_lvlR (v : Nat) : (returns v s).lvlR = s.lvlR := rfl
@[simp] theorem returns_lenR (v : Nat) : (returns v s).lenR = s.lenR := rfl
@[simp] theorem returns_count (v : Nat) : (returns v s).count = s.count := rfl
@[simp] theorem returns_mode (v : Nat) : (returns v s).mode = s.mode := rfl
@[simp] theorem returns_ver (v : Nat) : (returns v s).ver = s.ver := rfl
@[simp] theorem returns_row (v : Nat) : (returns v s).row = s.row := rfl
@[simp] theorem returns_req (v : Nat) : (returns v s).req = s.req := rfl
@[simp] theorem returns_idx (v : Nat) : (returns v s).idx = s.idx := rfl
@[simp] theorem returns_vscan (v : Nat) : (returns v s).vscan = s.vscan := rfl
@[simp] theorem returns_cur (v : Nat) : (returns v s).cur = s.cur := rfl
@[simp] theorem returns_scanMode (v : Nat) : (returns v s).scanMode = s.scanMode := rfl
@[simp] theorem returns_scanHalted (v : Nat) : (returns v s).scanHalted = s.scanHalted := rfl
@[simp] theorem returns_seg (v : Nat) : (returns v s).seg = s.seg := rfl
@[simp] theorem returns_text (v : Nat) : (returns v s).text = s.text := rfl
@[simp] theorem returns_cw (v : Nat) : (returns v s).cw = s.cw := rfl
@[simp] theorem returns_stage (v : Nat) : (returns v s).stage = s.stage := rfl
@[simp] theorem returns_host (v : Nat) : (returns v s).host = s.host := rfl
@[simp] theorem returns_dout (v : Nat) : (returns v s).dout = v := rfl
@[simp] theorem returns_textEpoch (v : Nat) : (returns v s).textEpoch = s.textEpoch := rfl
@[simp] theorem returns_cwEpoch (v : Nat) : (returns v s).cwEpoch = s.cwEpoch := rfl
@[simp] theorem returns_freeReads (v : Nat) : (returns v s).freeReads = s.freeReads := rfl

@[simp] theorem returnsFree_cfg (w : Nat) : (returnsFree w s).cfg = s.cfg := rfl
@[simp] theorem returnsFree_phase (w : Nat) : (returnsFree w s).phase = s.phase := rfl
@[simp] theorem returnsFree_err (w : Nat) : (returnsFree w s).err = s.err := rfl
@[simp] theorem returnsFree_lvlR (w : Nat) : (returnsFree w s).lvlR = s.lvlR := rfl
@[simp] theorem returnsFree_lenR (w : Nat) : (returnsFree w s).lenR = s.lenR := rfl
@[simp] theorem returnsFree_count (w : Nat) : (returnsFree w s).count = s.count := rfl
@[simp] theorem returnsFree_mode (w : Nat) : (returnsFree w s).mode = s.mode := rfl
@[simp] theorem returnsFree_ver (w : Nat) : (returnsFree w s).ver = s.ver := rfl
@[simp] theorem returnsFree_row (w : Nat) : (returnsFree w s).row = s.row := rfl
@[simp] theorem returnsFree_req (w : Nat) : (returnsFree w s).req = s.req := rfl
@[simp] theorem returnsFree_idx (w : Nat) : (returnsFree w s).idx = s.idx := rfl
@[simp] theorem returnsFree_vscan (w : Nat) : (returnsFree w s).vscan = s.vscan := rfl
@[simp] theorem returnsFree_cur (w : Nat) : (returnsFree w s).cur = s.cur := rfl
@[simp] theorem returnsFree_scanMode (w : Nat) : (returnsFree w s).scanMode = s.scanMode := rfl
@[simp] theorem returnsFree_scanHalted (w : Nat) : (returnsFree w s).scanHalted = s.scanHalted := rfl
@[simp] theorem returnsFree_seg (w : Nat) : (returnsFree w s).seg = s.seg := rfl
@[simp] theorem returnsFree_text (w : Nat) : (returnsFree w s).text = s.text := rfl
@[simp] theorem returnsFree_cw (w : Nat) : (returnsFree w s).cw = s.cw := rfl
@[simp] theorem returnsFree_stage (w : Nat) : (returnsFree w s).stage = s.stage := rfl
@[simp] theorem returnsFree_host (w : Nat) : (returnsFree w s).host = s.host := rfl
@[simp] theorem returnsFree_dout (w : Nat) : (returnsFree w s).dout = Config.freeRead s.freeReads % 2 ^ w := rfl
@[simp] theorem returnsFree_textEpoch (w : Nat) : (returnsFree w s).textEpoch = s.textEpoch := rfl
@[simp] theorem returnsFree_cwEpoch (w : Nat) : (returnsFree w s).cwEpoch = s.cwEpoch := rfl
@[simp] theorem returnsFree_freeReads (w : Nat) : (returnsFree w s).freeReads = s.freeReads + 1 := rfl

@[simp] theorem State.resetBlock_cfg : (s.resetBlock).cfg = s.cfg := rfl
@[simp] theorem State.resetBlock_phase : (s.resetBlock).phase = .idle := rfl
@[simp] theorem State.resetBlock_err : (s.resetBlock).err = none := rfl
@[simp] theorem State.resetBlock_lvlR : (s.resetBlock).lvlR = .L := rfl
@[simp] theorem State.resetBlock_lenR : (s.resetBlock).lenR = 0 := rfl
@[simp] theorem State.resetBlock_count : (s.resetBlock).count = 0 := rfl
@[simp] theorem State.resetBlock_mode : (s.resetBlock).mode = none := rfl
@[simp] theorem State.resetBlock_ver : (s.resetBlock).ver = 0 := rfl
@[simp] theorem State.resetBlock_row : (s.resetBlock).row = Row.zero := rfl
@[simp] theorem State.resetBlock_req : (s.resetBlock).req = 0 := rfl
@[simp] theorem State.resetBlock_idx : (s.resetBlock).idx = 0 := rfl
@[simp] theorem State.resetBlock_vscan : (s.resetBlock).vscan = 0 := rfl
@[simp] theorem State.resetBlock_cur : (s.resetBlock).cur = 0 := rfl
@[simp] theorem State.resetBlock_scanMode : (s.resetBlock).scanMode = .numeric := rfl
@[simp] theorem State.resetBlock_scanHalted : (s.resetBlock).scanHalted = false := rfl
@[simp] theorem State.resetBlock_seg : (s.resetBlock).seg = [] := rfl
@[simp] theorem State.resetBlock_text : (s.resetBlock).text = [] := rfl
@[simp] theorem State.resetBlock_cw : (s.resetBlock).cw = [] := rfl
@[simp] theorem State.resetBlock_stage : (s.resetBlock).stage = .test := rfl
@[simp] theorem State.resetBlock_host : (s.resetBlock).host = s.host := rfl
@[simp] theorem State.resetBlock_dout : (s.resetBlock).dout = s.dout := rfl
@[simp] theorem State.resetBlock_textEpoch : (s.resetBlock).textEpoch = s.textEpoch + 1 := rfl
@[simp] theorem State.resetBlock_cwEpoch : (s.resetBlock).cwEpoch = s.cwEpoch + 1 := rfl
@[simp] theorem State.resetBlock_freeReads : (s.resetBlock).freeReads = s.freeReads := rfl

/-! What the memories read as depends on the stored cells and the epoch alone (log entry 6). -/

theorem State.textRec_congr {s t : State} (ht : t.text = s.text) (he : t.textEpoch = s.textEpoch) (a : Nat) :
    t.textRec a = s.textRec a := by
  unfold State.textRec
  rw [ht, he]

theorem State.cwByte_congr {s t : State} (hc : t.cw = s.cw) (he : t.cwEpoch = s.cwEpoch) (a : Nat) :
    t.cwByte a = s.cwByte a := by
  unfold State.cwByte
  rw [hc, he]

/-- A TEXT write gives its record at its address, and every other address reads as before (R41). -/
theorem State.textRec_write {s t : State} {a : Nat} {r : Rec} (ht : t.text = Memory.write s.text a r)
    (he : t.textEpoch = s.textEpoch) : t.textRec a = r ∧ ∀ b, b ≠ a → t.textRec b = s.textRec b := by
  unfold State.textRec
  rw [ht, he]
  exact ⟨by simp, fun b hb => by rw [Memory.read_write_other _ _ hb]⟩

end Sys2Proof.Machine
end

