-- ==== Sys2Proof/Laws/Ops.lean ====
section
/-! SUPPORT. What each shared operation can do, said once; the proofs about instructions cite these. -/

namespace Sys2Proof.Machine

/-! The elements that append (R66, R206). -/

theorem appendValue_of_fits {n v : Nat} {s : State} (h : Fits s n) :
    appendValue n v s = .next { s with cw := append s.cwEpoch s.cw s.cur n v, cur := s.cur + n } :=
  if_pos h

theorem appendValue_of_not_fits {n v : Nat} {s : State} (h : ¬ Fits s n) :
    appendValue n v s = .next (s.raise .capacityOverflow) :=
  if_neg h

theorem ors_append (s : State) (n v : Nat) :
    OrsBits s { s with cw := append s.cwEpoch s.cw s.cur n v, cur := s.cur + n } s.cur n v := by
  intro h
  exact memBit_append _ _ _ _ _ _

/-- An element whose meaning is `appendValue n v` completes as `Appends` says. -/
theorem appends_of_exec {i : Instr} {s : State} {n v : Nat} (hi : exec i s = appendValue n v s) (h : Fits s n) :
    Appends i s n v :=
  ⟨_, hi.trans (appendValue_of_fits h), rfl, ors_append s n v⟩

/-- The pad byte (R209). -/
theorem padByte_of_room {b : Byte} {s : State} (h : ceil8 s.cur < s.row.total) :
    padByte b s = .next { s with cw := Memory.write s.cw (ceil8 s.cur) b, cur := 8 * (ceil8 s.cur + 1) } :=
  if_pos h

theorem padByte_of_full {b : Byte} {s : State} (h : s.row.total ≤ ceil8 s.cur) : padByte b s = .next s :=
  if_neg (by omega)

/-- Whether a slot's elements are appended at the cursor bit by bit (all but the commands, the gap and the
pad bytes). -/
def Slot.appended : Slot → Bool
  | .command | .gap | .pad0 | .pad1 => false
  | _ => true

/-- An appended element runs as APPEND of its encoding. -/
theorem exec_appended {i : Instr} (h : Slot.appended i.slot = true) (s : State) :
    exec i s = appendValue i.width i.value s := by
  cases i <;> first | rfl | cases h

/-! Every operation of the opcode table completes, and in one of six ways. -/

/-- What a next state of exec can be. -/
inductive ExecTo (i : Instr) (s : State) : State → Prop where
  | same (hi : i.slot = .command ∨ ((i = .pad0 ∨ i = .pad1) ∧ s.row.total ≤ ceil8 s.cur)) : ExecTo i s s
  | started (l : Level) (n : BitVec 13) (hc : i.slot = .command) (hb : s.busy = false) :
      ExecTo i s (s.startJob l n.toNat)
  | appended (hi : Slot.appended i.slot = true) (h : Fits s i.width) :
      ExecTo i s { s with cw := append s.cwEpoch s.cw s.cur i.width i.value, cur := s.cur + i.width }
  | overflowed (hi : Slot.appended i.slot = true) (h : ¬ Fits s i.width) : ExecTo i s (s.raise .capacityOverflow)
  | skipped (hc : i = .gap) : ExecTo i s { s with cur := min (8 * (ceil8 s.cur + 1)) (8 * s.row.total) }
  | padded (b : Byte) (hc : i = .pad0 ∨ i = .pad1) (h : ceil8 s.cur < s.row.total) :
      ExecTo i s { s with cw := Memory.write s.cw (ceil8 s.cur) b, cur := 8 * (ceil8 s.cur + 1) }

theorem encodeCommand_to {i : Instr} (hc : i.slot = .command) (l : Level) (n : BitVec 13) (s : State) :
    ∃ t, encodeCommand l n s = .next t ∧ ExecTo i s t := by
  unfold encodeCommand
  cases hb : s.busy
  · exact ⟨_, rfl, .started l n hc hb⟩
  · exact ⟨_, rfl, .same (.inl hc)⟩

theorem exec_appended_to {i : Instr} (hi : Slot.appended i.slot = true) (s : State) :
    ∃ t, exec i s = .next t ∧ ExecTo i s t := by
  rw [exec_appended hi]
  by_cases h : Fits s i.width
  · exact ⟨_, appendValue_of_fits h, .appended hi h⟩
  · exact ⟨_, appendValue_of_not_fits h, .overflowed hi h⟩

theorem padByte_to {i : Instr} (hc : i = .pad0 ∨ i = .pad1) (b : Byte) (s : State) :
    ∃ t, padByte b s = .next t ∧ ExecTo i s t := by
  by_cases h : ceil8 s.cur < s.row.total
  · exact ⟨_, padByte_of_room h, .padded b hc h⟩
  · exact ⟨_, padByte_of_full (by omega), .same (.inr ⟨hc, by omega⟩)⟩

/-- Execution never stops, and its next state is one of the six. -/
theorem exec_to (i : Instr) (s : State) : ∃ t, exec i s = .next t ∧ ExecTo i s t := by
  cases i
  case encodeL n => exact encodeCommand_to rfl .L n s
  case encodeM n => exact encodeCommand_to rfl .M n s
  case encodeQ n => exact encodeCommand_to rfl .Q n s
  case encodeH n => exact encodeCommand_to rfl .H n s
  case nop x => exact ⟨_, rfl, .same (.inl rfl)⟩
  case gap => exact ⟨_, rfl, .skipped rfl⟩
  case pad0 => exact padByte_to (.inl rfl) _ s
  case pad1 => exact padByte_to (.inr rfl) _ s
  all_goals exact exec_appended_to rfl s

theorem exec_cases {i : Instr} {s t : State} (h : exec i s = .next t) : ExecTo i s t := by
  obtain ⟨t', h', ht⟩ := exec_to i s
  rw [h] at h'
  cases h'
  exact ht

end Sys2Proof.Machine
end

