-- ==== Sys2Proof/Laws/Pack.lean ====
section
/-! SUPPORT. Packing as the sequencer does it, group by group, and the whole-text packers: the two meet here
(spec/43_segment_pack.md R173 to R187, spec/45_encode_command.md R236). -/

namespace Sys2Proof.Machine

/-- A packed element is one that is appended at the cursor. -/
theorem pack_appended {cfg : Config} {m : Mode} {txt : List Rec} {seg : List Instr}
    (h : pack cfg m txt = some seg) : ∀ i ∈ seg, Slot.appended i.slot = true := by
  cases m with
  | numeric =>
    simp only [pack] at h
    induction txt using packNumeric.induct generalizing seg with
    | case1 => simp [packNumeric] at h; subst h; simp
    | case2 r0 =>
      simp [packNumeric, Option.bind_eq_some_iff] at h
      obtain ⟨d, _, rfl⟩ := h
      simp [Instr.slot, Slot.appended]
    | case3 r0 r1 =>
      simp [packNumeric, Option.bind_eq_some_iff] at h
      obtain ⟨d, _, d', _, rfl⟩ := h
      simp [Instr.slot, Slot.appended]
    | case4 r0 r1 r2 rs ih =>
      obtain ⟨d, d', d'', es, _, _, _, h', rfl⟩ := packNumeric_cons.1 h
      simp only [List.mem_cons, forall_eq_or_imp]; exact ⟨rfl, ih h'⟩
  | alnum =>
    simp only [pack] at h
    induction txt using packAlnum.induct generalizing seg with
    | case1 => simp [packAlnum] at h; subst h; simp
    | case2 r0 =>
      simp [packAlnum, Option.bind_eq_some_iff] at h
      obtain ⟨d, _, rfl⟩ := h
      simp [Instr.slot, Slot.appended]
    | case3 r0 r1 rs ih =>
      obtain ⟨d, d', es, _, _, h', rfl⟩ := packAlnum_cons.1 h
      simp only [List.mem_cons, forall_eq_or_imp]; exact ⟨rfl, ih h'⟩
  | byte =>
    simp [pack] at h; subst h
    simp only [packByte, List.mem_flatMap, List.mem_map]
    rintro i ⟨r, _, b, _, rfl⟩; rfl
  | kanji =>
    simp only [pack] at h
    induction txt generalizing seg with
    | nil => simp [packKanji] at h; subst h; simp
    | cons r0 rs ih =>
      obtain ⟨d, es, _, h', rfl⟩ := packKanji_cons.1 h
      simp only [List.mem_cons, forall_eq_or_imp]; exact ⟨rfl, ih h'⟩

/-- Packing goes group by group: after whole groups it continues on the rest. -/
theorem pack_append {cfg : Config} {m : Mode} {a b : List Rec} {x y : List Instr}
    (hd : groupSize m ∣ a.length) (ha : pack cfg m a = some x) (hb : pack cfg m b = some y) :
    pack cfg m (a ++ b) = some (x ++ y) := by
  cases m with
  | numeric =>
    simp only [pack, groupSize] at *
    induction a using packNumeric.induct generalizing x with
    | case1 => simp [packNumeric] at ha; subst ha; simpa
    | case2 r0 => simp at hd
    | case3 r0 r1 => simp at hd
    | case4 r0 r1 r2 rs ih =>
      obtain ⟨d, d', d'', es, h1, h2, h3, h, rfl⟩ := packNumeric_cons.1 ha
      simp only [List.cons_append]
      exact packNumeric_cons.2 ⟨_, _, _, _, h1, h2, h3, ih (by simp at hd; omega) h, rfl⟩
  | alnum =>
    simp only [pack, groupSize] at *
    induction a using packAlnum.induct generalizing x with
    | case1 => simp [packAlnum] at ha; subst ha; simpa
    | case2 r0 => simp at hd
    | case3 r0 r1 rs ih =>
      obtain ⟨d, d', es, h1, h2, h, rfl⟩ := packAlnum_cons.1 ha
      simp only [List.cons_append]
      exact packAlnum_cons.2 ⟨_, _, _, h1, h2, ih (by simp at hd; omega) h, rfl⟩
  | byte => simp [pack] at *; subst ha hb; simp [packByte]
  | kanji =>
    simp only [pack] at *
    induction a generalizing x with
    | nil => simp [packKanji] at ha; subst ha; simpa
    | cons r0 rs ih =>
      obtain ⟨d, es, h1, h, rfl⟩ := packKanji_cons.1 ha
      exact packKanji_cons.2 ⟨_, _, h1, ih (by simp [groupSize]) h, rfl⟩

/-- A group that cannot be packed stops the whole text. -/
theorem pack_append_none {cfg : Config} {m : Mode} {a b : List Rec} {x : List Instr}
    (hd : groupSize m ∣ a.length) (ha : pack cfg m a = some x) (hb : pack cfg m b = none) :
    pack cfg m (a ++ b) = none := by
  cases m with
  | numeric =>
    simp only [pack, groupSize] at *
    induction a using packNumeric.induct generalizing x with
    | case1 => simpa
    | case2 r0 => simp at hd
    | case3 r0 r1 => simp at hd
    | case4 r0 r1 r2 rs ih =>
      obtain ⟨d, d', d'', es, h1, h2, h3, h, rfl⟩ := packNumeric_cons.1 ha
      simp only [List.cons_append]
      simp [packNumeric, ih (by simp at hd; omega) h]
  | alnum =>
    simp only [pack, groupSize] at *
    induction a using packAlnum.induct generalizing x with
    | case1 => simpa
    | case2 r0 => simp at hd
    | case3 r0 r1 rs ih =>
      obtain ⟨d, d', es, h1, h2, h, rfl⟩ := packAlnum_cons.1 ha
      simp only [List.cons_append]
      simp [packAlnum, ih (by simp at hd; omega) h]
  | byte => simp [pack] at *
  | kanji =>
    simp only [pack] at *
    induction a generalizing x with
    | nil => simpa
    | cons r0 rs ih =>
      obtain ⟨d, es, h1, h, rfl⟩ := packKanji_cons.1 ha
      simp [packKanji, ih (by simp [groupSize]) h]

/-- Packing one group is packing its text (R173, R178, R181, R183). -/
theorem packGroup_eq {cfg : Config} {m : Mode} {g : List Rec} (hne : g ≠ []) (hl : g.length ≤ groupSize m) :
    packGroup cfg m g = pack cfg m g := by
  cases m with
  | numeric =>
    match g, hne, hl with
    | [a], _, _ =>
      simp only [packGroup, pack, packNumeric, List.map]
      cases digitVal (recCp a) <;> rfl
    | [a, b], _, _ =>
      simp only [packGroup, pack, packNumeric, List.map]
      cases digitVal (recCp a) <;> cases digitVal (recCp b) <;> rfl
    | [a, b, c], _, _ =>
      simp only [packGroup, pack, packNumeric, List.map]
      cases digitVal (recCp a) <;> cases digitVal (recCp b) <;> cases digitVal (recCp c) <;> rfl
    | _ :: _ :: _ :: _ :: _, _, h => simp [groupSize] at h; omega
  | alnum =>
    match g, hne, hl with
    | [a], _, _ =>
      simp only [packGroup, pack, packAlnum, List.map]
      cases alpha (recCp a) <;> rfl
    | [a, b], _, _ =>
      simp only [packGroup, pack, packAlnum, List.map]
      cases alpha (recCp a) <;> cases alpha (recCp b) <;> rfl
    | _ :: _ :: _ :: _, _, h => simp [groupSize] at h
  | byte =>
    match g, hne, hl with
    | [a], _, _ => simp [packGroup, pack, packByte]
    | _ :: _ :: _, _, h => simp [groupSize] at h
  | kanji =>
    match g, hne, hl with
    | [a], _, _ =>
      simp only [packGroup, pack, packKanji, List.map]
      cases kanjiMap cfg (recCp a) <;> rfl
    | _ :: _ :: _, _, h => simp [groupSize] at h

/-! The job's text. -/

@[simp] theorem jobText_length (s : State) : s.jobText.length = s.lenR := by simp [State.jobText]

/-- The next records are the next ones of the job's text. -/
theorem nextRecs_eq (s : State) (k : Nat) : s.nextRecs k = (s.jobText.drop s.idx).take k := by
  apply List.ext_getElem
  · simp [State.nextRecs]
  · intro j h1 h2
    simp [State.nextRecs, State.jobText]

theorem jobText_getElem (s : State) (i : Nat) (h : i < s.lenR) : s.jobText[i]'(by simpa) = s.textRec i := by
  simp [State.jobText]

theorem groupSize_pos (m : Mode) : 0 < groupSize m := by cases m <;> decide

end Sys2Proof.Machine
end

