-- ==== Sys2Proof/Laws/PerInstr.lean ====
section
/-! SUPPORT. Families of statements made for each constructor of Instr. -/

set_option Elab.async false

namespace Sys2Proof.Laws.EncodingFits

/-- The value a well-formed operation writes fits the width the opcode table gives it (R91, R97 to R103,
R174 to R180), so that no bit of it is dropped. -/
def Statement (i : Instr) : Prop := i.wf = true → i.value < 2 ^ i.width

theorem encodeL (x) : Statement (.encodeL x) := fun _ => BitVec.isLt _

theorem encodeM (x) : Statement (.encodeM x) := fun _ => BitVec.isLt _

theorem encodeQ (x) : Statement (.encodeQ x) := fun _ => BitVec.isLt _

theorem encodeH (x) : Statement (.encodeH x) := fun _ => BitVec.isLt _

theorem nop (x) : Statement (.nop x) := fun _ => BitVec.isLt _

theorem miNumeric : Statement .miNumeric := by
  intro _; decide

theorem miAlnum : Statement .miAlnum := by
  intro _; decide

theorem miByte : Statement .miByte := by
  intro _; decide

theorem miKanji : Statement .miKanji := by
  intro _; decide

theorem cciNT1 (x) : Statement (.cciNT1 x) := fun _ => BitVec.isLt _

theorem cciNT2 (x) : Statement (.cciNT2 x) := fun _ => BitVec.isLt _

theorem cciNT3 (x) : Statement (.cciNT3 x) := fun _ => BitVec.isLt _

theorem cciAT1 (x) : Statement (.cciAT1 x) := fun _ => BitVec.isLt _

theorem cciAT2 (x) : Statement (.cciAT2 x) := fun _ => BitVec.isLt _

theorem cciAT3 (x) : Statement (.cciAT3 x) := fun _ => BitVec.isLt _

theorem cciBT1 (x) : Statement (.cciBT1 x) := fun _ => BitVec.isLt _

theorem cciBT2 (x) : Statement (.cciBT2 x) := fun _ => BitVec.isLt _

theorem cciBT3 (x) : Statement (.cciBT3 x) := fun _ => BitVec.isLt _

theorem cciKT1 (x) : Statement (.cciKT1 x) := fun _ => BitVec.isLt _

theorem cciKT2 (x) : Statement (.cciKT2 x) := fun _ => BitVec.isLt _

theorem cciKT3 (x) : Statement (.cciKT3 x) := fun _ => BitVec.isLt _

theorem num3 (d0 d1 d2 : Nat) : Statement (.num3 d0 d1 d2) := by
  simp [Statement, Instr.wf, isDigitValue, Instr.value, Instr.width, Instr.slot, Slot.width]
  try omega

theorem num2 (d0 d1 : Nat) : Statement (.num2 d0 d1) := by
  simp [Statement, Instr.wf, isDigitValue, Instr.value, Instr.width, Instr.slot, Slot.width]
  try omega

theorem num1 (d0 : Nat) : Statement (.num1 d0) := by
  simp [Statement, Instr.wf, isDigitValue, Instr.value, Instr.width, Instr.slot, Slot.width]
  try omega

theorem an2 (a0 a1 : Nat) : Statement (.an2 a0 a1) := by
  simp [Statement, Instr.wf, isAlphaValue, Instr.value, Instr.width, Instr.slot, Slot.width]
  try omega

theorem an1 (a0 : Nat) : Statement (.an1 a0) := by
  simp [Statement, Instr.wf, isAlphaValue, Instr.value, Instr.width, Instr.slot, Slot.width]
  try omega

theorem byte8 (x) : Statement (.byte8 x) := fun _ => BitVec.isLt _

theorem kanji13 (x) : Statement (.kanji13 x) := fun _ => BitVec.isLt _

theorem gap : Statement .gap := by
  intro _; decide

theorem pad0 : Statement .pad0 := by
  intro _; decide

theorem pad1 : Statement .pad1 := by
  intro _; decide

end Sys2Proof.Laws.EncodingFits
end

