-- ==== Sys2Proof/Laws/Step.lean ====
section
/-! SUPPORT. Everything one step of the block, one host access and one step of the machine can do, said once;
the proofs about all states go by cases on these. -/

namespace Sys2Proof.Machine

/-! One step of the block (R236). -/

/-- The next states of a step of the block. -/
inductive BlockTo (s : State) : State → Prop where
  | rest (hp : s.phase = .idle ∨ s.phase = .done ∨ s.phase = .error) : BlockTo s s
  | scanned (hp : s.phase = .classify) (hi : s.idx < s.lenR) (hh : s.scanHalted = false) :
      BlockTo s { s with
        scanMode := (classStep s.cfg (s.scanMode, s.scanHalted) (recCp (s.textRec s.idx))).1,
        scanHalted := (classStep s.cfg (s.scanMode, s.scanHalted) (recCp (s.textRec s.idx))).2,
        idx := s.idx + 1 }
  | classified (hp : s.phase = .classify) (hi : s.lenR ≤ s.idx ∨ s.scanHalted = true) :
      BlockTo s { s with
        mode := some s.scanMode, count := countOf s.cfg s.scanMode s.jobText, vscan := 1, phase := .select }
  | latched (m : Mode) (row : Row) (hp : s.phase = .select) (hm : s.mode = some m)
      (hr : romRow s.cfg s.vscan s.lvlR = some row) (hc : s.count ≤ Row.cap row m) :
      BlockTo s (s.latchVersion row)
  | tooSmall (m : Mode) (row : Row) (hp : s.phase = .select) (hm : s.mode = some m)
      (hr : romRow s.cfg s.vscan s.lvlR = some row) (hc : Row.cap row m < s.count) (hv : s.vscan < nVersions) :
      BlockTo s { s with vscan := s.vscan + 1 }
  | noneFits (m : Mode) (row : Row) (hp : s.phase = .select) (hm : s.mode = some m)
      (hr : romRow s.cfg s.vscan s.lvlR = some row) (hc : Row.cap row m < s.count) (hv : nVersions ≤ s.vscan) :
      BlockTo s (s.raise .noVersionFits)
  | illegal (m : Mode) (hp : s.phase = .pack) (hm : s.mode = some m) (hi : s.idx < s.lenR)
      (hg : packGroup s.cfg m (s.nextRecs (groupSize m)) = none) :
      BlockTo s (s.raise .invalidCharacterForMode)
  | packed (m : Mode) (es : List Instr) (hp : s.phase = .pack) (hm : s.mode = some m) (hi : s.idx < s.lenR)
      (hg : packGroup s.cfg m (s.nextRecs (groupSize m)) = some es) :
      BlockTo s { s with seg := s.seg ++ es, idx := s.idx + (s.nextRecs (groupSize m)).length }
  | allPacked (m : Mode) (hp : s.phase = .pack) (hm : s.mode = some m) (hi : s.lenR ≤ s.idx) :
      BlockTo s { s with req := requiredBits s.ver m s.jobText, phase := .assemble, stage := .test }
  | overflow (m : Mode) (hp : s.phase = .assemble) (hm : s.mode = some m) (hs : s.stage = .test)
      (ho : 2 ^ countWidth (tier s.ver) m ≤ s.count ∨ 8 * s.row.total < s.req) :
      BlockTo s (s.raise .capacityOverflow)
  | cleared (m : Mode) (hp : s.phase = .assemble) (hm : s.mode = some m) (hs : s.stage = .test)
      (hc : s.count < 2 ^ countWidth (tier s.ver) m) (hr : s.req ≤ 8 * s.row.total) :
      BlockTo s { s with cw := zeroFill s.row.total s.cw, cur := 0, stage := .modeInd }
  | ran (m : Mode) (i : Instr) (t u : State) (hp : s.phase = .assemble) (hm : s.mode = some m)
      (hf : fetchElem m s = some (i, t)) (hi : ExecTo i t u) : BlockTo s u
  | dataEnd (m : Mode) (hp : s.phase = .assemble) (hm : s.mode = some m) (hs : s.stage = .data)
      (he : s.seg = []) : BlockTo s { s with stage := .gap }
  | finished (m : Mode) (hp : s.phase = .assemble) (hm : s.mode = some m)
      (hs : (s.stage = .gap ∧ s.row.total ≤ ceil8 s.cur) ∨
        ((s.stage = .pad0 ∨ s.stage = .pad1) ∧ 8 * s.row.total ≤ s.cur)) : BlockTo s s.finish

theorem blockStep_to {s t : State} (h : blockStep s = .next t) : BlockTo s t := by
  unfold blockStep at h
  split at h
  · rename_i hp
    unfold classifyStep at h
    split at h
    · rename_i hc; cases h; exact .scanned hp hc.1 hc.2
    · rename_i hc; cases h; refine .classified hp ?_
      rcases Nat.lt_or_ge s.idx s.lenR with h1 | h1
      · right; simpa [h1] using hc
      · exact .inl h1
  · rename_i hp
    unfold selectStep at h
    split at h
    · cases h
    rename_i m hm
    split at h
    · cases h
    rename_i row hr
    split at h
    · cases h; exact .latched m row hp hm hr ‹_›
    split at h
    · cases h; exact .tooSmall m row hp hm hr (by omega) ‹_›
    · cases h; exact .noneFits m row hp hm hr (by omega) (by omega)
  · rename_i hp
    unfold packStep at h
    split at h
    · cases h
    rename_i m hm
    split at h
    · rename_i hi
      dsimp only at h
      split at h
      · cases h; exact .illegal m hp hm hi ‹_›
      · cases h; exact .packed m _ hp hm hi ‹_›
    · cases h; exact .allPacked m hp hm (by omega)
  · rename_i hp
    unfold assembleStep at h
    split at h
    · cases h
    rename_i m hm
    split at h
    · exact .ran m _ _ _ hp hm ‹_› (exec_cases h)
    rename_i hf
    split at h
    · rename_i hs
      unfold beginBuffer at h
      split at h
      · cases h; exact .overflow m hp hm hs ‹_›
      · cases h; exact .cleared m hp hm hs (by omega) (by omega)
    · rename_i hs
      cases h
      refine .dataEnd m hp hm hs ?_
      unfold fetchElem at hf
      rw [hs] at hf
      dsimp only at hf
      split at hf
      · cases hf
      · assumption
    · rename_i h1 h2
      cases h
      refine .finished m hp hm ?_
      unfold fetchElem at hf
      cases hs : s.stage <;> rw [hs] at hf <;> dsimp only at hf
      · exact absurd hs h1
      · cases hf
      · cases hf
      · exact absurd hs h2
      · left; split at hf
        · cases hf
        · exact ⟨rfl, by omega⟩
      · right; split at hf
        · cases hf
        · exact ⟨.inl rfl, by omega⟩
      · right; split at hf
        · cases hf
        · exact ⟨.inr rfl, by omega⟩
  all_goals (rename_i hp; cases h; exact .rest (by simp [hp]))

/-- Fetching an element changes the stage and SEG alone. -/
theorem fetchElem_keeps {m : Mode} {s t : State} {i : Instr} (h : fetchElem m s = some (i, t)) :
    t = { s with stage := t.stage, seg := t.seg } := by
  unfold fetchElem at h
  split at h <;> try split at h
  all_goals first | (cases h; rfl) | cases h

/-- A fetched element stands at its stage: an indicator, the head of SEG, the gap or a pad byte. -/
theorem fetchElem_some {m : Mode} {s t : State} {i : Instr} (h : fetchElem m s = some (i, t)) :
    (s.stage = .modeInd ∧ i = modeIndOf m ∧ t = { s with stage := .countInd }) ∨
    (s.stage = .countInd ∧ i = countIndOf m (tier s.ver) s.count ∧ t = { s with stage := .data }) ∨
    (s.stage = .data ∧ ∃ es, s.seg = i :: es ∧ t = { s with seg := es }) ∨
    (s.stage = .gap ∧ i = .gap ∧ ceil8 s.cur < s.row.total ∧ t = { s with stage := .pad0 }) ∨
    (s.stage = .pad0 ∧ i = .pad0 ∧ s.cur < 8 * s.row.total ∧ t = { s with stage := .pad1 }) ∨
    (s.stage = .pad1 ∧ i = .pad1 ∧ s.cur < 8 * s.row.total ∧ t = { s with stage := .pad0 }) := by
  unfold fetchElem at h
  cases hs : s.stage <;> rw [hs] at h <;> dsimp only at h
  · cases h
  · cases h; simp
  · cases h; simp
  · split at h
    · cases h; simp [*]
    · cases h
  all_goals
    split at h
    · cases h; simp [*]
    · cases h

/-! One step of the machine (R240). -/

/-- The next states of a step. `s'` below is always `s` with the access taken off the list. -/
inductive StepTo (s : State) : State → Prop where
  /-- no access to come, or the host waits: the block steps -/
  | block {t : State} (hb : BlockTo s t) : StepTo s t
  /-- a `tick` -/
  | tick {t : State} (rest : List HostOp) (hh : s.host = .tick :: rest) (hb : BlockTo { s with host := rest } t) :
      StepTo s t
  /-- a `wait` that is over, or a read -/
  | read (op : HostOp) (rest : List HostOp) (v f : Nat) (hh : s.host = op :: rest)
      (ho : op = .wait ∨ (∃ n, op = .readReg n) ∨ (∃ a, op = .readText a) ∨ ∃ a, op = .readCw a) :
      StepTo s { s with host := rest, dout := v, freeReads := f }
  /-- a write that is ignored, or a NOP -/
  | ignored (op : HostOp) (rest : List HostOp) (hh : s.host = op :: rest)
      (ho : (∃ n w, op = .writeReg n w) ∨ ∃ a r, op = .writeText a r) : StepTo s { s with host := rest }
  /-- an ENCODE command -/
  | started (w : CmdWord) (rest : List HostOp) (l : Level) (n : BitVec 13) (hh : s.host = .writeReg 0 w :: rest)
      (hg : cmdGo w = true) (hl : l = Level.ofCode (cmdLvl w)) (hn : n = cmdLen w) (hb : s.busy = false) :
      StepTo s (({ s with host := rest } : State).startJob l n.toNat)
  /-- a TEXT write -/
  | wrote (a : Nat) (r : Rec) (rest : List HostOp) (hh : s.host = .writeText a r :: rest) (hb : s.busy = false)
      (ha : a < textMax) : StepTo s { s with host := rest, text := Memory.write s.text a r }
  /-- reset -/
  | reset (rest : List HostOp) (hh : s.host = .reset :: rest) :
      StepTo s (({ s with host := rest } : State).resetBlock)

/-- What the execution of a command word is (R91, R230 to R232). -/
theorem exec_decodeCommand (w : CmdWord) (s : State) :
    exec (decodeCommand w) s =
      if cmdGo w then encodeCommand (Level.ofCode (cmdLvl w)) (cmdLen w) s else .next s := by
  unfold decodeCommand
  split
  · generalize Level.ofCode (cmdLvl w) = l
    cases l <;> rfl
  · rfl

theorem step_to {s t : State} (h : step s = .next t) : StepTo s t := by
  unfold step turn at h
  split at h
  · exact .block (blockStep_to h)
  · exact .tick _ ‹_› (blockStep_to h)
  · rename_i rest hh
    split at h
    · exact .block (blockStep_to h)
    · cases h; exact .read .wait rest _ s.freeReads hh (.inl rfl)
  · rename_i op rest _ _ hh
    unfold hostAccess at h
    split at h
    · unfold hostWriteReg at h
      split at h
      · rename_i hn; subst hn
        rw [exec_decodeCommand] at h
        split at h
        · rename_i hg
          unfold encodeCommand at h
          split at h
          · cases h; exact .ignored _ rest hh (.inl ⟨_, _, rfl⟩)
          · rename_i hb
            cases h
            exact .started _ rest _ _ hh hg rfl rfl (eq_false_of_ne_true hb)
        · cases h; exact .ignored _ rest hh (.inl ⟨_, _, rfl⟩)
      · cases h; exact .ignored _ rest hh (.inl ⟨_, _, rfl⟩)
    · unfold hostReadReg at h
      split at h
      · cases h; exact .read _ rest _ _ hh (.inr (.inl ⟨_, rfl⟩))
      · cases h; exact .read _ rest _ s.freeReads hh (.inr (.inl ⟨_, rfl⟩))
    · unfold hostWriteText at h
      split at h
      · cases h; exact .ignored _ rest hh (.inr ⟨_, _, rfl⟩)
      · rename_i hb
        split at h
        · cases h; exact .wrote _ _ rest hh (eq_false_of_ne_true hb) ‹_›
        · cases h
    · unfold hostReadText at h
      split at h
      · cases h; exact .read _ rest _ s.freeReads hh (.inr (.inr (.inl ⟨_, rfl⟩)))
      · cases h
    · unfold hostReadCw at h
      split at h
      · cases h
      · split at h
        · cases h; exact .read _ rest _ _ hh (.inr (.inr (.inr ⟨_, rfl⟩)))
        · cases h; exact .read _ rest _ s.freeReads hh (.inr (.inr (.inr ⟨_, rfl⟩)))
    · cases h; exact .reset rest hh
    · cases h; exact .read _ rest _ s.freeReads hh (.inl rfl)
    · exact absurd rfl ‹HostOp.tick = HostOp.tick → False›

end Sys2Proof.Machine
end

