-- ==== Sys2Proof/Tests/Slice0.lean ====
section
/-! SUPPORT. Tests. Expected values come from the worked vectors of spec/95_test_vectors.md (named A1, E1, K1,
J1, X1 ... there) or, where no vector covers a form, from the encoding of the rule by hand. The witness
theorems at the end show, for each statement with hypotheses, a state and operands that meet them. -/

set_option Elab.async false

namespace Sys2Proof.Tests

open Sys2Proof.Machine

/-! WellFormed: the ill-formed term of each check is refused. -/

theorem test_wf_num3_first : (Instr.num3 10 0 0).wf = false := by decide
theorem test_wf_num3_second : (Instr.num3 0 10 0).wf = false := by decide
theorem test_wf_num3_third : (Instr.num3 0 0 10).wf = false := by decide
theorem test_wf_num2_first : (Instr.num2 10 0).wf = false := by decide
theorem test_wf_num2_second : (Instr.num2 0 10).wf = false := by decide
theorem test_wf_num1 : (Instr.num1 10).wf = false := by decide
theorem test_wf_an2_first : (Instr.an2 45 0).wf = false := by decide
theorem test_wf_an2_second : (Instr.an2 0 45).wf = false := by decide
theorem test_wf_an1 : (Instr.an1 45).wf = false := by decide
theorem test_wf_largest : (Instr.num3 9 9 9).wf = true ∧ (Instr.an2 44 44).wf = true := by decide

/-! Decoding: words written out bit by bit from the spec's encodings, one or more for each constructor. -/

-- R91, R108, P1, P2: 0x005B is (11 << 3) | (1 << 1) | 1
theorem test_decode_encodeM : decodeCommand 0b0000000001011011 = .encodeM 11 := by decide
theorem test_decode_encodeL : decodeCommand 0b1101110110010001 = .encodeL 7090 := by decide
theorem test_decode_encodeQ : decodeCommand 0b0000000000101101 = .encodeQ 5 := by decide
theorem test_decode_encodeH : decodeCommand 0b1111111111111111 = .encodeH 8191 := by decide
theorem test_decode_nop : decodeCommand 0b1111111111111110 = .nop 0x7FFF := by decide
-- R97
theorem test_decode_mi : (decodeAt .modeInd 0b0001).toOption = some .miNumeric ∧
    (decodeAt .modeInd 0b0010).toOption = some .miAlnum ∧ (decodeAt .modeInd 0b0100).toOption = some .miByte ∧
    (decodeAt .modeInd 0b1000).toOption = some .miKanji := by decide
-- R98, with the counts of J2, J41, J45
theorem test_decode_cciN : (decodeAt (.countInd .numeric .t1) 0b0000000101).toOption = some (.cciNT1 5) ∧
    (decodeAt (.countInd .numeric .t2) 0b000110110001).toOption = some (.cciNT2 433) ∧
    (decodeAt (.countInd .numeric .t3) 0b01101110110001).toOption = some (.cciNT3 7089) := by decide
-- J1, J46
theorem test_decode_cciA : (decodeAt (.countInd .alnum .t1) 0b000001011).toOption = some (.cciAT1 11) ∧
    (decodeAt (.countInd .alnum .t2) 0b00011001000).toOption = some (.cciAT2 200) ∧
    (decodeAt (.countInd .alnum .t3) 0b1000011001000).toOption = some (.cciAT3 4296) := by decide
-- J3, J43, J47
theorem test_decode_cciB : (decodeAt (.countInd .byte .t1) 0b00000101).toOption = some (.cciBT1 5) ∧
    (decodeAt (.countInd .byte .t2) 0b0000000011111111).toOption = some (.cciBT2 255) ∧
    (decodeAt (.countInd .byte .t3) 0b0000101110001001).toOption = some (.cciBT3 2953) := by decide
-- J27
theorem test_decode_cciK : (decodeAt (.countInd .kanji .t1) 0b00000010).toOption = some (.cciKT1 2) ∧
    (decodeAt (.countInd .kanji .t2) 0b0001100100).toOption = some (.cciKT2 100) ∧
    (decodeAt (.countInd .kanji .t3) 0b011100011001).toOption = some (.cciKT3 1817) := by decide
-- E2, E5, E8
theorem test_decode_num : (decodeAt .num3 0b0101011001).toOption = some (.num3 3 4 5) ∧
    (decodeAt .num2 0b1000011).toOption = some (.num2 6 7) ∧
    (decodeAt .num1 0b0100).toOption = some (.num1 4) := by decide
-- E12 (`-4`), E17 (`:`)
theorem test_decode_an : (decodeAt .an2 0b11100111001).toOption = some (.an2 41 4) ∧
    (decodeAt .an1 0b101100).toOption = some (.an1 44) := by decide
-- E19, E22
theorem test_decode_byte_kanji : (decodeAt .byte8 0b01101000).toOption = some (.byte8 0x68) ∧
    (decodeAt .kanji13 0b1101010101010).toOption = some (.kanji13 0x1AAA) := by decide
-- R103
theorem test_decode_bytes : (decodeAt .gap 0b00000000).toOption = some .gap ∧
    (decodeAt .pad0 0b11101100).toOption = some .pad0 ∧ (decodeAt .pad1 0b00010001).toOption = some .pad1 := by
  decide
-- rejections, by name (R106 (d), R174 to R180, R103)
theorem test_decode_rejects : decodeAt .modeInd 0 = .error .unassignedModeNibble ∧
    decodeAt .num3 1000 = .error .groupValueOutOfRange ∧ decodeAt .an2 2025 = .error .groupValueOutOfRange ∧
    decodeAt .pad0 0x11 = .error .wrongFixedByte ∧ decodeAt .num1 16 = .error .tooWide ∧
    decodeBits .num2 [true] = .error .truncated := ⟨rfl, rfl, rfl, rfl, rfl, rfl⟩

-- E10, A1: the bits of an encoding, most significant first
theorem test_encode : encode (.an2 17 14) = [false, true, true, false, false, false, false, true, false, true, true] ∧
    encode (.cciAT1 11) = [false, false, false, false, false, true, false, true, true] := by decide

/-! One element each: the buffer before, the cursor, and the buffer and the cursor after. -/

/-- A job in ASSEMBLE with these bytes in CW and the cursor at `g`. -/
def buffer (bytes : List Nat) (g : Nat) : State :=
  { State.reset with
    phase := .assemble, mode := some .numeric, stage := .data, cur := g,
    row := { Row.zero with total := bytes.length },
    cw := (List.range bytes.length).zip (bytes.map (BitVec.ofNat 8)) }

/-- The bytes of CW and the cursor after an element. -/
def after (i : Instr) (s : State) : Option (List Nat × Nat) :=
  match exec i s with
  | .next t => some (t.cw.map fun c => c.2.toNat, t.cur)
  | _ => none

-- A2, J1, J3, J27
theorem test_miNumeric : after .miNumeric (buffer [0, 0] 0) = some ([0x10, 0], 4) := by decide
theorem test_miAlnum : after .miAlnum (buffer [0, 0] 0) = some ([0x20, 0], 4) := by decide
theorem test_miByte : after .miByte (buffer [0, 0] 0) = some ([0x40, 0], 4) := by decide
theorem test_miKanji : after .miKanji (buffer [0, 0] 0) = some ([0x80, 0], 4) := by decide
-- A2
theorem test_cciNT1 : after (.cciNT1 5) (buffer [0x10, 0] 4) = some ([0x10, 0x14], 14) := by decide
-- J41 (begins 11 B1), J45 (begins 16 EC 4)
theorem test_cciNT2 : after (.cciNT2 433) (buffer [0x10, 0] 4) = some ([0x11, 0xB1], 16) := by decide
theorem test_cciNT3 : after (.cciNT3 7089) (buffer [0x10, 0, 0] 4) = some ([0x16, 0xEC, 0x40], 18) := by decide
-- A1; 0010 00011001000 by hand; J46 (begins 28 64)
theorem test_cciAT1 : after (.cciAT1 11) (buffer [0x20, 0] 4) = some ([0x20, 0x58], 13) := by decide
theorem test_cciAT2 : after (.cciAT2 200) (buffer [0x20, 0] 4) = some ([0x21, 0x90], 15) := by decide
theorem test_cciAT3 : after (.cciAT3 4296) (buffer [0x20, 0, 0] 4) = some ([0x28, 0x64, 0], 17) := by decide
-- J3 (40 5), J43 (40 0F F), J47 (40 B8 9)
theorem test_cciBT1 : after (.cciBT1 5) (buffer [0x40, 0] 4) = some ([0x40, 0x50], 12) := by decide
theorem test_cciBT2 : after (.cciBT2 255) (buffer [0x40, 0, 0] 4) = some ([0x40, 0x0F, 0xF0], 20) := by decide
theorem test_cciBT3 : after (.cciBT3 2953) (buffer [0x40, 0, 0] 4) = some ([0x40, 0xB8, 0x90], 20) := by decide
-- J27 (80 2); 1000 0001100100 and 1000 011100011001 by hand
theorem test_cciKT1 : after (.cciKT1 2) (buffer [0x80, 0] 4) = some ([0x80, 0x20], 12) := by decide
theorem test_cciKT2 : after (.cciKT2 100) (buffer [0x80, 0] 4) = some ([0x81, 0x90], 14) := by decide
theorem test_cciKT3 : after (.cciKT3 1817) (buffer [0x80, 0] 4) = some ([0x87, 0x19], 16) := by decide
-- A2, E2
theorem test_num3 : after (.num3 1 2 3) (buffer [0x10, 0x14, 0] 14) = some ([0x10, 0x14, 0x7B], 24) := by decide
theorem test_num3_345 : after (.num3 3 4 5) (buffer [0, 0] 0) = some ([0x56, 0x40], 10) := by decide
-- J2, E5
theorem test_num2 : after (.num2 4 5) (buffer [0x10, 0x14, 0x7B, 0] 24) = some ([0x10, 0x14, 0x7B, 0x5A], 31) := by
  decide
theorem test_num2_67 : after (.num2 6 7) (buffer [0] 0) = some ([0x86], 7) := by decide
-- J7, J12
theorem test_num1 : after (.num1 1) (buffer [0x10, 0x04, 0] 14) = some ([0x10, 0x04, 0x40], 18) := by decide
theorem test_num1_0 : after (.num1 0) (buffer [0x10, 0x04, 0] 14) = some ([0x10, 0x04, 0], 18) := by decide
-- J1 (HE), J16 (::)
theorem test_an2 : after (.an2 17 14) (buffer [0x20, 0x58, 0] 13) = some ([0x20, 0x5B, 0x0B], 24) := by decide
theorem test_an2_max : after (.an2 44 44) (buffer [0x20, 0x10, 0] 13) = some ([0x20, 0x17, 0xE8], 24) := by decide
-- J13, J15
theorem test_an1 : after (.an1 10) (buffer [0x20, 0x08, 0] 13) = some ([0x20, 0x09, 0x40], 19) := by decide
theorem test_an1_max : after (.an1 44) (buffer [0x20, 0x08, 0] 13) = some ([0x20, 0x0D, 0x80], 19) := by decide
-- J20, J22
theorem test_byte8 : after (.byte8 0x61) (buffer [0x40, 0x10, 0] 12) = some ([0x40, 0x16, 0x10], 20) := by decide
theorem test_byte8_second :
    after (.byte8 0xA9) (buffer [0x40, 0x1C, 0x30, 0] 20) = some ([0x40, 0x1C, 0x3A, 0x90], 28) := by decide
-- A7, J27
theorem test_kanji13 : after (.kanji13 0x1FFF) (buffer [0, 0, 0] 6) = some ([0x03, 0xFF, 0xE0], 19) := by decide
theorem test_kanji13_0D9F :
    after (.kanji13 0x0D9F) (buffer [0x80, 0x20, 0, 0] 12) = some ([0x80, 0x26, 0xCF, 0x80], 25) := by decide
-- J2: P = 31, E = 4; J9: P = 24 on a byte boundary and the gap is still a whole byte
theorem test_gap : after .gap (buffer [0x10, 0x14, 0x7B, 0x5A, 0, 0] 31) =
    some ([0x10, 0x14, 0x7B, 0x5A, 0, 0], 40) := by decide
theorem test_gap_aligned : after .gap (buffer [0x10, 0x0C, 0x7B, 0, 0] 24) = some ([0x10, 0x0C, 0x7B, 0, 0], 32) := by
  decide
-- J36: E = T - 1, a gap and no pad; J37: E = T, neither
theorem test_gap_last : after .gap (buffer [0, 0] 15) = some ([0, 0], 16) := by decide
-- J4
theorem test_pad0 : after .pad0 (buffer [0x10, 0, 0, 0, 0] 24) = some ([0x10, 0, 0, 0xEC, 0], 32) := by decide
theorem test_pad0_full : after .pad0 (buffer [0x10, 0] 16) = some ([0x10, 0], 16) := by decide
theorem test_pad1 : after .pad1 (buffer [0x10, 0, 0, 0xEC, 0] 32) = some ([0x10, 0, 0, 0xEC, 0x11], 40) := by decide

-- A3 to A6: the APPEND vectors that no element covers
theorem test_append_split : append 0 [(0, 0), (1, 0)] 7 2 3 = [(0, 0x01), (1, 0x80)] := by decide
theorem test_append_widest :
    append 0 [(0, 0), (1, 0), (2, 0)] 5 16 0xFFFF = [(0, 0x07), (1, 0xFF), (2, 0xF8)] := by decide
theorem test_append_empty : append 0 [(0, 0), (1, 0)] 3 0 0 = [(0, 0), (1, 0)] := by decide

/-! Commands. -/

/-- The registers after a command at reset. -/
def regsAfter (i : Instr) (s : State) : Option (List Nat) :=
  match exec i s with
  | .next t => some ((List.range 17).map fun n => readReg n t)
  | _ => none

-- R230: STATUS = BUSY, LVL_R, LEN_R, everything else 0
theorem test_encodeL : regsAfter (.encodeL 7090) State.reset =
    some [0, 1, 0, 7090, 0, 0, 0, 0, 0, 0, 0, 0, 0, 0, 0, 0, 0] := by decide
theorem test_encodeM : regsAfter (.encodeM 11) State.reset =
    some [0, 1, 1, 11, 0, 0, 0, 0, 0, 0, 0, 0, 0, 0, 0, 0, 0] := by decide
theorem test_encodeQ : regsAfter (.encodeQ 5) State.reset =
    some [0, 1, 2, 5, 0, 0, 0, 0, 0, 0, 0, 0, 0, 0, 0, 0, 0] := by decide
theorem test_encodeH : regsAfter (.encodeH 8191) State.reset =
    some [0, 1, 3, 8191, 0, 0, 0, 0, 0, 0, 0, 0, 0, 0, 0, 0, 0] := by decide
-- R232: ignored while BUSY
theorem test_encode_busy : regsAfter (.encodeH 3) (State.reset.startJob .M 11) =
    regsAfter (.nop 0) (State.reset.startJob .M 11) := by decide
theorem test_nop : regsAfter (.nop 0x7FFF) (State.reset.startJob .M 11) =
    some [0, 1, 1, 11, 0, 0, 0, 0, 0, 0, 0, 0, 0, 0, 0, 0, 0] := by decide

/-! The classifier, the selector and whole jobs. -/

/-- A record of an ASCII character. -/
def ascii (c : Nat) : Rec := mkRec (BitVec.ofNat 32 c) 0 (BitVec.ofNat 21 c)

/-- A record of a code point with its raw bytes. -/
def rec' (c : Nat) (raw : List Nat) : Rec :=
  mkRec (BitVec.ofNat 32 (raw.foldr (fun b acc => b + 256 * acc) 0)) (BitVec.ofNat 2 (raw.length - 1)) (BitVec.ofNat 21 c)

-- K1 to K4, K9, K13, K19
theorem test_classify :
    [[0x31, 0x32, 0x33, 0x34, 0x35], [0x48, 0x45, 0x4C, 0x4C, 0x4F, 0x20, 0x57], [0x68, 0x65], [0x6F22, 0x61],
      [0x41, 0x6F22], [0x41, 0x61, 0x6F22], [0xFF21]].map (classify defaultConfig) =
    [.numeric, .alnum, .byte, .byte, .kanji, .byte, .byte] := by decide

/-- The version selected, 0 for none. -/
def selected (m : Mode) (l : Level) (n : Nat) : Nat := ((selectVersion defaultConfig l m n).map Prod.fst).getD 0

-- spec/95 section 5
theorem test_select : [selected .numeric .L 41, selected .numeric .L 42, selected .numeric .M 433,
    selected .numeric .L 7089, selected .numeric .L 7090, selected .alnum .M 20, selected .byte .L 231,
    selected .kanji .H 5] = [1, 2, 10, 40, 0, 1, 10, 2] := by decide +kernel

-- spec/95 section 6
theorem test_dataBits : [dataBits .numeric 5 0, dataBits .numeric 7089 0, dataBits .alnum 11 0, dataBits .byte 3 5,
    dataBits .kanji 10 0] = [17, 23630, 61, 40, 130] := by decide

/-- What a host sees at the end of a job by the whole-job function. -/
def job (cfg : Config) (l : Level) (txt : List Rec) : Except JobError (Nat × List Nat) :=
  (encodeJob cfg l txt).map fun r => (r.req, r.cw.map BitVec.toNat)

def hello : List Rec := [0x48, 0x45, 0x4C, 0x4C, 0x4F, 0x20, 0x57, 0x4F, 0x52, 0x4C, 0x44].map ascii

-- J1
theorem test_job_J1 : job defaultConfig .M hello = .ok (74, [0x20, 0x5B, 0x0B, 0x78, 0xD1, 0x72, 0xDC, 0x4D, 0x43,
    0x40, 0x00, 0xEC, 0x11, 0xEC, 0x11, 0xEC]) := by rfl
-- J4
theorem test_job_J4 : job defaultConfig .H [] =
    .ok (14, [0x10, 0, 0, 0xEC, 0x11, 0xEC, 0x11, 0xEC, 0x11]) := by rfl
-- X3, X11
theorem test_job_X3 : job defaultConfig .L [rec' 0x6F22 [0xE6, 0xBC, 0xA2]] = .error .invalidCharacterForMode := by rfl
theorem test_job_X11 : job defaultConfig .L (List.replicate 17 (rec' 0xE9 [0xC3, 0xA9])) =
    .error .capacityOverflow := by rfl

/-! Witnesses: states and operands that meet the hypotheses of the statements. -/

/-- A state whose next host access is `op`. -/
def withOp (op : HostOp) (s : State) : State := { s with host := [op] }

/-- A job of one Byte character, its scan halted. -/
def haltedJob : State :=
  { State.reset.startJob .L 1 with
    text := [(0, ascii 0x68)], idx := 1, scanMode := .byte, scanHalted := true }

/-- A job just started on the empty text. -/
def emptyJob : State := State.reset.startJob .L 0

/-- The empty text's job in ASSEMBLE, the buffer cleared. -/
def emptyAssembly : State :=
  { State.reset.startJob .H 0 with
    mode := some .numeric, ver := 1, row := ⟨17, 10, 7, 4, 9, 1, 9, 0, 0⟩, req := 14, phase := .assemble,
    cw := zeroFill 9 [], cur := 0, stage := .modeInd }

theorem inv_emptyJob : Inv emptyJob :=
  ⟨by decide +kernel, by decide, by decide, by decide, by decide, by decide, by decide, by decide, by decide,
    by decide, by decide, by decide, rfl, rfl, ⟨rfl, rfl, rfl⟩, rfl⟩

theorem inv_haltedJob : Inv haltedJob :=
  ⟨by decide +kernel, by decide, by decide, by decide, by decide, by decide, by decide, by decide, by decide,
    by decide, by decide, by decide, rfl, rfl, ⟨rfl, rfl, rfl⟩, rfl⟩

theorem inv_emptyAssembly : Inv emptyAssembly := by
  refine ⟨by decide +kernel, by decide, by decide, by decide, by decide +kernel, by decide, by decide, by decide,
    by decide, by decide, by decide, by decide, .numeric, ⟨rfl, rfl, rfl, rfl⟩, rfl, ⟨[], rfl⟩, ⟨rfl, rfl⟩, ?_⟩
  intro _
  refine ⟨by decide, by decide, ?_⟩
  have key : ∀ a, a < 9 → (Memory.read (zeroFill 9 []) a).isSome = true := by decide
  exact key

theorem witness_ResetEndsAnyJobAndZeroesRegisters :
    (withOp .reset emptyAssembly).host = .reset :: [] ∧ (withOp .reset emptyAssembly).busy = true := by decide

theorem witness_ResetLeavesTextAndCwFree : (withOp .reset haltedJob).host = .reset :: [] := rfl

theorem witness_EveryStepKeepsTheInvariant : ∃ t, Inv emptyAssembly ∧ step emptyAssembly = .next t :=
  ⟨_, inv_emptyAssembly, rfl⟩

theorem witness_ConfigurationIsNeverWritten : ∃ t, step (withOp .reset emptyJob) = .next t := ⟨_, rfl⟩

theorem witness_ErrIsSetExactlyInError : ∃ t, (errCode emptyJob.err ≠ 0 ↔ stateCode emptyJob.phase = 3) ∧
    step emptyJob = .next t := ⟨_, by decide, rfl⟩

theorem witness_RegistersStayWithinTheirWidths : Inv haltedJob := inv_haltedJob

theorem witness_OnlyABadHostAddressStops :
    (Inv (withOp (.readText 8191) emptyJob) ∧ step (withOp (.readText 8191) emptyJob) = .fault (.textAddress 8191)) ∧
    (Inv (withOp (.readCw 2956) emptyJob) ∧ step (withOp (.readCw 2956) emptyJob) = .fault (.cwAddress 2956)) := by
  have h (op : HostOp) : Inv (withOp op emptyJob) := by
    have := inv_emptyJob
    exact ⟨this.cfg_wf, this.text_wf, this.text_in, this.cw_wf, this.cw_in, this.err_iff, this.len_le, this.count_le,
      this.ver_le, this.row_fits, this.req_le, this.idx_le, this.phase_inv⟩
  refine ⟨⟨h _, rfl⟩, h _, ?_⟩
  have hc : emptyJob.cfg.cwMax ≤ 2956 := by decide +kernel
  show hostReadCw 2956 emptyJob = _
  exact if_pos hc

theorem witness_OnlyTheListedPhaseChanges :
    (∃ t, step (withOp (.writeReg 0 0x0001) State.reset) = .next t ∧ t.phase ≠ State.reset.phase) ∧
    (∃ t, step (withOp .reset emptyAssembly) = .next t ∧ t.phase ≠ emptyAssembly.phase) ∧
    (∃ t, Inv emptyJob ∧ step emptyJob = .next t ∧ t.phase ≠ emptyJob.phase) ∧
    ∃ t, step { emptyAssembly with stage := .pad0, cur := 72 } = .next t ∧ t.phase ≠ emptyAssembly.phase :=
  ⟨⟨_, rfl, by decide⟩, ⟨_, rfl, by decide⟩, ⟨_, inv_emptyJob, rfl, by decide⟩, _, rfl, by decide⟩

theorem witness_EveryCommandWordIsOneForm :
    (0xFFFE : CmdWord).toNat % 2 = 0 ∧ (0xFFF9 : CmdWord).toNat / 2 % 4 = 0 ∧ (0xFFFB : CmdWord).toNat / 2 % 4 = 1 ∧
    (0xFFFD : CmdWord).toNat / 2 % 4 = 2 ∧ (0xFFFF : CmdWord).toNat / 2 % 4 = 3 ∧
    (0xFFF9 : CmdWord).toNat % 2 = 1 ∧ (0xFFFB : CmdWord).toNat % 2 = 1 ∧ (0xFFFD : CmdWord).toNat % 2 = 1 ∧
    (0xFFFF : CmdWord).toNat % 2 = 1 := by decide

theorem witness_DecodingAnEncodingGivesItBack : (Instr.an2 44 44).wf = true := by decide

theorem witness_WhatDecodesIsItsEncoding : decodeAt .an2 2024 = .ok (.an2 44 44) := rfl

theorem witness_PackedSegmentsReadBack :
    pack defaultConfig .numeric ([0x31, 0x32, 0x33, 0x34].map ascii) = some [.num3 1 2 3, .num1 4] ∧
    pack defaultConfig .alnum ([0x41, 0x3A, 0x30].map ascii) = some [.an2 10 44, .an1 0] ∧
    pack defaultConfig .byte [rec' 0xE9 [0xC3, 0xA9]] = some [.byte8 0xC3, .byte8 0xA9] ∧
    pack { defaultConfig with kanji := [(0x6F22, 8191)] } .kanji [ascii 0x6F22] = some [.kanji13 8191] := by decide

theorem witness_RowWordHoldsTheNineFields :
    (⟨8191, 8191, 4095, 2047, 4095, 255, 255, 255, 255⟩ : Row).fits = true := by decide

theorem witness_EncodeCommandsStartAJob : State.reset.busy = false ∧ emptyJob.busy = true := by decide

theorem witness_WritesWhileBusyAreIgnored : emptyJob.busy = true ∧
    (withOp (.writeReg 0 0x0007) emptyJob).host = .writeReg 0 0x0007 :: [] ∧
    (withOp (.writeText 8190 (ascii 0x41)) emptyJob).host = .writeText 8190 (ascii 0x41) :: [] := by decide

theorem witness_StepRunsTheDecodedCommand :
    (withOp (.writeReg 0 0x005B) State.reset).host = .writeReg 0 0x005B :: [] := rfl

/-- One state at each stage of ASSEMBLE. -/
def atStage (st : Stage) (seg : List Instr) (g : Nat) : State := { buffer [0, 0, 0] g with stage := st, seg := seg }

theorem witness_StepRunsTheElementAtTheCursor :
    (atStage .modeInd [] 0).phase = .assemble ∧ (atStage .modeInd [] 0).mode = some .numeric ∧
    (atStage .modeInd [] 0).host = [] ∧ (atStage .countInd [] 4).stage = .countInd ∧
    (atStage .data [.num1 1] 14).seg = .num1 1 :: [] ∧
    ceil8 (atStage .gap [] 16).cur < (atStage .gap [] 16).row.total ∧
    (atStage .pad0 [] 16).cur < 8 * (atStage .pad0 [] 16).row.total ∧
    (atStage .pad1 [] 16).cur < 8 * (atStage .pad1 [] 16).row.total := by decide

theorem witness_CursorOnlyAdvances : ∃ t, Inv emptyAssembly ∧ emptyAssembly.phase = .assemble ∧
    emptyAssembly.stage ≠ .test ∧ step emptyAssembly = .next t ∧ (t.phase = .assemble ∨ t.phase = .done) :=
  ⟨_, inv_emptyAssembly, rfl, by decide, rfl, .inl rfl⟩

/-- The last place where `n` bits fit, in a buffer of three bytes. -/
theorem witness_Fits : ∀ n ∈ [4, 6, 7, 8, 9, 10, 11, 12, 13, 14, 16], Fits (buffer [0, 0, 0] (24 - n)) n := by
  unfold Fits
  decide

theorem witness_ModeIndicatorsWriteTheirNibble :
    Fits (buffer [0, 0] 0) 4 ∧ (buffer [0, 0] 0).cur = 0 ∧ (buffer [0, 0] 0).cwByte 0 = 0 :=
  ⟨show 4 ≤ 16 by decide, rfl, rfl⟩

theorem witness_CountIndicatorsWriteTheCount :
    (2 ^ 16 - 1 < 2 ^ countWidth (tier 40) .byte ∧ Fits (buffer [0, 0, 0] 8) (countWidth (tier 40) .byte)) ∧
    (511 < 2 ^ countWidth (tier 9) .alnum ∧ Fits (buffer [0, 0, 0] 15) (countWidth (tier 9) .alnum)) := by
  unfold Fits
  decide

theorem witness_NumericGroupsWriteTheirValue :
    9 < 10 ∧ Fits (buffer [0, 0, 0] 14) 10 ∧ Fits (buffer [0, 0, 0] 17) 7 ∧ Fits (buffer [0, 0, 0] 20) 4 := by
  unfold Fits
  decide

theorem witness_AlphanumericGroupsWriteTheirValue :
    44 < 45 ∧ Fits (buffer [0, 0, 0] 13) 11 ∧ Fits (buffer [0, 0, 0] 18) 6 := by
  unfold Fits
  decide

theorem witness_ByteAndKanjiElementsWriteTheirValue :
    Fits (buffer [0, 0, 0] 16) 8 ∧ Fits (buffer [0, 0, 0] 11) 13 := by
  unfold Fits
  decide

theorem witness_PadBytesFillThePosition :
    ceil8 (buffer [0, 0, 0] 16).cur < (buffer [0, 0, 0] 16).row.total ∧
    (buffer [0, 0, 0] 24).row.total ≤ ceil8 (buffer [0, 0, 0] 24).cur := by decide

theorem witness_ElementsPastTheEndRaiseOverflow :
    (Instr.num3 9 9 9).slot ≠ .command ∧ Instr.num3 9 9 9 ≠ .gap ∧ Instr.num3 9 9 9 ≠ .pad0 ∧
    Instr.num3 9 9 9 ≠ .pad1 ∧ ¬ Fits (buffer [0, 0, 0] 15) (Instr.num3 9 9 9).width := by
  unfold Fits
  decide

theorem witness_AppendOrsTheValueBits :
    (1 < 2 ^ 1 ∧ Fits (buffer [0, 0, 0] 23) 1) ∧ 0xFFFF < 2 ^ 16 ∧ Fits (buffer [0, 0, 0] 8) 16 := by
  unfold Fits
  decide

theorem witness_BytewiseAppendIsTheSame :
    1 ≤ 16 ∧ 0xFFFF < 2 ^ 16 ∧
    appendBytewise 0 3 [(0, 0), (1, 0), (2, 0)] 7 16 0xFFFF = [(0, 0x01), (1, 0xFF), (2, 0xFE)] := by decide

theorem witness_FoldedStepsAreTheScan :
    isDigit 0x39 = true ∧ (isDigit 0x3A = false ∧ (isUpper 0x3A || isSym9 0x3A) = true) ∧
    (isDigit 0x9FFF = false ∧ (isUpper 0x9FFF || isSym9 0x9FFF) = false ∧ isCJK defaultConfig 0x9FFF = true) ∧
    (isDigit 0xA000 = false ∧ (isUpper 0xA000 || isSym9 0xA000) = false ∧ isCJK defaultConfig 0xA000 = false) := by
  decide

-- K13
theorem witness_ByteExactlyWithATrigger :
    byteTrigger defaultConfig 0x61 = true ∧ ∀ x ∈ [0x41], byteTrigger defaultConfig x = false := by decide

-- K10 and trailing digits
theorem witness_LastNonDigitDecides :
    (∀ x ∈ [0x6F22, 0x41] ++ [0x6F22], byteTrigger defaultConfig x = false) ∧ isDigit 0x6F22 = false ∧
    ∀ d ∈ [0x30, 0x39], isDigit d = true := by decide

theorem witness_ClassifyWritesModeAndCount :
    (Inv emptyJob ∧ emptyJob.phase = .classify ∧ emptyJob.host = [] ∧ emptyJob.idx = emptyJob.lenR) ∧
    (Inv haltedJob ∧ haltedJob.phase = .classify ∧ haltedJob.host = [] ∧ haltedJob.scanHalted = true) :=
  ⟨⟨inv_emptyJob, rfl, rfl, rfl⟩, inv_haltedJob, rfl, rfl, rfl⟩

theorem witness_SelectionIsTheFirstFit :
    (selectVersion defaultConfig .L .numeric 0).map Prod.fst = some 1 ∧
    (selectVersion defaultConfig .L .numeric 7089).map Prod.fst = some 40 := by decide +kernel

theorem witness_NoVersionFitsExactlyWhenNoneDoes :
    defaultConfig.wf = true ∧ selectVersion defaultConfig .L .numeric 7090 = none := by decide +kernel

theorem witness_PackedLengthIsD :
    pack defaultConfig .numeric ([0x31, 0x32].map ascii) = some [.num2 1 2] ∧
    pack defaultConfig .alnum ([0x31, 0x32, 0x41].map ascii) = some [.an2 1 2, .an1 10] ∧
    pack defaultConfig .byte [rec' 0x6F22 [0xE6, 0xBC, 0xA2]] = some [.byte8 0xE6, .byte8 0xBC, .byte8 0xA2] ∧
    pack { defaultConfig with kanji := [(0x6F22, 0)] } .kanji [ascii 0x6F22] = some [.kanji13 0] := by decide

theorem witness_AlphabetHasFortyFiveValues : alpha 0x39 = some 9 ∧ alpha 0x5A = some 35 ∧ alpha 0x3A = some 44 := by
  decide

-- K1, K3, X1, X3
theorem witness_WhenAnInvalidCharacterIsReached :
    classify defaultConfig ([ascii 0x31].map recCp) = .numeric ∧ classify defaultConfig ([ascii 0x68].map recCp) = .byte ∧
    classify defaultConfig ([ascii 0x6F22, ascii 0x41].map recCp) = .alnum ∧
    pack defaultConfig .alnum [ascii 0x6F22, ascii 0x41] = none ∧
    classify defaultConfig ([ascii 0x6F22].map recCp) = .kanji ∧ pack defaultConfig .kanji [ascii 0x6F22] = none := by
  decide

/-- A job that ended in an error. -/
def failed : State := emptyJob.raise .noVersionFits

theorem witness_ErrorIsLeftOnlyByCommandOrReset :
    (failed.phase = .error ∧ ∃ t, step failed = .next t ∧ t.phase = .error) ∧
    (∃ t, step (withOp (.writeReg 0 0x0001) failed) = .next t ∧ t.phase = .classify) ∧
    ∃ t, step (withOp .reset failed) = .next t ∧ t.phase = .idle :=
  ⟨⟨rfl, _, rfl, rfl⟩, ⟨_, rfl, rfl⟩, _, rfl, rfl⟩

theorem witness_TextChangesOnlyByTheHost :
    ∃ t, step (withOp (.writeText 8190 (ascii 0x41)) State.reset) = .next t ∧ t.textRec 8190 = ascii 0x41 :=
  ⟨_, rfl, rfl⟩

theorem witness_CwBeyondTotalIsNotWritten :
    ∃ t, step emptyAssembly = .next t ∧ (t.phase ≠ .error ∨ emptyAssembly.phase = .error) ∧
      (∀ rest, emptyAssembly.host ≠ .reset :: rest) ∧ emptyAssembly.row.total ≤ 9 :=
  ⟨_, rfl, .inl (by decide), fun _ h => (nomatch (show ([] : List HostOp) = _ from h)), by decide⟩

/-- A job that ended DONE. -/
def done : State := emptyAssembly.finish

theorem witness_ResultLivesUntilTheNextJob :
    ∃ t, done.phase = .done ∧ step (withOp (.writeReg 0 0xFFFE) done) = .next t ∧
      (∀ w rest, (withOp (.writeReg 0 0xFFFE) done).host = .writeReg 0 w :: rest → w.toNat % 2 = 0) ∧
      ∀ rest, (withOp (.writeReg 0 0xFFFE) done).host ≠ .reset :: rest := by
  refine ⟨_, rfl, rfl, ?_, ?_⟩
  · intro w rest h
    have h : [HostOp.writeReg 0 0xFFFE] = .writeReg 0 w :: rest := h
    cases h
    decide
  · intro rest h
    have h : [HostOp.writeReg 0 0xFFFE] = .reset :: rest := h
    cases h

theorem witness_RegisterReadsAndIgnoredWrites :
    ((withOp (.readReg 16) done).host = .readReg 16 :: [] ∧ done.busy = false) ∧
    (withOp (.readReg 1) emptyJob).host = .readReg 1 :: [] ∧
    (withOp (.writeReg 1 0x0001) State.reset).host = .writeReg 1 0x0001 :: [] ∧ 17 ≤ 17 := by decide

theorem witness_MemoryReadsReturnTheStoredUnit :
    ((withOp (.readText 8190) emptyJob).host = .readText 8190 :: [] ∧ 8190 < textMax) ∧
    ((withOp (.readCw 2955) done).host = .readCw 2955 :: [] ∧ 2955 < done.cfg.cwMax ∧ done.busy = false) := by
  decide +kernel

theorem witness_ReadsWhileBusyAreFree :
    emptyJob.busy = true ∧ (withOp (.readReg 2) emptyJob).host = .readReg 2 :: [] ∧
    (withOp (.readReg 16) emptyJob).host = .readReg 16 :: [] ∧ 0 < emptyJob.cfg.cwMax ∧
    (withOp (.readCw 0) emptyJob).host = .readCw 0 :: [] := by decide +kernel

theorem witness_AddressesOutsideTheSpacesFault :
    ((withOp (.readText 8191) State.reset).host = .readText 8191 :: [] ∧ textMax ≤ 8191) ∧
    ((withOp (.writeText 8191 0) State.reset).host = .writeText 8191 0 :: [] ∧ State.reset.busy = false) ∧
    ((withOp (.readCw 2956) State.reset).host = .readCw 2956 :: [] ∧ State.reset.cfg.cwMax ≤ 2956) := by
  decide +kernel

theorem witness_TextWritesStoreTheRecord :
    (withOp (.writeText 8190 (ascii 0x41)) State.reset).host = .writeText 8190 (ascii 0x41) :: [] ∧
    State.reset.busy = false ∧ 8190 < textMax := by decide

-- J4: E = 2, T = 9
theorem witness_GapAndPadPositions : ∃ r, encodeJob defaultConfig .H [] = .ok r ∧ ceil8 r.req < r.row.total ∧
    ceil8 r.req + 1 + 2 * 2 < r.row.total ∧ ceil8 r.req + 2 + 2 * 2 < r.row.total :=
  ⟨_, rfl, by decide, by decide, by decide⟩

-- X11
theorem witness_OverflowOnlyFromWideCharacters :
    romWellFormed defaultConfig = true ∧
    encodeJob defaultConfig .L (List.replicate 17 (rec' 0xE9 [0xC3, 0xA9])) = .error .capacityOverflow :=
  ⟨by decide +kernel, rfl⟩

/-- A machine with a one-character job to come, and one with a failed job behind it. -/
def fresh : State := { State.reset with host := jobScript .L [ascii 0x31] }
def used : State := { failed with host := jobScript .L [ascii 0x31] }

theorem witness_JobsEndAsTheFunctionSays :
    fresh.cfg.wf = true ∧ fresh.busy = false ∧ [ascii 0x31].length ≤ textMax ∧
    fresh.host = jobScript .L [ascii 0x31] ++ [] := by decide +kernel

theorem witness_SameJobSameResult :
    fresh.cfg = used.cfg ∧ fresh.cfg.wf = true ∧ [ascii 0x31].length ≤ textMax ∧ fresh.busy = false ∧
    fresh.host = jobScript .L [ascii 0x31] ++ [] ∧ used.busy = false ∧ used.host = jobScript .L [ascii 0x31] ++ [] := by
  decide +kernel

theorem witness_EveryJobEnds : Inv haltedJob ∧ haltedJob.busy = true ∧ haltedJob.host = [] :=
  ⟨inv_haltedJob, rfl, rfl⟩

end Sys2Proof.Tests
end

section
/-! The configuration along a step (spec/00_scope.md R9): each of the three inversion lemmas of the model's laws
(`ExecTo`, `BlockTo`, `StepTo`) has its frame lemma for `cfg`. -/

namespace Sys2Proof.Machine

/-- A fetched element is run under the same configuration: fetching changes the stage and SEG alone. -/
theorem fetchElem_cfg {m : Mode} {s t : State} {i : Instr} (h : fetchElem m s = some (i, t)) : t.cfg = s.cfg := by
  rw [fetchElem_keeps h]

/-- No operation of the opcode table changes the configuration. -/
theorem ExecTo.cfg_eq {i : Instr} {s t : State} (h : ExecTo i s t) : t.cfg = s.cfg := by
  cases h with
  | same | appended | skipped | padded => rfl
  | started l n => exact State.startJob_cfg s l n.toNat
  | overflowed => exact State.raise_cfg s _

/-- No step of the block changes the configuration. -/
theorem BlockTo.cfg_eq {s t : State} (h : BlockTo s t) : t.cfg = s.cfg := by
  cases h with
  | rest | scanned | classified | tooSmall | packed | allPacked | cleared | dataEnd => rfl
  | latched m row => exact State.latchVersion_cfg s row
  | noneFits | illegal | overflow => exact State.raise_cfg s _
  | finished => exact State.finish_cfg s
  | ran m i u t hp hm hf hi => exact hi.cfg_eq.trans (fetchElem_cfg hf)

/-- Neither the block nor a host access changes the configuration. -/
theorem StepTo.cfg_eq {s t : State} (h : StepTo s t) : t.cfg = s.cfg := by
  cases h with
  | block hb => exact hb.cfg_eq
  | tick rest hh hb => exact hb.cfg_eq
  | read | ignored | wrote => rfl
  | started w rest l n => exact State.startJob_cfg _ l n.toNat
  | reset rest => exact State.resetBlock_cfg _

/-- Settles O5: everything a step can do (`step_to`) leaves the configuration alone. -/
theorem configurationIsNeverWritten : Obligations.ConfigurationIsNeverWritten :=
  fun _ _ h => (step_to h).cfg_eq

end Sys2Proof.Machine
end

section
/-! Host accesses (spec/45_encode_command.md R240): a step on an access that is neither a `tick` nor a `wait` is that
access, so each statement about one access is the meaning of that access alone. -/

namespace Sys2Proof.Machine

variable {s : State} {rest : List HostOp}

/-- The access at the head of the list happens, in the state with it taken off. -/
theorem step_eq_hostAccess {op : HostOp} (hh : s.host = op :: rest) (ht : op ≠ .tick) (hw : op ≠ .wait) :
    step s = hostAccess op { s with host := rest } := by
  unfold step turn
  rw [hh]
  cases op
  case tick => exact absurd rfl ht
  case wait => exact absurd rfl hw
  all_goals rfl

theorem step_writeReg {n : Nat} {w : CmdWord} (hh : s.host = .writeReg n w :: rest) :
    step s = hostWriteReg n w { s with host := rest } :=
  step_eq_hostAccess hh nofun nofun

theorem step_readReg {n : Nat} (hh : s.host = .readReg n :: rest) :
    step s = hostReadReg n { s with host := rest } :=
  step_eq_hostAccess hh nofun nofun

theorem step_writeText {a : Nat} {r : Rec} (hh : s.host = .writeText a r :: rest) :
    step s = hostWriteText a r { s with host := rest } :=
  step_eq_hostAccess hh nofun nofun

theorem step_readText {a : Nat} (hh : s.host = .readText a :: rest) :
    step s = hostReadText a { s with host := rest } :=
  step_eq_hostAccess hh nofun nofun

theorem step_readCw {a : Nat} (hh : s.host = .readCw a :: rest) :
    step s = hostReadCw a { s with host := rest } :=
  step_eq_hostAccess hh nofun nofun

theorem step_reset (hh : s.host = .reset :: rest) : step s = .next ({ s with host := rest } : State).resetBlock :=
  step_eq_hostAccess hh nofun nofun

/-! What each access is, in the cases of its guard. -/

theorem hostReadReg_exact {n : Nat} (h : s.busy = false ∨ n ≤ 1 ∨ 17 ≤ n) :
    hostReadReg n s = .next (returns (readReg n s) s) := by
  refine if_neg ?_
  rintro ⟨hb, h2, h16⟩
  rcases h with h | h | h
  · simp [h] at hb
  · omega
  · omega

theorem hostWriteText_stored {a : Nat} {r : Rec} (hb : s.busy = false) (ha : a < textMax) :
    hostWriteText a r s = .next { s with text := Memory.write s.text a r } := by
  simp [hostWriteText, hb, ha]

theorem hostWriteText_outside {a : Nat} {r : Rec} (hb : s.busy = false) (ha : textMax ≤ a) :
    hostWriteText a r s = .fault (.textAddress a) := by
  simp [hostWriteText, hb, Nat.not_lt.2 ha]

theorem hostReadText_stored {a : Nat} (ha : a < textMax) :
    hostReadText a s = .next (returns (s.textRec a).toNat s) :=
  if_pos ha

theorem hostReadText_outside {a : Nat} (ha : textMax ≤ a) : hostReadText a s = .fault (.textAddress a) :=
  if_neg (Nat.not_lt.2 ha)

theorem hostReadCw_stored {a : Nat} (ha : a < s.cfg.cwMax) (hb : s.busy = false) :
    hostReadCw a s = .next (returns (s.cwByte a).toNat s) := by
  simp [hostReadCw, hb, ha]

theorem hostReadCw_outside {a : Nat} (ha : s.cfg.cwMax ≤ a) : hostReadCw a s = .fault (.cwAddress a) :=
  if_pos ha

/-! What the register numbers read (R21 to R29, R34). -/

/-- STATUS is ERR times 4 plus STATE (R23). -/
theorem statusWord_toNat (s : State) : s.statusWord.toNat = 4 * (errCode s.err).toNat + (stateCode s.phase).toNat := by
  rw [State.statusWord, toNat_append]
  omega

/-- CMD and the numbers without a register read zero (R21). -/
theorem readReg_unassigned {n : Nat} (h : 17 ≤ n ∨ n = 0) (s : State) : readReg n s = 0 := by
  unfold readReg
  split
  case h_17 => rfl
  all_goals omega

/-- Settles O2: the reset input empties both memories and moves both epochs on. -/
theorem resetLeavesTextAndCwFree : Obligations.ResetLeavesTextAndCwFree :=
  fun _ _ hh => ⟨_, step_reset hh, fun _ => rfl, fun _ => rfl⟩

/-- Settles O20: a write to register 0 is a command. -/
theorem stepRunsTheDecodedCommand : Obligations.StepRunsTheDecodedCommand :=
  fun _ _ _ hh => step_writeReg hh

/-- Settles O51: the host port's reads and ignored writes, and the registers one by one. -/
theorem registerReadsAndIgnoredWrites : Obligations.RegisterReadsAndIgnoredWrites := by
  refine ⟨fun s n rest => ⟨fun hh h => ?_, fun w hh hn => ?_, fun h => readReg_unassigned h s⟩, fun s => ?_⟩
  · exact (step_readReg hh).trans (hostReadReg_exact h)
  · exact (step_writeReg hh).trans (if_neg hn)
  · have hstatus := statusWord_toNat s
    refine ⟨hstatus.trans ?_, ?_, rfl, rfl, ?_, rfl, rfl, rfl, rfl, rfl, rfl, rfl, rfl, rfl, rfl, rfl⟩
    · congr 1
      · rcases s.err with _ | _ | _ | _ <;> rfl
      · cases s.phase <;> rfl
    · show s.lvlR.code.toNat = _
      cases s.lvlR <;> rfl
    · show (modeNibble s.mode).toNat = _
      rcases s.mode with _ | _ | _ | _ | _ <;> rfl

/-- Settles O52: reads of the two memories at the addresses they have. -/
theorem memoryReadsReturnTheStoredUnit : Obligations.MemoryReadsReturnTheStoredUnit :=
  fun _ _ _ =>
    ⟨fun hh ha => (step_readText hh).trans (hostReadText_stored ha),
      fun hh ha hb => (step_readCw hh).trans (hostReadCw_stored ha hb)⟩

/-- Settles O54: accesses at the addresses the memories do not have. -/
theorem addressesOutsideTheSpacesFault : Obligations.AddressesOutsideTheSpacesFault :=
  fun _ _ _ =>
    ⟨fun hh ha => (step_readText hh).trans (hostReadText_outside ha),
      fun _ hh hb ha => (step_writeText hh).trans (hostWriteText_outside hb ha),
      fun hh ha => (step_readCw hh).trans (hostReadCw_outside ha)⟩

/-- Settles O55: the write stores its record (`State.textRec_write`). -/
theorem textWritesStoreTheRecord : Obligations.TextWritesStoreTheRecord :=
  fun _ _ _ _ hh hb ha =>
    ⟨_, (step_writeText hh).trans (hostWriteText_stored hb ha), rfl, State.textRec_write rfl rfl⟩

end Sys2Proof.Machine
end

section
/-! The version scan (spec/41_version_select.md R143 to R146): what it selects, and when it selects nothing. -/

namespace Sys2Proof.Machine

/-- No row of the versions `v .. v + n - 1` fits the count. -/
def NoneFits (cfg : Config) (l : Level) (m : Mode) (count v n : Nat) : Prop :=
  ∀ w r, v ≤ w → w < v + n → romRow cfg w l = some r → Row.cap r m < count

variable {cfg : Config} {l : Level} {m : Mode} {count : Nat}

/-- One version of the scan: its row fits, or the scan goes on behind it. -/
theorem selectFrom_succ {fuel v : Nat} {r : Row} (hr : romRow cfg v l = some r) :
    selectFrom cfg l m count (fuel + 1) v =
      if count ≤ Row.cap r m then some (v, r) else selectFrom cfg l m count fuel (v + 1) := by
  rw [selectFrom, hr]

/-- A row too small at the head, and none that fits behind it. -/
theorem NoneFits.cons {v n : Nat} {r : Row} (hr : romRow cfg v l = some r) (hc : Row.cap r m < count)
    (h : NoneFits cfg l m count (v + 1) n) : NoneFits cfg l m count v (n + 1) := by
  intro w r' h1 h2 hw
  rcases Nat.eq_or_lt_of_le h1 with rfl | h1
  · cases hr.symm.trans hw
    exact hc
  · exact h w r' h1 (by omega) hw

theorem NoneFits.tail {v n : Nat} (h : NoneFits cfg l m count v (n + 1)) : NoneFits cfg l m count (v + 1) n :=
  fun w r h1 h2 => h w r (by omega) (by omega)

/-- What the scan selects is one of its versions, with that version's row (R145). -/
theorem selectFrom_some {fuel v w : Nat} {row : Row} (h : selectFrom cfg l m count fuel v = some (w, row)) :
    v ≤ w ∧ w < v + fuel ∧ romRow cfg w l = some row := by
  induction fuel generalizing v with
  | zero => cases h
  | succ fuel ih =>
    cases hr : romRow cfg v l with
    | none => simp [selectFrom, hr] at h
    | some r =>
      rw [selectFrom_succ hr] at h
      split at h
      · cases h
        exact ⟨Nat.le_refl _, by omega, hr⟩
      · obtain ⟨h1, h2, h3⟩ := ih h
        exact ⟨by omega, by omega, h3⟩

/-- The scan over versions that all have a row ends without a selection exactly when none of the rows fits. -/
theorem selectFrom_none_iff {fuel v : Nat} (hrows : ∀ w, v ≤ w → w < v + fuel → ∃ r, romRow cfg w l = some r) :
    selectFrom cfg l m count fuel v = none ↔ NoneFits cfg l m count v fuel := by
  induction fuel generalizing v with
  | zero => exact ⟨fun _ w r h1 h2 => absurd h2 (by omega), fun _ => rfl⟩
  | succ fuel ih =>
    obtain ⟨r, hr⟩ := hrows v (Nat.le_refl _) (by omega)
    have ih := ih (v := v + 1) fun w h1 h2 => hrows w (by omega) (by omega)
    rw [selectFrom_succ hr]
    by_cases hc : count ≤ Row.cap r m
    · rw [if_pos hc]
      exact ⟨nofun, fun h => absurd (h v r (Nat.le_refl _) (by omega) hr) (by omega)⟩
    · rw [if_neg hc, ih]
      exact ⟨.cons hr (by omega), .tail⟩

/-- A version whose row fits, behind `n` versions whose rows do not, is the one the scan selects (R145). -/
theorem selectFrom_of_first_fit {n fuel v : Nat} {row : Row} (hn : n < fuel)
    (hrows : ∀ w, v ≤ w → w < v + n → ∃ r, romRow cfg w l = some r) (hsmall : NoneFits cfg l m count v n)
    (hr : romRow cfg (v + n) l = some row) (hc : count ≤ Row.cap row m) :
    selectFrom cfg l m count fuel v = some (v + n, row) := by
  induction n generalizing fuel v with
  | zero =>
    obtain ⟨fuel, rfl⟩ := Nat.exists_eq_add_one.2 hn
    exact (selectFrom_succ hr).trans (if_pos hc)
  | succ n ih =>
    obtain ⟨fuel, rfl⟩ := Nat.exists_eq_add_one.2 (Nat.zero_lt_of_lt hn)
    obtain ⟨r, hv⟩ := hrows v (Nat.le_refl _) (by omega)
    have hlt := hsmall v r (Nat.le_refl _) (by omega) hv
    have hnext : v + (n + 1) = v + 1 + n := by omega
    rw [selectFrom_succ hv, if_neg (by omega), hnext]
    rw [hnext] at hr
    exact ih (by omega) (fun w h1 h2 => hrows w (by omega) (by omega)) hsmall.tail hr

/-! The forty versions of a level. -/

theorem selectVersion_some {v : Nat} {row : Row} (h : selectVersion cfg l m count = some (v, row)) :
    1 ≤ v ∧ v ≤ nVersions ∧ romRow cfg v l = some row := by
  obtain ⟨h1, h2, h3⟩ := selectFrom_some h
  exact ⟨h1, by omega, h3⟩

theorem selectVersion_none_iff (hw : cfg.wf = true) :
    selectVersion cfg l m count = none ↔ NoneFits cfg l m count 1 nVersions :=
  selectFrom_none_iff fun _ h1 h2 => romRow_some hw l h1 (by omega)

theorem selectVersion_of_first_fit (hw : cfg.wf = true) {v : Nat} {row : Row} (h1 : 1 ≤ v) (h2 : v ≤ nVersions)
    (hsmall : NoneFits cfg l m count 1 (v - 1)) (hr : romRow cfg v l = some row) (hc : count ≤ Row.cap row m) :
    selectVersion cfg l m count = some (v, row) := by
  have hv : 1 + (v - 1) = v := by omega
  have key := selectFrom_of_first_fit (fuel := nVersions) (by omega)
    (fun w h3 h4 => romRow_some hw l h3 (by omega)) hsmall (by rwa [hv]) hc
  rwa [hv] at key

/-- Settles O39, by the scan's induction (`selectFrom_none_iff`). -/
theorem noVersionFitsExactlyWhenNoneDoes : Obligations.NoVersionFitsExactlyWhenNoneDoes := by
  refine ⟨fun r => ⟨rfl, rfl, rfl, rfl⟩, fun cfg v => ⟨rfl, rfl, rfl, rfl⟩, fun cfg l m count hw => ?_⟩
  rw [selectVersion_none_iff hw]
  exact ⟨fun h v r h1 h2 => h v r h1 (show v < 1 + 40 by omega),
    fun h v r h1 (h2 : v < 1 + 40) => h v r h1 (by omega)⟩

end Sys2Proof.Machine
end

section
/-! The fields of a character record (spec/10_state.md R42), read as numbers. -/

namespace Sys2Proof

/-- A record as a number: the code point in the low 21 bits, `rlm1` in the next two, the raw word above. -/
theorem mkRec_toNat (raw : BitVec 32) (rlm1 : BitVec 2) (cp : BitVec 21) :
    (mkRec raw rlm1 cp).toNat = 2 ^ 23 * raw.toNat + 2 ^ 21 * rlm1.toNat + cp.toNat := by
  rw [mkRec, toNat_append, toNat_append]
  omega

theorem recCp_mkRec (raw : BitVec 32) (rlm1 : BitVec 2) (cp : BitVec 21) : recCp (mkRec raw rlm1 cp) = cp.toNat := by
  have hcp := cp.isLt
  rw [recCp, BitVec.extractLsb'_toNat, mkRec_toNat, Nat.shiftRight_zero]
  omega

theorem recRawLen_mkRec (raw : BitVec 32) (rlm1 : BitVec 2) (cp : BitVec 21) :
    recRawLen (mkRec raw rlm1 cp) = rlm1.toNat + 1 := by
  have hcp := cp.isLt
  have hlen := rlm1.isLt
  rw [recRawLen, BitVec.extractLsb'_toNat, mkRec_toNat, Nat.shiftRight_eq_div_pow]
  omega

/-- Raw byte `k` is byte `k` of the raw word: the record without its low 23 bits is the raw word. -/
theorem recRawByte_mkRec (raw : BitVec 32) (rlm1 : BitVec 2) (cp : BitVec 21) (k : Nat) :
    recRawByte (mkRec raw rlm1 cp) k = BitVec.ofNat 8 (raw.toNat / 256 ^ k) := by
  have hcp := cp.isLt
  have hlen := rlm1.isLt
  have hraw : (mkRec raw rlm1 cp).toNat / 2 ^ 23 = raw.toNat := by
    rw [mkRec_toNat]
    omega
  have hpow : (2 : Nat) ^ (8 * k) = 256 ^ k := Nat.pow_mul 2 8 k
  rw [recRawByte, BitVec.extractLsb', Nat.shiftRight_add, Nat.shiftRight_eq_div_pow _ 23, hraw,
    Nat.shiftRight_eq_div_pow, hpow]

/-- Settles O16, field by field. -/
theorem recordFieldsReadBack : Obligations.RecordFieldsReadBack := by
  refine fun raw rlm1 cp => ⟨recCp_mkRec raw rlm1 cp, recRawLen_mkRec raw rlm1 cp, ?_⟩
  rw [recRaw, recRawLen_mkRec]
  exact List.map_congr_left fun k _ => recRawByte_mkRec raw rlm1 cp k

end Sys2Proof
end

section
/-! The classifier's scan against the sequencer's steps (spec/40_classify.md R120, R125). -/

namespace Sys2Proof.Machine

/-- The scan of R120 is the fold of the steps of R125. -/
theorem foldl_classStep_fst (cfg : Config) (m : Mode) (cps : List Nat) :
    (cps.foldl (classStep cfg) (m, false)).1 = classifyFrom cfg m cps := by
  induction cps generalizing m with
  | nil => rfl
  | cons c cs ih =>
    rw [List.foldl_cons, classifyFrom]
    by_cases hd : isDigit c = true
    · rw [if_pos hd, ← ih]
      simp [classStep, hd]
    by_cases hs : (isUpper c || isSym9 c) = true
    · rw [if_neg hd, if_pos hs, ← ih]
      simp [classStep, hd, hs]
    by_cases hj : isCJK cfg c = true
    · rw [if_neg hd, if_neg hs, if_pos hj, ← ih]
      simp [classStep, hd, hs, hj]
    · have hstep : classStep cfg (m, false) c = (.byte, true) := by simp [classStep, hd, hs, hj]
      rw [if_neg hd, if_neg hs, if_neg hj, hstep, classStep_halted]

/-- The pair (mode so far, halted) after the first `n` characters of the job's text (R125). -/
def State.scanAfter (s : State) (n : Nat) : Mode × Bool :=
  ((s.jobText.take n).map recCp).foldl (classStep s.cfg) (.numeric, false)

/-- One more character is one more step. -/
theorem scanAfter_succ {s : State} {n : Nat} (hn : n < s.lenR) :
    s.scanAfter (n + 1) = classStep s.cfg (s.scanAfter n) (recCp (s.textRec n)) := by
  have hlen : n < s.jobText.length := by rwa [jobText_length]
  rw [State.scanAfter, List.take_succ_eq_append_getElem hlen, jobText_getElem s n hn, List.map_append, List.foldl_append]
  rfl

/-- Where the scan ends, at the end of the text or halted, its mode is the classifier's result on the whole text. -/
theorem scanAfter_classify {s : State} {n : Nat} {m : Mode} {halted : Bool} (h : s.scanAfter n = (m, halted))
    (hend : s.lenR ≤ n ∨ halted = true) : m = classify s.cfg (s.jobText.map recCp) := by
  have hwhole : (s.jobText.map recCp).foldl (classStep s.cfg) (.numeric, false) =
      ((s.jobText.drop n).map recCp).foldl (classStep s.cfg) (m, halted) := by
    rw [← h, State.scanAfter, ← List.foldl_append, ← List.map_append, List.take_append_drop]
  have hrest : ((s.jobText.drop n).map recCp).foldl (classStep s.cfg) (m, halted) = (m, halted) := by
    rcases hend with hn | rfl
    · rw [List.drop_eq_nil_of_le (by rwa [jobText_length])]
      rfl
    · exact classStep_halted _ _ _
  rw [classify, ← foldl_classStep_fst, hwhole, hrest]

/-- The count is at most the raw bytes of the text, four a record (R14, R129). -/
theorem countOf_le (cfg : Config) (m : Mode) (txt : List Rec) : countOf cfg m txt ≤ 4 * txt.length := by
  have := byteCount_le txt
  rw [countOf]
  split <;> omega

end Sys2Proof.Machine
end

section
/-! The bits of a packed segment (spec/43_segment_pack.md R171), mode by mode, and the bits a job needs (R202). -/

namespace Sys2Proof.Machine

theorem encodeAll_singleton_length (i : Instr) : (encodeAll [i]).length = i.width := encodeAll_length_cons i []

theorem packNumeric_bits {txt : List Rec} {seg : List Instr} (h : packNumeric txt = some seg) (nb : Nat) :
    (encodeAll seg).length = dataBits .numeric txt.length nb := by
  induction txt using packNumeric.induct generalizing seg with
  | case1 => cases h; rfl
  | case2 r0 =>
    simp only [packNumeric, Option.bind_eq_bind, Option.bind_eq_some_iff] at h
    obtain ⟨_, _, h⟩ := h
    cases h
    simp [encodeAll_singleton_length, dataBits, Instr.width, Instr.slot, Slot.width]
  | case3 r0 r1 =>
    simp only [packNumeric, Option.bind_eq_bind, Option.bind_eq_some_iff] at h
    obtain ⟨_, _, _, _, h⟩ := h
    cases h
    simp [encodeAll_singleton_length, dataBits, Instr.width, Instr.slot, Slot.width]
  | case4 r0 r1 r2 rs ih =>
    obtain ⟨_, _, _, es, _, _, _, hes, rfl⟩ := packNumeric_cons.1 h
    rw [encodeAll_length_cons, ih hes]
    exact (dataBits_numeric_add _ _ _).symm

theorem packAlnum_bits {txt : List Rec} {seg : List Instr} (h : packAlnum txt = some seg) (nb : Nat) :
    (encodeAll seg).length = dataBits .alnum txt.length nb := by
  induction txt using packAlnum.induct generalizing seg with
  | case1 => cases h; rfl
  | case2 r0 =>
    simp only [packAlnum, Option.bind_eq_bind, Option.bind_eq_some_iff] at h
    obtain ⟨_, _, h⟩ := h
    cases h
    simp [encodeAll_singleton_length, dataBits, Instr.width, Instr.slot, Slot.width]
  | case3 r0 r1 rs ih =>
    obtain ⟨_, _, es, _, _, hes, rfl⟩ := packAlnum_cons.1 h
    rw [encodeAll_length_cons, ih hes]
    exact (dataBits_alnum_add _ _ _).symm

/-- Raw bytes take eight bits each. -/
theorem encodeAll_byte8_length (bs : List Byte) : (encodeAll (bs.map .byte8)).length = 8 * bs.length := by
  induction bs with
  | nil => rfl
  | cons b bs ih =>
    rw [List.map_cons, encodeAll_length_cons, ih, List.length_cons]
    show 8 + 8 * bs.length = _
    omega

theorem packByte_bits (txt : List Rec) : (encodeAll (packByte txt)).length = 8 * byteCount txt := by
  induction txt with
  | nil => rfl
  | cons r rs ih =>
    rw [packByte_cons, encodeAll_append, List.length_append, ih, encodeAll_byte8_length, recRaw_length, byteCount_cons]
    omega

theorem packKanji_bits {cfg : Config} {txt : List Rec} {seg : List Instr} (h : packKanji cfg txt = some seg) (nb : Nat) :
    (encodeAll seg).length = dataBits .kanji txt.length nb := by
  induction txt generalizing seg with
  | nil => cases h; rfl
  | cons r rs ih =>
    obtain ⟨_, es, _, hes, rfl⟩ := packKanji_cons.1 h
    rw [encodeAll_length_cons, ih hes]
    exact (dataBits_kanji_add _ _ _).symm

/-- A packed segment has `D` bits (R171). -/
theorem pack_bits {cfg : Config} {m : Mode} {txt : List Rec} {seg : List Instr} (h : pack cfg m txt = some seg) :
    (encodeAll seg).length = dataBits m txt.length (byteCount txt) := by
  cases m with
  | numeric => exact packNumeric_bits h _
  | alnum => exact packAlnum_bits h _
  | byte => cases h; exact packByte_bits txt
  | kanji => exact packKanji_bits h _

/-- The bits of header and segment together are REQ's (R202). -/
theorem pack_requiredBits {cfg : Config} {m : Mode} {txt : List Rec} {seg : List Instr}
    (h : pack cfg m txt = some seg) (v : Nat) :
    4 + countWidth (tier v) m + (encodeAll seg).length = requiredBits v m txt := by
  rw [pack_bits h, requiredBits]

theorem requiredBits_le (v : Nat) (m : Mode) (txt : List Rec) : requiredBits v m txt ≤ 4 + 16 + 32 * txt.length := by
  have hc := countWidth_le (tier v) m
  have hd := dataBits_le m txt.length (byteCount txt) (byteCount_le txt)
  rw [requiredBits]
  omega

/-! The next group of a text (R236). -/

theorem nextRecs_length (s : State) (k : Nat) : (s.nextRecs k).length = min k (s.lenR - s.idx) := by
  rw [State.nextRecs, List.length_map, List.length_range]

theorem jobText_take_nextRecs (s : State) (k : Nat) :
    s.jobText.take (s.idx + (s.nextRecs k).length) = s.jobText.take s.idx ++ s.nextRecs k := by
  rw [List.take_add, nextRecs_length, nextRecs_eq, List.take_eq_take_min (i := k), List.length_drop, jobText_length]

/-- Packing one more group: the elements of the text up to IDX and those of the group behind it (R173, R178, R181,
R183). -/
theorem pack_nextGroup {s : State} {m : Mode} {es : List Instr} (hi : s.idx < s.lenR) (hd : groupSize m ∣ s.idx)
    (hp : pack s.cfg m (s.jobText.take s.idx) = some s.seg)
    (hg : packGroup s.cfg m (s.nextRecs (groupSize m)) = some es) :
    pack s.cfg m (s.jobText.take (s.idx + (s.nextRecs (groupSize m)).length)) = some (s.seg ++ es) := by
  have hlen := nextRecs_length s (groupSize m)
  have hpos := groupSize_pos m
  have hne : s.nextRecs (groupSize m) ≠ [] := List.ne_nil_of_length_pos (by omega)
  rw [packGroup_eq hne (by omega)] at hg
  have htake : (s.jobText.take s.idx).length = s.idx := by
    rw [List.length_take, jobText_length]
    omega
  rw [jobText_take_nextRecs]
  exact pack_append (by rwa [htake]) hp hg

/-- The next group is a whole one, or it ends the text. -/
theorem nextGroup_boundary {s : State} {m : Mode} (hi : s.idx < s.lenR) (hd : groupSize m ∣ s.idx) :
    groupSize m ∣ s.idx + (s.nextRecs (groupSize m)).length ∨ s.idx + (s.nextRecs (groupSize m)).length = s.lenR := by
  rw [nextRecs_length]
  rcases Nat.le_total (groupSize m) (s.lenR - s.idx) with h | h
  · rw [Nat.min_eq_left h]
    exact .inl (Nat.dvd_add hd (Nat.dvd_refl _))
  · right
    omega

end Sys2Proof.Machine
end

section
/-! ERR is set exactly in ERROR (spec/10_state.md R23): raising an error sets both, starting a job and reset clear
both, and no other next state changes either but to a phase that is not ERROR. -/

namespace Sys2Proof.Machine

/-- The invariant of R23, on the fields. -/
def ErrInError (s : State) : Prop := s.err.isSome ↔ s.phase = .error

theorem errInError_iff_codes (s : State) : ErrInError s ↔ (errCode s.err ≠ 0 ↔ stateCode s.phase = 3) := by
  have herr : errCode s.err ≠ 0 ↔ s.err.isSome := by rcases s.err with _ | _ | _ | _ <;> decide
  have hphase : stateCode s.phase = 3 ↔ s.phase = .error := by cases s.phase <;> decide
  rw [herr, hphase, ErrInError]

theorem ErrInError.raise (s : State) (e : JobError) : ErrInError (s.raise e) := iff_of_true rfl rfl

/-- ERR is 0 in every phase but ERROR. -/
theorem ErrInError.err_none {s : State} (h : ErrInError s) (hp : s.phase ≠ .error) : s.err = none := by
  rw [ErrInError, iff_false_right hp] at h
  simpa using h

/-- A change from a phase that is not ERROR to another that is not, which leaves ERR alone. -/
theorem ErrInError.leave {s t : State} (h : ErrInError s) (hp : s.phase ≠ .error) (ht : t.phase ≠ .error)
    (he : t.err = s.err) : ErrInError t := by
  rw [ErrInError, he, h.err_none hp]
  exact iff_of_false nofun ht

theorem ExecTo.errInError {i : Instr} {s t : State} (h : ExecTo i s t) (hs : ErrInError s) : ErrInError t := by
  cases h with
  | same | appended | skipped | padded => exact hs
  | started l n => exact iff_of_false nofun nofun
  | overflowed => exact .raise s _

theorem BlockTo.errInError {s t : State} (h : BlockTo s t) (hs : ErrInError s) : ErrInError t := by
  cases h with
  | rest | scanned | tooSmall | packed | cleared | dataEnd => exact hs
  | classified hp | latched _ _ hp | allPacked _ hp | finished _ hp => exact hs.leave (by simp [hp]) nofun rfl
  | noneFits | illegal | overflow => exact .raise s _
  | ran m i u t hp hm hf hi =>
    refine hi.errInError ?_
    rw [fetchElem_keeps hf]
    exact hs

theorem StepTo.errInError {s t : State} (h : StepTo s t) (hs : ErrInError s) : ErrInError t := by
  cases h with
  | block hb | tick rest hh hb => exact hb.errInError hs
  | read | ignored | wrote => exact hs
  | started | reset => exact iff_of_false nofun nofun

/-- Settles O6: every next state of a step (`step_to`) keeps it. -/
theorem errIsSetExactlyInError : Obligations.ErrIsSetExactlyInError := by
  intro s t hs h
  rw [← errInError_iff_codes] at hs ⊢
  exact (step_to h).errInError hs

end Sys2Proof.Machine
end

section
/-! CW along a step (spec/10_state.md R43, spec/44_assemble.md R210): what is written lies below TOTAL. -/

namespace Sys2Proof.Machine

/-- APPEND of `n` bits that end inside a buffer of `total` bytes leaves every byte from `total` on alone. -/
theorem cwGet_append_other (epoch : Nat) (m : Memory Byte) {g n total a : Nat} (v : Nat) (hg : g + n ≤ 8 * total)
    (ha : total ≤ a) : cwGet epoch (append epoch m g n v) a = cwGet epoch m a := by
  rw [cwGet, append, read_orBits_other _ _ _ _ (.inr (by rw [bitsOf_length]; omega))]
  rfl

/-- An operation that raises no error leaves every CW byte from TOTAL on alone. -/
theorem ExecTo.cwByte_beyond {i : Instr} {s t : State} (h : ExecTo i s t) (ht : t.phase ≠ .error) {a : Nat}
    (ha : s.row.total ≤ a) : t.cwByte a = s.cwByte a := by
  cases h with
  | same | started | skipped => rfl
  | appended hi hfit => exact cwGet_append_other _ _ _ hfit ha
  | overflowed => exact absurd rfl ht
  | padded b hc hroom =>
    refine (cwGet_write _ _ _ _ _).trans (if_neg ?_)
    omega

/-- A step of the block that raises no error leaves every CW byte from TOTAL on alone. -/
theorem BlockTo.cwByte_beyond {s t : State} (h : BlockTo s t) (ht : t.phase ≠ .error) {a : Nat}
    (ha : s.row.total ≤ a) : t.cwByte a = s.cwByte a := by
  cases h with
  | rest | scanned | classified | latched | tooSmall | packed | allPacked | dataEnd | finished => rfl
  | noneFits | illegal | overflow => exact absurd rfl ht
  | cleared =>
    show cwGet _ (zeroFill s.row.total s.cw) a = _
    rw [cwGet, read_zeroFill, if_neg (Nat.not_lt.2 ha)]
    rfl
  | ran m i u t hp hm hf hi =>
    rw [fetchElem_keeps hf] at hi
    exact hi.cwByte_beyond ht ha

/-- Outside ASSEMBLE a step of the block that raises no error leaves CW alone. -/
theorem BlockTo.cwByte_outside {s t : State} (h : BlockTo s t) (ht : t.phase ≠ .error ∨ s.phase = .error)
    (hs : s.phase ≠ .assemble) (a : Nat) : t.cwByte a = s.cwByte a := by
  cases h with
  | rest | scanned | classified | latched | tooSmall | packed | allPacked => rfl
  | noneFits _ _ hp | illegal _ hp => simp [hp] at ht
  | overflow _ hp | cleared _ hp | ran _ _ _ _ hp | dataEnd _ hp | finished _ hp => exact absurd hp hs

/-- Only ASSEMBLE writes CW, and below TOTAL (R43, R289). -/
def CwKept (s t : State) : Prop :=
  (s.phase ≠ .assemble → ∀ a, t.cwByte a = s.cwByte a) ∧ ∀ a, s.row.total ≤ a → t.cwByte a = s.cwByte a

theorem BlockTo.cwKept {s t : State} (h : BlockTo s t) (ht : t.phase ≠ .error ∨ s.phase = .error) : CwKept s t := by
  refine ⟨h.cwByte_outside ht, fun a ha => ?_⟩
  rcases ht with ht | hp
  · exact h.cwByte_beyond ht ha
  · exact h.cwByte_outside (.inr hp) (by simp [hp]) a

/-- Settles O49: of a step's next states (`step_to`) only those of the block touch CW, besides reset. -/
theorem cwBeyondTotalIsNotWritten : Obligations.CwBeyondTotalIsNotWritten := by
  intro s t h ht hreset
  cases step_to h with
  | block hb | tick rest hh hb => exact hb.cwKept ht
  | read | ignored | started | wrote => exact ⟨fun _ _ => rfl, fun _ _ => rfl⟩
  | reset rest hh => exact absurd hh (hreset rest)

end Sys2Proof.Machine
end

section
/-! The invariant taken apart: what it says in each phase (spec/10_state.md R23 to R34), and what follows from it. -/

namespace Sys2Proof.Machine

variable {s : State} {m : Mode}

theorem phaseInv_classify (hp : s.phase = .classify) :
    PhaseInv s ↔ s.mode = none ∧ s.count = 0 ∧ NotSelected s ∧ (s.scanMode, s.scanHalted) = s.scanAfter s.idx := by
  unfold PhaseInv
  rw [hp]
  rfl

/-- While SELECT runs, MODE and COUNT are those of the text, and no row before VSCAN fits (R145). -/
theorem phaseInv_select (hp : s.phase = .select) :
    PhaseInv s ↔
      (∃ m, s.mode = some m ∧ m = classify s.cfg (s.jobText.map recCp) ∧ s.count = countOf s.cfg m s.jobText ∧
        ∀ v r, 1 ≤ v → v < s.vscan → romRow s.cfg v s.lvlR = some r → Row.cap r m < s.count) ∧
      1 ≤ s.vscan ∧ s.vscan ≤ nVersions ∧ NotSelected s := by
  unfold PhaseInv
  rw [hp]

theorem phaseInv_pack (hp : s.phase = .pack) :
    PhaseInv s ↔ ∃ m, Selected s m ∧ s.req = 0 ∧ pack s.cfg m (s.jobText.take s.idx) = some s.seg ∧
      (groupSize m ∣ s.idx ∨ s.idx = s.lenR) := by
  unfold PhaseInv
  rw [hp]

/-- What the invariant says in ASSEMBLE, by name. -/
structure Assembling (s : State) (m : Mode) : Prop where
  selected : Selected s m
  req_eq : s.req = requiredBits s.ver m s.jobText
  written : ∃ written, pack s.cfg m s.jobText = some (written ++ s.seg)
  cursor : CursorAt s m
  passed : s.stage ≠ .test →
    s.count < 2 ^ countWidth (tier s.ver) m ∧ s.req ≤ 8 * s.row.total ∧
    ∀ a, a < s.row.total → (Memory.read s.cw a).isSome

theorem phaseInv_assemble (hp : s.phase = .assemble) : PhaseInv s ↔ ∃ m, Assembling s m := by
  unfold PhaseInv
  rw [hp]
  exact exists_congr fun m => ⟨fun ⟨h1, h2, h3, h4, h5⟩ => ⟨h1, h2, h3, h4, h5⟩,
    fun ⟨h1, h2, h3, h4, h5⟩ => ⟨h1, h2, h3, h4, h5⟩⟩

theorem Inv.assembling (h : Inv s) (hp : s.phase = .assemble) (hm : s.mode = some m) : Assembling s m := by
  obtain ⟨m', ha⟩ := (phaseInv_assemble hp).1 h.phase_inv
  have hmode := ha.selected.1
  rw [hm] at hmode
  cases hmode
  exact ha

theorem Inv.assembling_exists (h : Inv s) (hp : s.phase = .assemble) : ∃ m, s.mode = some m ∧ Assembling s m := by
  obtain ⟨m, ha⟩ := (phaseInv_assemble hp).1 h.phase_inv
  exact ⟨m, ha.selected.1, ha⟩

/-- A selected version is latched with its row. -/
theorem Selected.latched (h : Selected s m) : Latched s := by
  obtain ⟨-, -, -, hsel⟩ := h
  exact selectVersion_some hsel

/-- TOTAL is at most CW_MAX while a row is latched (R43). -/
theorem Selected.total_le (h : Selected s m) : s.row.total ≤ s.cfg.cwMax := by
  obtain ⟨-, -, hrow⟩ := h.latched
  exact total_le_cwMax (romRow_mem hrow)

/-- Once the overflow test passed, the cursor stands inside the buffer (R33). -/
theorem Assembling.cur_le (h : Assembling s m) (ht : s.stage ≠ .test) : s.cur ≤ 8 * s.row.total := by
  obtain ⟨-, hreq, -⟩ := h.passed ht
  have hc := h.cursor
  unfold CursorAt at hc
  split at hc
  case h_1 hs => exact absurd hs ht
  all_goals omega

/-- The invariant does not speak of the host's list, of the value read, or of the count of free reads. -/
theorem Inv.bookkeeping (h : Inv s) (rest : List HostOp) (v f : Nat) :
    Inv { s with host := rest, dout := v, freeReads := f } :=
  { h with }

/-! The widths of the registers (R21). -/

theorem Row.fits_iff (r : Row) :
    r.fits = true ↔ r.capN < 2 ^ 13 ∧ r.capA < 2 ^ 13 ∧ r.capB < 2 ^ 12 ∧ r.capK < 2 ^ 11 ∧ r.total < 2 ^ 12 ∧
      r.g1b < 2 ^ 8 ∧ r.g1w < 2 ^ 8 ∧ r.g2b < 2 ^ 8 ∧ r.g2w < 2 ^ 8 := by
  simp [Row.fits, and_assoc]

/-- Settles O7: the invariant's bounds, register by register. -/
theorem registersStayWithinTheirWidths : Obligations.RegistersStayWithinTheirWidths := by
  refine ⟨by decide, fun s n h => ?_⟩
  obtain ⟨hcapN, hcapA, hcapB, hcapK, htotal, hg1b, hg1w, hg2b, hg2w⟩ := (Row.fits_iff _).1 h.row_fits
  have hlen : s.lenR ≤ 8191 := h.len_le
  have hcount : s.count ≤ 4 * 8191 := h.count_le
  have hver : s.ver ≤ 40 := h.ver_le
  have hreq : s.req ≤ 4 + 16 + 32 * 8191 := h.req_le
  unfold readReg
  split
  case h_1 => exact s.statusWord.isLt
  case h_2 => exact s.lvlR.code.isLt
  case h_3 => show s.lenR < 2 ^ 13; omega
  case h_4 => show s.count < 2 ^ 15; omega
  case h_5 => exact (modeNibble s.mode).isLt
  case h_6 => show s.ver < 2 ^ 6; omega
  case h_7 => exact htotal
  case h_8 => exact hcapN
  case h_9 => exact hcapA
  case h_10 => exact hcapB
  case h_11 => exact hcapK
  case h_12 => exact hg1b
  case h_13 => exact hg1w
  case h_14 => exact hg2b
  case h_15 => exact hg2w
  case h_16 => show s.req < 2 ^ 18; omega
  case h_17 => exact Nat.two_pow_pos _

/-! What can stop a step (R41, R43; log entries 9, 10). -/

theorem classifyStep_next (s : State) : ∃ t, classifyStep s = .next t := by
  unfold classifyStep
  split <;> exact ⟨_, rfl⟩

theorem selectStep_next {row : Row} (hm : s.mode = some m) (hr : romRow s.cfg s.vscan s.lvlR = some row) :
    ∃ t, selectStep s = .next t := by
  simp only [selectStep, hm, hr]
  split_ifs <;> exact ⟨_, rfl⟩

theorem packStep_next (hm : s.mode = some m) : ∃ t, packStep s = .next t := by
  simp only [packStep, hm]
  split_ifs
  · split <;> exact ⟨_, rfl⟩
  · exact ⟨_, rfl⟩

theorem beginBuffer_next (m : Mode) (s : State) : ∃ t, beginBuffer m s = .next t := by
  unfold beginBuffer
  split <;> exact ⟨_, rfl⟩

theorem assembleStep_next (hm : s.mode = some m) : ∃ t, assembleStep s = .next t := by
  simp only [assembleStep, hm]
  split
  next i t hf =>
    obtain ⟨u, hu, -⟩ := exec_to i t
    exact ⟨u, hu⟩
  next hf =>
    split
    · exact beginBuffer_next m s
    all_goals exact ⟨_, rfl⟩

/-- In a state that meets the invariant the block always takes its step: MODE is assigned after CLASSIFY, and the
ROM has the row SELECT looks at. -/
theorem Inv.blockStep_next (h : Inv s) : ∃ t, blockStep s = .next t := by
  unfold blockStep
  split
  next hp => exact classifyStep_next s
  next hp =>
    obtain ⟨⟨m, hm, -⟩, h1, h2, -⟩ := (phaseInv_select hp).1 h.phase_inv
    obtain ⟨row, hrow⟩ := romRow_some h.cfg_wf s.lvlR h1 h2
    exact selectStep_next hm hrow
  next hp =>
    obtain ⟨m, ⟨hm, -⟩, -⟩ := (phaseInv_pack hp).1 h.phase_inv
    exact packStep_next hm
  next hp =>
    obtain ⟨m, hm, -⟩ := h.assembling_exists hp
    exact assembleStep_next hm
  all_goals exact ⟨_, rfl⟩

/-- The accesses outside TEXT and CW, with the fault they meet (log entry 10). -/
inductive BadAddress (cfg : Config) : HostOp → Fault → Prop where
  | writeText (a : Nat) (r : Rec) (ha : textMax ≤ a) : BadAddress cfg (.writeText a r) (.textAddress a)
  | readText (a : Nat) (ha : textMax ≤ a) : BadAddress cfg (.readText a) (.textAddress a)
  | readCw (a : Nat) (ha : cfg.cwMax ≤ a) : BadAddress cfg (.readCw a) (.cwAddress a)

/-- A host access happens, or it is at an address its memory does not have. -/
theorem hostAccess_next_or_fault (op : HostOp) (s : State) :
    (∃ t, hostAccess op s = .next t) ∨ ∃ f, hostAccess op s = .fault f ∧ BadAddress s.cfg op f := by
  cases op with
  | writeReg n w =>
    left
    show ∃ t, hostWriteReg n w s = _
    unfold hostWriteReg
    split
    · obtain ⟨t, ht, -⟩ := exec_to (decodeCommand w) s
      exact ⟨t, ht⟩
    · exact ⟨_, rfl⟩
  | readReg n =>
    left
    show ∃ t, hostReadReg n s = _
    unfold hostReadReg
    split <;> exact ⟨_, rfl⟩
  | writeText a r =>
    by_cases hb : s.busy = true
    · exact .inl ⟨_, if_pos hb⟩
    have hb := eq_false_of_ne_true hb
    rcases Nat.lt_or_ge a textMax with ha | ha
    · exact .inl ⟨_, hostWriteText_stored hb ha⟩
    · exact .inr ⟨_, hostWriteText_outside hb ha, .writeText a r ha⟩
  | readText a =>
    rcases Nat.lt_or_ge a textMax with ha | ha
    · exact .inl ⟨_, hostReadText_stored ha⟩
    · exact .inr ⟨_, hostReadText_outside ha, .readText a ha⟩
  | readCw a =>
    rcases Nat.lt_or_ge a s.cfg.cwMax with ha | ha
    · left
      show ∃ t, hostReadCw a s = _
      unfold hostReadCw
      rw [if_neg (Nat.not_le.2 ha)]
      split <;> exact ⟨_, rfl⟩
    · exact .inr ⟨_, hostReadCw_outside ha, .readCw a ha⟩
  | reset | wait | tick => exact .inl ⟨_, rfl⟩

/-- From a state that meets the invariant a step happens, or the next access is at an address its memory does not
have. -/
theorem Inv.step_next_or_fault (h : Inv s) :
    (∃ t, step s = .next t) ∨
      ∃ op rest f, s.host = op :: rest ∧ step s = .fault f ∧ BadAddress s.cfg op f := by
  unfold step turn
  split
  next => exact .inl h.blockStep_next
  next rest hh => exact .inl (h.bookkeeping rest s.dout s.freeReads).blockStep_next
  next rest hh =>
    left
    split
    · exact h.blockStep_next
    · exact ⟨_, rfl⟩
  next op rest _ _ hh =>
    rcases hostAccess_next_or_fault op { s with host := rest } with ht | ⟨f, hf, hbad⟩
    · exact .inl ht
    · exact .inr ⟨op, rest, f, hh, hf, hbad⟩

/-- Settles O8: a step that does not happen is an access at a bad address. -/
theorem onlyABadHostAddressStops : Obligations.OnlyABadHostAddressStops := by
  intro s h
  rcases h.step_next_or_fault with ⟨t, ht⟩ | ⟨op, rest, f, hh, hf, hbad⟩
  · rw [ht]
    exact ⟨nofun, nofun⟩
  · rw [hf]
    refine ⟨fun f' hf' => ?_, nofun⟩
    cases hf'
    cases hbad with
    | writeText a r ha => exact .inl ⟨a, rest, r, rfl, ha, hh⟩
    | readText a ha => exact .inr (.inl ⟨a, rest, rfl, ha, hh⟩)
    | readCw a ha => exact .inr (.inr ⟨a, rest, rfl, ha, hh⟩)

end Sys2Proof.Machine
end

section
/-! One element of ASSEMBLE in a state that meets the invariant (spec/44_assemble.md R200 to R211): it always has
room, so of the ways an operation can end (`ExecTo`) three remain. -/

namespace Sys2Proof.Machine

/-- The next states of an element step: an element appended, the gap skipped, or a pad byte written. -/
inductive RunsTo (s : State) (m : Mode) : State → Prop where
  | appended (i : Instr) (st : Stage) (es : List Instr) (hst : st ≠ .test) (hfit : Fits s i.width)
      (hw : ∃ written, pack s.cfg m s.jobText = some (written ++ es))
      (hc : CursorAt { s with stage := st, seg := es, cur := s.cur + i.width } m) :
      RunsTo s m { s with
        stage := st, seg := es, cw := append s.cwEpoch s.cw s.cur i.width i.value, cur := s.cur + i.width }
  | skipped (hs : s.stage = .gap) (hroom : ceil8 s.cur < s.row.total) :
      RunsTo s m { s with stage := .pad0, cur := 8 * (ceil8 s.cur + 1) }
  | padded (st : Stage) (b : Byte) (hs : s.stage = .pad0 ∨ s.stage = .pad1) (hst : st = .pad0 ∨ st = .pad1)
      (hroom : ceil8 s.cur < s.row.total) :
      RunsTo s m { s with stage := st, cw := Memory.write s.cw (ceil8 s.cur) b, cur := 8 * (ceil8 s.cur + 1) }

variable {s t u : State} {m : Mode} {i : Instr} {st : Stage} {es : List Instr}

/-- The one way an element with room for its bits ends. -/
theorem ExecTo.eq_append (h : ExecTo i s t) (hi : Slot.appended i.slot = true) (hfit : Fits s i.width) :
    t = { s with cw := append s.cwEpoch s.cw s.cur i.width i.value, cur := s.cur + i.width } := by
  cases h with
  | appended => rfl
  | overflowed _ hno => exact absurd hfit hno
  | started _ _ hc => rw [hc] at hi; cases hi
  | skipped hc => rw [hc] at hi; cases hi
  | padded _ hc => rcases hc with rfl | rfl <;> cases hi
  | same hc =>
    rcases hc with hc | ⟨rfl | rfl, -⟩
    · rw [hc] at hi; cases hi
    · cases hi
    · cases hi

/-- The one way the gap ends. -/
theorem ExecTo.eq_skip (h : ExecTo .gap s t) :
    t = { s with cur := min (8 * (ceil8 s.cur + 1)) (8 * s.row.total) } := by
  cases h with
  | skipped => rfl
  | same hc => rcases hc with hc | ⟨hc | hc, -⟩ <;> cases hc
  | started _ _ hc => cases hc
  | appended hi | overflowed hi => cases hi
  | padded _ hc => rcases hc with hc | hc <;> cases hc

/-- The one way a pad byte with a position left ends. -/
theorem ExecTo.eq_pad (h : ExecTo i s t) (hi : i = .pad0 ∨ i = .pad1) (hroom : ceil8 s.cur < s.row.total) :
    ∃ b, t = { s with cw := Memory.write s.cw (ceil8 s.cur) b, cur := 8 * (ceil8 s.cur + 1) } := by
  cases h with
  | padded b => exact ⟨b, rfl⟩
  | same hc =>
    rcases hc with hc | ⟨-, hfull⟩
    · rcases hi with rfl | rfl <;> cases hc
    · omega
  | started _ _ hc => rcases hi with rfl | rfl <;> cases hc
  | appended hi' | overflowed hi' => rcases hi with rfl | rfl <;> cases hi'
  | skipped hc => rcases hi with rfl | rfl <;> cases hc

/-- An appended element, fetched into stage `st` with `es` left of SEG. -/
theorem ExecTo.runsTo_appended (hx : ExecTo i { s with stage := st, seg := es } u)
    (hi : Slot.appended i.slot = true) (hst : st ≠ .test) (hfit : Fits s i.width)
    (hw : ∃ written, pack s.cfg m s.jobText = some (written ++ es))
    (hc : CursorAt { s with stage := st, seg := es, cur := s.cur + i.width } m) : RunsTo s m u := by
  rw [hx.eq_append hi hfit]
  exact .appended i st es hst hfit hw hc

/-- A pad byte at a whole byte position before the end of the buffer. -/
theorem ExecTo.runsTo_padded (hx : ExecTo i { s with stage := st } u) (hi : i = .pad0 ∨ i = .pad1)
    (hs : s.stage = .pad0 ∨ s.stage = .pad1) (hst : st = .pad0 ∨ st = .pad1)
    (hroom : ceil8 s.cur < s.row.total) : RunsTo s m u := by
  obtain ⟨b, rfl⟩ := hx.eq_pad hi hroom
  exact .padded st b hs hst hroom

theorem modeIndOf_width (m : Mode) : (modeIndOf m).width = 4 := by rw [Instr.width, modeIndOf_slot]; rfl

theorem countIndOf_width (m : Mode) (t : Tier) (c : Nat) : (countIndOf m t c).width = countWidth t m := by
  rw [Instr.width, countIndOf_slot]; rfl

/-- A fetched element is past the overflow test. -/
theorem fetchElem_past_test (hf : fetchElem m s = some (i, t)) : s.stage ≠ .test := by
  intro hs
  simp [fetchElem, hs] at hf

/-- The element that stands at the cursor runs in one of the three ways. -/
theorem Assembling.runsTo (h : Assembling s m) (hf : fetchElem m s = some (i, t)) (hx : ExecTo i t u) :
    RunsTo s m u := by
  obtain ⟨-, hreq, -⟩ := h.passed (fetchElem_past_test hf)
  have hc := h.cursor
  rcases fetchElem_some hf with ⟨hs, rfl, rfl⟩ | ⟨hs, rfl, rfl⟩ | ⟨hs, es, hseg, rfl⟩ | ⟨hs, rfl, hroom, rfl⟩ |
    ⟨hs, rfl, hcur, rfl⟩ | ⟨hs, rfl, hcur, rfl⟩ <;> simp only [CursorAt, hs] at hc
  · obtain ⟨hcur, hlen⟩ := hc
    have hwidth := modeIndOf_width m
    exact hx.runsTo_appended (by rw [modeIndOf_slot]; rfl) nofun (by rw [Fits]; omega) h.written
      ⟨show s.cur + _ = 4 by omega, hlen⟩
  · obtain ⟨hcur, hlen⟩ := hc
    have hwidth := countIndOf_width m (tier s.ver) s.count
    exact hx.runsTo_appended (by rw [countIndOf_slot]; rfl) nofun (by rw [Fits]; omega) h.written
      (show s.cur + _ + (encodeAll s.seg).length = s.req by omega)
  · obtain ⟨written, hpack⟩ := h.written
    rw [hseg] at hpack
    rw [hseg, encodeAll_length_cons] at hc
    have hnext : CursorAt { s with stage := .data, seg := es, cur := s.cur + i.width } m :=
      (Nat.add_assoc _ _ _).trans hc
    have hx : ExecTo i { s with stage := .data, seg := es } u := by rwa [← hs]
    exact hx.runsTo_appended (pack_appended hpack i (by simp)) nofun (by rw [Fits]; omega)
      ⟨written ++ [i], by simpa using hpack⟩ hnext
  · rw [hx.eq_skip, Nat.min_eq_left (show 8 * (ceil8 s.cur + 1) ≤ 8 * s.row.total by omega)]
    exact .skipped hs hroom
  · exact hx.runsTo_padded (.inl rfl) (.inl hs) (.inr rfl) (by rw [ceil8]; omega)
  · exact hx.runsTo_padded (.inr rfl) (.inr hs) (.inl rfl) (by rw [ceil8]; omega)

end Sys2Proof.Machine
end

section
/-! The invariant is kept (spec/10_state.md R23 to R34), one lemma for each next state of `BlockTo`, `RunsTo` and
`StepTo`. -/

namespace Sys2Proof.Machine

variable {s t u : State} {m : Mode}

theorem le_ceil8 (n : Nat) : n ≤ 8 * ceil8 n := by
  rw [ceil8]
  omega

/-! CLASSIFY and SELECT. -/

/-- One character scanned. -/
theorem Inv.scanned (h : Inv s) (hp : s.phase = .classify) (hi : s.idx < s.lenR) {q : Mode × Bool}
    (hq : q = classStep s.cfg (s.scanMode, s.scanHalted) (recCp (s.textRec s.idx))) :
    Inv { s with scanMode := q.1, scanHalted := q.2, idx := s.idx + 1 } := by
  obtain ⟨hmode, hcount, hns, hscan⟩ := (phaseInv_classify hp).1 h.phase_inv
  rw [hscan, ← scanAfter_succ hi] at hq
  exact { h with
    idx_le := fun _ => hi
    phase_inv := Iff.mpr (phaseInv_classify hp) ⟨hmode, hcount, hns, hq⟩ }

/-- The scan over, MODE and COUNT written. -/
theorem Inv.classified (h : Inv s) (hp : s.phase = .classify) (hi : s.lenR ≤ s.idx ∨ s.scanHalted = true) :
    Inv { s with
      mode := some s.scanMode, count := countOf s.cfg s.scanMode s.jobText, vscan := 1, phase := .select } := by
  obtain ⟨-, -, hns, hscan⟩ := (phaseInv_classify hp).1 h.phase_inv
  have hcount : countOf s.cfg s.scanMode s.jobText ≤ 4 * textMax := by
    have hle := countOf_le s.cfg s.scanMode s.jobText
    rw [jobText_length] at hle
    exact hle.trans (Nat.mul_le_mul_left 4 h.len_le)
  have hmode : s.scanMode = classify s.cfg (s.jobText.map recCp) := scanAfter_classify hscan.symm hi
  exact { h with
    count_le := hcount
    err_iff := ErrInError.leave h.err_iff (by simp [hp]) nofun rfl
    idx_le := by simp
    phase_inv := ⟨⟨s.scanMode, rfl, hmode, rfl, fun v r h1 h2 => absurd h2 (Nat.not_lt.2 h1)⟩,
      Nat.le_refl 1, show 1 ≤ 40 by decide, hns⟩ }

/-- The row of VSCAN fits and is latched. -/
theorem Inv.latchVersion (h : Inv s) (hp : s.phase = .select) (hm : s.mode = some m) {row : Row}
    (hr : romRow s.cfg s.vscan s.lvlR = some row) (hc : s.count ≤ Row.cap row m) : Inv (s.latchVersion row) := by
  obtain ⟨⟨m', hm', hclass, hcount, hsmall⟩, h1, h2, -, -, hreq⟩ := (phaseInv_select hp).1 h.phase_inv
  cases hm.symm.trans hm'
  have hsel : selectVersion s.cfg s.lvlR m s.count = some (s.vscan, row) :=
    selectVersion_of_first_fit h.cfg_wf h1 h2 (fun v r h3 h4 => hsmall v r h3 (by omega)) hr hc
  exact { h with
    ver_le := h2
    row_fits := romRow_fits h.cfg_wf hr
    err_iff := ErrInError.leave h.err_iff (by simp [hp]) nofun rfl
    idx_le := fun _ => Nat.zero_le _
    phase_inv := ⟨m, ⟨hm, hclass, hcount, hsel⟩, hreq, by cases m <;> rfl, .inl (Nat.dvd_zero _)⟩ }

/-- The row of VSCAN is too small, and the scan goes on. -/
theorem Inv.tooSmall (h : Inv s) (hp : s.phase = .select) (hm : s.mode = some m) {row : Row}
    (hr : romRow s.cfg s.vscan s.lvlR = some row) (hc : Row.cap row m < s.count) (hv : s.vscan < nVersions) :
    Inv { s with vscan := s.vscan + 1 } := by
  obtain ⟨⟨m', hm', hclass, hcount, hsmall⟩, h1, h2, hns⟩ := (phaseInv_select hp).1 h.phase_inv
  cases hm.symm.trans hm'
  have hnext : ∀ v r, 1 ≤ v → v < s.vscan + 1 → romRow s.cfg v s.lvlR = some r → Row.cap r m < s.count := by
    intro v r h3 h4 hv'
    rcases Nat.lt_succ_iff_lt_or_eq.1 h4 with hlt | rfl
    · exact hsmall v r h3 hlt hv'
    · cases hr.symm.trans hv'
      exact hc
  exact { h with
    phase_inv := Iff.mpr (phaseInv_select hp)
      ⟨⟨m, hm, hclass, hcount, hnext⟩, Nat.le_add_left 1 _, hv, hns⟩ }

/-! Errors. -/

/-- An error keeps all but the phase's part, which the raise has to bring. -/
theorem Inv.raise (h : Inv s) {e : JobError} (hp : PhaseInv (s.raise e)) : Inv (s.raise e) :=
  { h with
    cw_wf := List.Pairwise.nil
    cw_in := nofun
    err_iff := ErrInError.raise s e
    idx_le := by simp
    phase_inv := hp }

theorem Inv.raise_noVersionFits (h : Inv s) (hp : s.phase = .select) : Inv (s.raise .noVersionFits) := by
  obtain ⟨⟨m, hm, -⟩, -, -, hns⟩ := (phaseInv_select hp).1 h.phase_inv
  exact h.raise ⟨by simp [hm], hns⟩

theorem Inv.raise_invalidCharacter (h : Inv s) (hp : s.phase = .pack) : Inv (s.raise .invalidCharacterForMode) := by
  obtain ⟨m, hsel, hreq, -⟩ := (phaseInv_pack hp).1 h.phase_inv
  exact h.raise ⟨by simp [hsel.1], hsel.latched, hreq⟩

theorem Inv.raise_capacityOverflow (h : Inv s) (hp : s.phase = .assemble) : Inv (s.raise .capacityOverflow) := by
  obtain ⟨m, hm, ha⟩ := h.assembling_exists hp
  exact h.raise ⟨by simp [hm], ha.selected.latched⟩

/-! PACK. -/

/-- One group packed. -/
theorem Inv.packed (h : Inv s) (hp : s.phase = .pack) (hm : s.mode = some m) (hi : s.idx < s.lenR) {es : List Instr}
    (hg : packGroup s.cfg m (s.nextRecs (groupSize m)) = some es) :
    Inv { s with seg := s.seg ++ es, idx := s.idx + (s.nextRecs (groupSize m)).length } := by
  obtain ⟨m', hsel, hreq, hpack, hbound⟩ := (phaseInv_pack hp).1 h.phase_inv
  cases hm.symm.trans hsel.1
  have hd : groupSize m ∣ s.idx := hbound.resolve_right (by omega)
  have hlen := nextRecs_length s (groupSize m)
  exact { h with
    idx_le := fun _ => show s.idx + _ ≤ s.lenR by omega
    phase_inv := Iff.mpr (phaseInv_pack hp) ⟨m, hsel, hreq, pack_nextGroup hi hd hpack hg, nextGroup_boundary hi hd⟩ }

/-- The whole text packed, REQ written. -/
theorem Inv.allPacked (h : Inv s) (hp : s.phase = .pack) (hm : s.mode = some m) (hi : s.lenR ≤ s.idx) :
    Inv { s with req := requiredBits s.ver m s.jobText, phase := .assemble, stage := .test } := by
  obtain ⟨m', hsel, -, hpack, -⟩ := (phaseInv_pack hp).1 h.phase_inv
  cases hm.symm.trans hsel.1
  rw [List.take_of_length_le (by rwa [jobText_length])] at hpack
  have hreq : requiredBits s.ver m s.jobText ≤ 4 + 16 + 32 * textMax := by
    have hle := requiredBits_le s.ver m s.jobText
    rw [jobText_length] at hle
    exact hle.trans (Nat.add_le_add_left (Nat.mul_le_mul_left 32 h.len_le) _)
  exact { h with
    req_le := hreq
    err_iff := ErrInError.leave h.err_iff (by simp [hp]) nofun rfl
    idx_le := by simp
    phase_inv := ⟨m, hsel, rfl, ⟨[], hpack⟩, pack_requiredBits hpack s.ver, fun hst => absurd rfl hst⟩ }

/-! ASSEMBLE. -/

/-- The overflow test passed, the buffer cleared. -/
theorem Inv.cleared (h : Inv s) (hp : s.phase = .assemble) (ha : Assembling s m) (hs : s.stage = .test)
    (hc : s.count < 2 ^ countWidth (tier s.ver) m) (hr : s.req ≤ 8 * s.row.total) :
    Inv { s with cw := zeroFill s.row.total s.cw, cur := 0, stage := .modeInd } := by
  have hcursor := ha.cursor
  simp only [CursorAt, hs] at hcursor
  have hread : ∀ a, a < s.row.total → (Memory.read (zeroFill s.row.total s.cw) a).isSome := by
    intro a hlt
    rw [read_zeroFill, if_pos hlt]
    rfl
  exact { h with
    cw_wf := zeroFill_wf h.cw_wf _
    cw_in := zeroFill_in h.cw_in ha.selected.total_le
    phase_inv := Iff.mpr (phaseInv_assemble hp)
      ⟨m, { ha with cursor := ⟨rfl, hcursor⟩, passed := fun _ => ⟨hc, hr, hread⟩ }⟩ }

/-- The end of the data: the cursor stands at REQ. -/
theorem Inv.dataEnd (h : Inv s) (hp : s.phase = .assemble) (ha : Assembling s m) (hs : s.stage = .data)
    (he : s.seg = []) : Inv { s with stage := .gap } := by
  have hcursor := ha.cursor
  simp only [CursorAt, hs, he] at hcursor
  exact { h with
    phase_inv := Iff.mpr (phaseInv_assemble hp)
      ⟨m, { ha with cursor := hcursor, passed := fun _ => ha.passed (by simp [hs]) }⟩ }

/-- A byte position behind REQ, skipped or written, leaves the cursor at the next whole byte (R208 to R211). -/
theorem cursorAt_nextByte {st : Stage} (hst : st = .pad0 ∨ st = .pad1) (hreq : s.req ≤ s.cur)
    (hroom : ceil8 s.cur < s.row.total) : CursorAt { s with stage := st, cur := 8 * (ceil8 s.cur + 1) } m := by
  have hle := le_ceil8 s.cur
  have hnext : s.req ≤ 8 * (ceil8 s.cur + 1) := by omega
  rcases hst with rfl | rfl
  · exact ⟨Nat.mul_mod_right 8 _, hnext, Nat.mul_le_mul_left 8 hroom⟩
  · exact ⟨Nat.mul_mod_right 8 _, hnext, Nat.mul_le_mul_left 8 hroom⟩

/-- An element run. -/
theorem Inv.ran (h : Inv s) (hp : s.phase = .assemble) (ha : Assembling s m) (ht : s.stage ≠ .test)
    (hr : RunsTo s m u) : Inv u := by
  obtain ⟨hcount, hreq, hread⟩ := ha.passed ht
  have htotal := ha.selected.total_le
  have hcursor := ha.cursor
  cases hr with
  | appended i st es hst hfit hw hc =>
    rw [Fits] at hfit
    exact { h with
      cw_wf := orBits_wf _ _ _ h.cw_wf
      cw_in := orBits_in _ _ _ h.cw_in (show s.cur + (bitsOf _ _).length ≤ 8 * s.cfg.cwMax by rw [bitsOf_length]; omega)
      phase_inv := Iff.mpr (phaseInv_assemble hp)
        ⟨m, { ha with
          written := hw
          cursor := hc
          passed := fun _ => ⟨hcount, hreq, fun a hlt => read_orBits_isSome _ _ _ _ (hread a hlt)⟩ }⟩ }
  | skipped hs hroom =>
    simp only [CursorAt, hs] at hcursor
    exact { h with
      phase_inv := Iff.mpr (phaseInv_assemble hp)
        ⟨m, { ha with
          cursor := cursorAt_nextByte (.inl rfl) hcursor.ge hroom
          passed := fun _ => ⟨hcount, hreq, hread⟩ }⟩ }
  | padded st b hs hst hroom =>
    have hge : s.req ≤ s.cur := by
      rcases hs with hs | hs <;> simp only [CursorAt, hs] at hcursor <;> exact hcursor.2.1
    refine { h with
      cw_wf := Memory.write_wf h.cw_wf _ _
      cw_in := Memory.write_in h.cw_in (by omega) _
      phase_inv := Iff.mpr (phaseInv_assemble hp)
        ⟨m, { ha with cursor := cursorAt_nextByte hst hge hroom, passed := fun _ => ⟨hcount, hreq, fun a hlt => ?_⟩ }⟩ }
    show (Memory.read (Memory.write _ _ _) a).isSome
    rw [Memory.read_write]
    split
    · rfl
    · exact hread a hlt

/-- The end of the buffer. -/
theorem Inv.finish (h : Inv s) (hp : s.phase = .assemble) (ha : Assembling s m) (ht : s.stage ≠ .test) :
    Inv s.finish := by
  obtain ⟨-, hreq, hread⟩ := ha.passed ht
  exact { h with
    err_iff := ErrInError.leave h.err_iff (by simp [hp]) nofun rfl
    idx_le := by simp
    phase_inv := ⟨by simp [ha.selected.1], ha.selected.latched, hreq, rfl, hread⟩ }

/-- Every step of the block keeps the invariant. -/
theorem Inv.block (h : Inv s) (hb : BlockTo s t) : Inv t := by
  cases hb with
  | rest => exact h
  | scanned hp hi => exact h.scanned hp hi rfl
  | classified hp hi => exact h.classified hp hi
  | latched m row hp hm hr hc => exact h.latchVersion hp hm hr hc
  | tooSmall m row hp hm hr hc hv => exact h.tooSmall hp hm hr hc hv
  | noneFits m row hp => exact h.raise_noVersionFits hp
  | illegal m hp => exact h.raise_invalidCharacter hp
  | packed m es hp hm hi hg => exact h.packed hp hm hi hg
  | allPacked m hp hm hi => exact h.allPacked hp hm hi
  | overflow m hp => exact h.raise_capacityOverflow hp
  | cleared m hp hm hs hc hr => exact h.cleared hp (h.assembling hp hm) hs hc hr
  | ran m i u t hp hm hf hi =>
    have ha := h.assembling hp hm
    exact h.ran hp ha (fetchElem_past_test hf) (ha.runsTo hf hi)
  | dataEnd m hp hm hs he => exact h.dataEnd hp (h.assembling hp hm) hs he
  | finished m hp hm hs =>
    refine h.finish hp (h.assembling hp hm) ?_
    rcases hs with ⟨hs, -⟩ | ⟨hs | hs, -⟩ <;> simp [hs]

/-! The host. -/

/-- After reset every register reads 0 (R280). -/
theorem readReg_resetBlock (n : Nat) (s : State) : readReg n s.resetBlock = 0 := by
  unfold readReg
  split
  case h_1 => exact statusWord_toNat s.resetBlock
  all_goals rfl

theorem Inv.of_resetBlock (hw : s.cfg.wf = true) : Inv s.resetBlock where
  cfg_wf := hw
  text_wf := List.Pairwise.nil
  text_in := nofun
  cw_wf := List.Pairwise.nil
  cw_in := nofun
  err_iff := by simp
  len_le := Nat.zero_le _
  count_le := Nat.zero_le _
  ver_le := Nat.zero_le _
  row_fits := rfl
  req_le := Nat.zero_le _
  idx_le := by simp
  phase_inv := fun n => readReg_resetBlock n s

theorem Inv.startJob (h : Inv s) (l : Level) (n : BitVec 13) : Inv (s.startJob l n.toNat) :=
  { h with
    err_iff := by simp
    len_le := Nat.le_of_lt_succ n.isLt
    count_le := Nat.zero_le _
    ver_le := Nat.zero_le _
    row_fits := rfl
    req_le := Nat.zero_le _
    idx_le := fun _ => Nat.zero_le _
    phase_inv := ⟨rfl, rfl, ⟨rfl, rfl, rfl⟩, rfl⟩ }

/-- While the block is not BUSY the invariant does not speak of the records of TEXT. -/
theorem Inv.writeText (h : Inv s) (hb : s.busy = false) {a : Nat} (ha : a < textMax) (r : Rec) :
    Inv { s with text := Memory.write s.text a r } := by
  have hphase : PhaseInv { s with text := Memory.write s.text a r } := by
    obtain ⟨cfg, phase⟩ := s
    cases phase
    case idle | done | error => exact h.phase_inv
    all_goals cases hb
  exact { h with
    text_wf := Memory.write_wf h.text_wf _ _
    text_in := Memory.write_in h.text_in ha _
    phase_inv := hphase }

/-- Every step of the machine keeps the invariant. -/
theorem Inv.step (h : Inv s) (hs : StepTo s t) : Inv t := by
  cases hs with
  | block hb => exact h.block hb
  | tick rest hh hb => exact (h.bookkeeping rest s.dout s.freeReads).block hb
  | read op rest v f => exact h.bookkeeping rest v f
  | ignored op rest => exact h.bookkeeping rest s.dout s.freeReads
  | started w rest l n => exact (h.bookkeeping rest s.dout s.freeReads).startJob l n
  | wrote a r rest hh hb ha => exact (h.bookkeeping rest s.dout s.freeReads).writeText hb ha r
  | reset rest => exact Inv.of_resetBlock (s := { s with host := rest }) h.cfg_wf

/-- Settles O3: the reset state is what the reset input leaves under the default configuration, but for the epochs,
of which the invariant does not speak. -/
theorem invariantHoldsAtReset : Obligations.InvariantHoldsAtReset :=
  { Inv.of_resetBlock (s := State.reset) (by decide +kernel) with }

/-- Settles O4: the invariant along every next state of a step (`step_to`). -/
theorem everyStepKeepsTheInvariant : Obligations.EveryStepKeepsTheInvariant :=
  fun _ _ hi h => hi.step (step_to h)

end Sys2Proof.Machine
end

section
/-! The cursor along ASSEMBLE (spec/10_state.md R33, spec/44_assemble.md R210). -/

namespace Sys2Proof.Machine

variable {s t u : State} {m : Mode}

/-- What an element step does to the cursor. -/
def CursorAdvances (s t : State) : Prop := s.cur ≤ t.cur ∧ t.cur ≤ 8 * t.row.total

theorem RunsTo.cursorAdvances (h : RunsTo s m t) : CursorAdvances s t := by
  have hle := le_ceil8 s.cur
  cases h with
  | appended i st es hst hfit => exact ⟨Nat.le_add_right _ _, hfit⟩
  | skipped hs hroom | padded st b hs hst hroom =>
    exact ⟨show s.cur ≤ 8 * (ceil8 s.cur + 1) by omega, Nat.mul_le_mul_left 8 hroom⟩

/-- Past the overflow test a step of the block moves the cursor forward, inside the buffer. -/
theorem BlockTo.cursorAdvances (hb : BlockTo s t) (h : Inv s) (hp : s.phase = .assemble) (ht : s.stage ≠ .test) :
    CursorAdvances s t := by
  obtain ⟨m, hm, ha⟩ := h.assembling_exists hp
  have hcur := ha.cur_le ht
  cases hb with
  | rest hp' => simp [hp] at hp'
  | scanned hp' | classified hp' => cases hp.symm.trans hp'
  | latched _ _ hp' | tooSmall _ _ hp' | noneFits _ _ hp' => cases hp.symm.trans hp'
  | illegal _ hp' | packed _ _ hp' | allPacked _ hp' => cases hp.symm.trans hp'
  | overflow _ _ _ hs | cleared _ _ _ hs => exact absurd hs ht
  | ran m' i u t _ hm' hf hx => exact ((h.assembling hp hm').runsTo hf hx).cursorAdvances
  | dataEnd => exact ⟨Nat.le_refl _, hcur⟩
  | finished => exact ⟨hcur, Nat.le_refl _⟩

/-- Settles O22: the block moves the cursor forward, and no host access but reset moves it at all. -/
theorem cursorOnlyAdvances : Obligations.CursorOnlyAdvances := by
  intro s t h hp ht hstep hphase
  obtain ⟨m, hm, ha⟩ := h.assembling_exists hp
  have hbusy : s.busy = true := by simp [State.busy, hp, stateCode]
  cases step_to hstep with
  | block hb => exact hb.cursorAdvances h hp ht
  | tick rest hh hb => exact hb.cursorAdvances (h.bookkeeping rest s.dout s.freeReads) hp ht
  | read | ignored => exact ⟨Nat.le_refl _, ha.cur_le ht⟩
  | started _ _ _ _ _ _ _ _ hb | wrote _ _ _ _ hb => cases hbusy.symm.trans hb
  | reset => simp at hphase

end Sys2Proof.Machine
end

section
/-! APPEND and its byte-wise form (spec/20_memory.md R66, R67): bits that lie in one byte are one write of that byte,
so the form of R67 is the loop of R66 cut at the byte boundaries. -/

namespace Sys2Proof.Machine

/-- Settles O31: an element that fits is stored by `append`, whose bits are `ors_append`. -/
theorem appendOrsTheValueBits : Obligations.AppendOrsTheValueBits :=
  ⟨fun s n v _ _ _ hfit => ⟨_, appendValue_of_fits hfit, rfl, ors_append s n v⟩, by decide⟩

/-- A bit string one bit longer, shifted to its place: the longer string's last bit joins at the right. -/
theorem shiftLeft_append_bit (v : Nat) (b : Bool) (i : Nat) :
    BitVec.ofNat 8 (2 * v + b.toNat) <<< i = BitVec.ofNat 8 v <<< (i + 1) ||| BitVec.ofNat 8 b.toNat <<< i := by
  have hor : 2 * v + b.toNat = v <<< 1 ||| b.toNat := by
    rw [← Nat.shiftLeft_add_eq_or_of_lt (by cases b <;> decide), Nat.shiftLeft_eq, Nat.pow_one, Nat.mul_comm]
  have hshift : BitVec.ofNat 8 (v <<< 1) = BitVec.ofNat 8 v <<< 1 :=
    BitVec.eq_of_toNat_eq (by simp [Nat.shiftLeft_eq])
  rw [hor, BitVec.ofNat_or, BitVec.shiftLeft_or_distrib, hshift, ← BitVec.shiftLeft_add, Nat.add_comm]

/-- Bits that lie in a byte just written amend that write. -/
theorem orBits_write (epoch : Nat) (m : Memory Byte) {a g : Nat} (x : Byte) (bs : List Bool) (hg : 8 * a ≤ g)
    (hend : g + bs.length ≤ 8 * a + 8) :
    orBits epoch bs g (Memory.write m a x) =
      Memory.write m a (x ||| BitVec.ofNat 8 (bitsVal bs) <<< (8 * a + 8 - (g + bs.length))) := by
  induction bs using List.reverseRecOn with
  | nil => simp [orBits, bitsVal]
  | append_singleton bs b ih =>
    rw [List.length_append, List.length_singleton] at hend ⊢
    have ha : (g + bs.length) / 8 = a := by omega
    have hb : 7 - (g + bs.length) % 8 = 8 * a + 8 - (g + (bs.length + 1)) := by omega
    have hi : 8 * a + 8 - (g + bs.length) = 8 * a + 8 - (g + (bs.length + 1)) + 1 := by omega
    rw [append_append, ih (by omega), bitsVal_append_singleton, shiftLeft_append_bit, ← hi]
    simp only [orBits, ha, hb, cwGet_write, if_true, Memory.write_write, BitVec.or_assoc]

/-- Bits that lie in one byte are one write of it: their value ORed in, its last bit at the place of the last one. -/
theorem orBits_in_byte (epoch : Nat) (m : Memory Byte) {g : Nat} {bs : List Bool} (hne : bs ≠ [])
    (hroom : g % 8 + bs.length ≤ 8) :
    orBits epoch bs g m =
      Memory.write m (g / 8)
        (cwGet epoch m (g / 8) ||| BitVec.ofNat 8 (bitsVal bs) <<< (8 - g % 8 - bs.length)) := by
  have hstored : orBits epoch bs g m = orBits epoch bs g (Memory.write m (g / 8) (cwGet epoch m (g / 8))) := by
    cases bs with
    | nil => exact absurd rfl hne
    | cons b bs => simp [orBits, cwGet_write]
  rw [hstored, orBits_write _ _ _ _ (by omega) (by omega)]
  congr 3
  omega

/-- APPEND is APPEND of the first `k` bits and then of the others. -/
theorem append_split (epoch : Nat) (m : Memory Byte) (g v : Nat) {n k : Nat} (hk : k ≤ n) :
    append epoch m g n v =
      append epoch (append epoch m g k (v / 2 ^ (n - k))) (g + k) (n - k) (v % 2 ^ (n - k)) := by
  rw [append, bitsOf_split n v k hk, append_append, bitsOf_length]
  rfl

/-- APPEND of a value whose bits lie in one byte. -/
theorem append_in_byte (epoch : Nat) (m : Memory Byte) {g n v : Nat} (hn : n ≠ 0) (hroom : n ≤ 8 - g % 8)
    (hv : v < 2 ^ n) :
    append epoch m g n v =
      Memory.write m (g / 8) (cwGet epoch m (g / 8) ||| BitVec.ofNat 8 v <<< (8 - g % 8 - n)) := by
  have hne : bitsOf n v ≠ [] := List.ne_nil_of_length_pos (by rw [bitsOf_length]; omega)
  rw [append, orBits_in_byte _ _ hne (by rw [bitsOf_length]; omega), bitsVal_bitsOf_of_lt hv, bitsOf_length]

/-- With enough bytes of fuel for the bits, the byte-wise form is APPEND. -/
theorem appendBytewise_eq_append (epoch fuel : Nat) (m : Memory Byte) {g n v : Nat} (hfuel : n ≤ 8 * fuel - g % 8)
    (hv : v < 2 ^ n) : appendBytewise epoch fuel m g n v = append epoch m g n v := by
  induction fuel generalizing m g n v with
  | zero =>
    obtain rfl : n = 0 := by omega
    rfl
  | succ fuel ih =>
    rw [appendBytewise]
    split
    · next hn => subst hn; rfl
    · next hn =>
      dsimp only
      generalize hk : min n (8 - g % 8) = k
      have hpart : v / 2 ^ (n - k) < 2 ^ k := by
        rw [Nat.div_lt_iff_lt_mul (Nat.two_pow_pos _), ← Nat.pow_add, show k + (n - k) = n by omega]
        exact hv
      rw [append_split epoch m g v (show k ≤ n by omega), append_in_byte epoch m (by omega) (by omega) hpart]
      exact ih _ (by omega) (Nat.mod_lt _ (Nat.two_pow_pos _))

/-- Settles O32: three bytes hold any sixteen bits. -/
theorem bytewiseAppendIsTheSame : Obligations.BytewiseAppendIsTheSame :=
  fun epoch m _ _ _ _ hn hv => appendBytewise_eq_append epoch 3 m (by omega) hv

end Sys2Proof.Machine
end

section
/-! TEXT along a step (spec/10_state.md R41, spec/20_memory.md R65): the block never writes it. -/

namespace Sys2Proof.Machine

variable {s t : State}

/-- TEXT is untouched: the stored records, and what the unwritten ones read as (log entry 6). -/
def TextKept (s t : State) : Prop := t.text = s.text ∧ t.textEpoch = s.textEpoch

theorem TextKept.textRec (h : TextKept s t) (a : Nat) : t.textRec a = s.textRec a :=
  State.textRec_congr h.1 h.2 a

/-- No operation of the opcode table touches TEXT. -/
theorem ExecTo.textKept {i : Instr} (h : ExecTo i s t) : TextKept s t := by
  cases h with
  | same | started | appended | overflowed | skipped | padded => exact ⟨rfl, rfl⟩

/-- No step of the block touches TEXT. -/
theorem BlockTo.textKept (h : BlockTo s t) : TextKept s t := by
  cases h with
  | rest | scanned | classified | latched | tooSmall | noneFits | illegal | packed | allPacked => exact ⟨rfl, rfl⟩
  | overflow | cleared | dataEnd | finished => exact ⟨rfl, rfl⟩
  | ran m i u t hp hm hf hi =>
    rw [fetchElem_keeps hf] at hi
    exact hi.textKept

/-- Settles O48: of a step's next states (`step_to`) only a host write and reset touch TEXT. -/
theorem textChangesOnlyByTheHost : Obligations.TextChangesOnlyByTheHost := by
  intro s t h
  cases step_to h with
  | block hb => exact .inl hb.textKept.textRec
  | tick rest hh hb => exact .inl hb.textKept.textRec
  | read | ignored | started => exact .inl fun _ => rfl
  | wrote a r rest hh hb ha => exact .inr (.inl ⟨a, r, rest, hh, hb, ha, State.textRec_write rfl rfl⟩)
  | reset rest hh => exact .inr (.inr ⟨rest, hh⟩)

end Sys2Proof.Machine
end

section
/-! The command word (spec/30_encoding.md R91, R108): decoding it by GO, LVL and LEN, and its value read back. -/

namespace Sys2Proof

/-- The ENCODE form of a level (R91, R92). -/
def Level.encodeForm : Level → BitVec 13 → Instr
  | .L => .encodeL
  | .M => .encodeM
  | .Q => .encodeQ
  | .H => .encodeH

@[simp] theorem Level.encodeForm_slot (l : Level) (n : BitVec 13) : (l.encodeForm n).slot = .command := by
  cases l <;> rfl

@[simp] theorem Level.encodeForm_wf (l : Level) (n : BitVec 13) : (l.encodeForm n).wf = true := by cases l <;> rfl

@[simp] theorem Level.encodeForm_value (l : Level) (n : BitVec 13) :
    (l.encodeForm n).value = (encodeWord l n).toNat := by
  cases l <;> rfl

theorem decodeCommand_of_go {w : CmdWord} (h : cmdGo w = true) :
    decodeCommand w = (Level.ofCode (cmdLvl w)).encodeForm (cmdLen w) := by
  rw [decodeCommand, if_pos h]
  cases Level.ofCode (cmdLvl w) <;> rfl

theorem decodeCommand_of_not_go {w : CmdWord} (h : cmdGo w = false) : decodeCommand w = .nop (w.extractLsb' 1 15) := by
  rw [decodeCommand, h]
  rfl

theorem decodeCommand_encodeWord (l : Level) (n : BitVec 13) : decodeCommand (encodeWord l n) = l.encodeForm n := by
  rw [decodeCommand_of_go (cmdGo_encodeWord l n), cmdLvl_encodeWord, cmdLen_encodeWord, Level.ofCode_code]

theorem encodeWord_toNat (l : Level) (n : BitVec 13) :
    (encodeWord l n).toNat = 8 * n.toNat + 2 * l.code.toNat + 1 := by
  have hgo : (1#1).toNat = 1 := rfl
  rw [encodeWord, toNat_append, toNat_append, hgo]
  omega

theorem nopWord_toNat (x : BitVec 15) : (x ++ 0#1).toNat = 2 * x.toNat := by
  have hgo : (0#1).toNat = 0 := rfl
  rw [toNat_append, hgo]
  omega

/-- The fifteen bits above GO as a number. -/
theorem extract_above_go (w : CmdWord) : w.extractLsb' 1 15 = BitVec.ofNat 15 (w.toNat / 2) := by
  rw [BitVec.extractLsb', Nat.shiftRight_eq_div_pow, Nat.pow_one]

theorem decodeCommand_nopWord (x : BitVec 15) : decodeCommand (x ++ 0#1) = .nop x := by
  have hgo : cmdGo (x ++ 0#1) = false := by
    rw [cmdGo_eq, nopWord_toNat]
    exact decide_eq_false (by omega)
  rw [decodeCommand_of_not_go hgo, extract_above_go, nopWord_toNat, Nat.mul_div_cancel_left _ (by decide),
    BitVec.ofNat_toNat, BitVec.setWidth_eq]

/-- The decoded form writes the word it was decoded from. -/
theorem decodeCommand_value (w : CmdWord) : (decodeCommand w).value = w.toNat := by
  have hw := w.isLt
  cases hgo : cmdGo w with
  | false =>
    have hbit : w.toNat % 2 ≠ 1 := by simpa [cmdGo_eq] using hgo
    rw [decodeCommand_of_not_go hgo, Instr.value, nopWord_toNat, extract_above_go, BitVec.toNat_ofNat]
    omega
  | true =>
    have hbit : w.toNat % 2 = 1 := by simpa [cmdGo_eq] using hgo
    rw [decodeCommand_of_go hgo, Level.encodeForm_value, encodeWord_toNat, Level.code_ofCode, cmdLen_eq, cmdLvl_eq,
      BitVec.toNat_ofNat, BitVec.toNat_ofNat]
    omega

theorem decodeCommand_slot_wf (w : CmdWord) : (decodeCommand w).slot = .command ∧ (decodeCommand w).wf = true := by
  cases hgo : cmdGo w with
  | false =>
    rw [decodeCommand_of_not_go hgo]
    exact ⟨rfl, rfl⟩
  | true =>
    rw [decodeCommand_of_go hgo]
    exact ⟨Level.encodeForm_slot _ _, Level.encodeForm_wf _ _⟩

/-- LVL selects the form. -/
theorem decodeCommand_of_level {w : CmdWord} {l : Level} (hgo : w.toNat % 2 = 1)
    (hlvl : w.toNat / 2 % 4 = l.code.toNat) : decodeCommand w = l.encodeForm (BitVec.ofNat 13 (w.toNat / 8)) := by
  have hcode : cmdLvl w = l.code := by
    rw [cmdLvl_eq]
    exact BitVec.eq_of_toNat_eq hlvl
  rw [decodeCommand_of_go (by rw [cmdGo_eq, hgo]; rfl), hcode, Level.ofCode_code, cmdLen_eq]

/-- Settles O11: GO = 0 is NOP, and with GO = 1 the level of LVL's code selects the form. -/
theorem everyCommandWordIsOneForm : Obligations.EveryCommandWordIsOneForm := by
  refine fun w => ⟨fun hgo => ?_, fun hgo => ⟨?_, ?_, ?_, ?_⟩⟩
  · rw [decodeCommand_of_not_go (by rw [cmdGo_eq, hgo]; rfl), extract_above_go]
  · exact decodeCommand_of_level (l := .L) hgo
  · exact decodeCommand_of_level (l := .M) hgo
  · exact decodeCommand_of_level (l := .Q) hgo
  · exact decodeCommand_of_level (l := .H) hgo

end Sys2Proof
end

section
/-! The decoder at a slot (spec/30_encoding.md R96 to R107) answers exactly the well-formed operation of that slot
whose value it is given, so decoding and encoding are inverse to each other. -/

namespace Sys2Proof

open Machine Laws

/-- No bit of a well-formed operation's value is dropped. -/
theorem Instr.value_lt {i : Instr} (h : i.wf = true) : i.value < 2 ^ i.slot.width := by
  cases i
  case num3 => exact EncodingFits.num3 _ _ _ h
  case num2 => exact EncodingFits.num2 _ _ h
  case num1 => exact EncodingFits.num1 _ h
  case an2 => exact EncodingFits.an2 _ _ h
  case an1 => exact EncodingFits.an1 _ h
  case miNumeric | miAlnum | miByte | miKanji | gap | pad0 | pad1 => decide
  all_goals exact BitVec.isLt _

theorem Mode.nibble_of_ofNibble {n : BitVec 4} {m : Mode} (h : Mode.ofNibble n = some m) : m.nibble = n := by
  revert n m
  decide

theorem lt_of_decodeAt {sl : Slot} {v : Nat} {i : Instr} (h : decodeAt sl v = .ok i) : v < 2 ^ sl.width := by
  by_contra hv
  rw [decodeAt.eq_def, if_pos (Nat.le_of_not_lt hv)] at h
  cases h

theorem modeIndOf_wf (m : Mode) : (modeIndOf m).wf = true := by cases m <;> rfl

theorem countIndOf_wf (m : Mode) (t : Tier) (c : Nat) : (countIndOf m t c).wf = true := by cases m <;> cases t <;> rfl

/-! The slots with more than one operation, and the count indicators. -/

theorem decodeAt_command {v : Nat} (hv : v < 2 ^ 16) : decodeAt .command v = .ok (decodeCommand (BitVec.ofNat 16 v)) :=
  if_neg (Nat.not_le_of_lt hv)

theorem modeIndOf_of_decodeAt {v : Nat} {i : Instr} (h : decodeAt .modeInd v = .ok i) :
    ∃ m : Mode, i = modeIndOf m ∧ m.nibble.toNat = v := by
  have hv := lt_of_decodeAt h
  rw [decodeAt.eq_def, if_neg (Nat.not_le_of_lt hv)] at h
  dsimp only at h
  cases hm : Mode.ofNibble (BitVec.ofNat 4 v) with
  | none => rw [hm] at h; cases h
  | some m =>
    refine ⟨m, ?_, ?_⟩
    · rw [hm] at h
      cases m <;> cases h <;> rfl
    · rw [Mode.nibble_of_ofNibble hm]
      exact Nat.mod_eq_of_lt hv

theorem decodeAt_countInd {m : Mode} {t : Tier} {v : Nat} (hv : v < 2 ^ (Slot.countInd m t).width) :
    decodeAt (.countInd m t) v = .ok (countIndOf m t v) := by
  rw [decodeAt.eq_def, if_neg (Nat.not_le_of_lt hv)]
  cases m <;> cases t <;> rfl

/-- A well-formed operation is what its value decodes to in its slot. -/
theorem decodeAt_value {i : Instr} (h : i.wf = true) : decodeAt i.slot i.value = .ok i := by
  rw [decodeAt.eq_def, if_neg (Nat.not_le_of_lt (Instr.value_lt h))]
  cases i <;> dsimp only [Instr.slot, Instr.value]
  case encodeL | encodeM | encodeQ | encodeH =>
    rw [BitVec.ofNat_toNat, BitVec.setWidth_eq, decodeCommand_encodeWord]
    rfl
  case nop => rw [BitVec.ofNat_toNat, BitVec.setWidth_eq, decodeCommand_nopWord]
  case miNumeric | miAlnum | miByte | miKanji | gap | pad0 | pad1 => rfl
  case num3 d0 d1 d2 =>
    obtain ⟨h0, h1, h2⟩ : d0 < 10 ∧ d1 < 10 ∧ d2 < 10 := by simpa [Instr.wf, isDigitValue, and_assoc] using h
    refine (if_pos (by omega)).trans ?_
    congr <;> omega
  case num2 d0 d1 =>
    obtain ⟨h0, h1⟩ : d0 < 10 ∧ d1 < 10 := by simpa [Instr.wf, isDigitValue] using h
    refine (if_pos (by omega)).trans ?_
    congr <;> omega
  case num1 => exact if_pos (of_decide_eq_true h)
  case an2 a0 a1 =>
    obtain ⟨h0, h1⟩ : a0 < 45 ∧ a1 < 45 := by simpa [Instr.wf, isAlphaValue] using h
    refine (if_pos (by omega)).trans ?_
    congr <;> omega
  case an1 => exact if_pos (of_decide_eq_true h)
  all_goals rw [BitVec.ofNat_toNat, BitVec.setWidth_eq]

/-- Settles O13, slot by slot. -/
theorem whatDecodesIsItsEncoding : Obligations.WhatDecodesIsItsEncoding := by
  intro sl v i h
  have hv := lt_of_decodeAt h
  cases sl with
  | command =>
    rw [decodeAt_command hv] at h
    cases h
    obtain ⟨hslot, hwf⟩ := decodeCommand_slot_wf (BitVec.ofNat 16 v)
    exact ⟨hslot, hwf, (decodeCommand_value _).trans (Nat.mod_eq_of_lt hv)⟩
  | modeInd =>
    obtain ⟨m, rfl, rfl⟩ := modeIndOf_of_decodeAt h
    exact ⟨modeIndOf_slot m, modeIndOf_wf m, modeIndOf_value m⟩
  | countInd m t =>
    rw [decodeAt_countInd hv] at h
    cases h
    exact ⟨countIndOf_slot m t v, countIndOf_wf m t v, countIndOf_value hv⟩
  | byte8 | kanji13 =>
    cases (if_neg (Nat.not_le_of_lt hv)).symm.trans h
    exact ⟨rfl, rfl, Nat.mod_eq_of_lt hv⟩
  | num3 | num2 | num1 | an2 | an1 | gap | pad0 | pad1 =>
    rw [decodeAt.eq_def, if_neg (Nat.not_le_of_lt hv)] at h
    dsimp only at h
    split at h
    · cases h
      simp [Instr.slot, Instr.wf, Instr.value, isDigitValue, isAlphaValue]
      omega
    · cases h

/-- The bits of a well-formed operation, whatever follows them, decode to it. -/
theorem decodeBits_encode {i : Instr} (h : i.wf = true) (rest : List Bool) :
    decodeBits i.slot (encode i ++ rest) = .ok (i, rest) := by
  have hlen : (encode i).length = i.slot.width := encode_length i
  have hval : bitsVal (encode i) = i.value := bitsVal_bitsOf_of_lt (Instr.value_lt h)
  rw [decodeBits, if_neg (by rw [List.length_append]; omega), List.take_left' hlen, List.drop_left' hlen, hval,
    decodeAt_value h]

/-- Settles O12: the decoder at the operation's slot, on its value (`decodeBits_encode`). -/
theorem decodingAnEncodingGivesItBack : Obligations.DecodingAnEncodingGivesItBack :=
  fun _ rest h => decodeBits_encode h rest

end Sys2Proof
end

section
/-! Reading a packed segment back (spec/30_encoding.md R107): the packers emit, mode by mode, the elements the reader
expects for the characters (in Byte mode: bytes) still to come, and these carry the values of the text in order. -/

namespace Sys2Proof.Machine

/-- The well-formed elements a reader of mode `m` expects while so many characters (in Byte mode: bytes) are still to
come: each stands in the data slot of what is left (R107). -/
inductive DataGroups (m : Mode) : Nat → List Instr → Prop where
  | nil : DataGroups m 0 []
  | cons {left : Nat} {i : Instr} {is : List Instr} (hslot : dataSlot m left = some i.slot) (hwf : i.wf = true)
      (htail : DataGroups m (left - i.slot.units) is) : DataGroups m left (i :: is)

theorem units_pos (sl : Slot) : 1 ≤ sl.units := by
  cases sl <;> exact Nat.succ_pos _

theorem dataSlot_zero (m : Mode) : dataSlot m 0 = none := by cases m <;> rfl

theorem dataSlot_num3 (n : Nat) : dataSlot .numeric (n + 3) = some .num3 := by simp [dataSlot]

theorem dataSlot_an2 (n : Nat) : dataSlot .alnum (n + 2) = some .an2 := by simp [dataSlot]

theorem dataSlot_byte8 (n : Nat) : dataSlot .byte (n + 1) = some .byte8 := by simp [dataSlot]

theorem dataSlot_kanji13 (n : Nat) : dataSlot .kanji (n + 1) = some .kanji13 := by simp [dataSlot]

/-- The reader of R107 answers the groups it expects. -/
theorem decodeGroups_encodeAll {m : Mode} {left fuel : Nat} {seg : List Instr} (h : DataGroups m left seg)
    (hfuel : left ≤ fuel) (rest : List Bool) : decodeGroups m fuel left (encodeAll seg ++ rest) = .ok (seg, rest) := by
  induction h generalizing fuel with
  | nil =>
    cases fuel with
    | zero => rfl
    | succ fuel => simp [decodeGroups, dataSlot_zero]
  | @cons left i is hslot hwf htail ih =>
    have hleft : left ≠ 0 := by
      rintro rfl
      rw [dataSlot_zero] at hslot
      cases hslot
    have hunits := units_pos i.slot
    obtain ⟨fuel, rfl⟩ := Nat.exists_eq_succ_of_ne_zero (show fuel ≠ 0 by omega)
    rw [encodeAll_cons, List.append_assoc]
    simp only [decodeGroups, hslot, decodeBits_encode hwf, ih (show left - i.slot.units ≤ fuel by omega)]

/-- What the elements read back carry is what the mode packs of the text. -/
def CarriesText (cfg : Config) (m : Mode) (txt : List Rec) (seg : List Instr) : Prop :=
  seg.flatMap carriedValues = txt.flatMap (charValues cfg m)

theorem charValues_numeric {cfg : Config} {r : Rec} {d : Nat} (h : digitVal (recCp r) = some d) :
    charValues cfg .numeric r = [d] := by
  rw [(digitVal_some.1 h).2, charValues]

theorem charValues_alnum {cfg : Config} {r : Rec} {a : Nat} (h : alpha (recCp r) = some a) :
    charValues cfg .alnum r = [a] := by
  rw [charValues, h]
  rfl

theorem charValues_kanji {cfg : Config} {r : Rec} {k : BitVec 13} (h : kanjiMap cfg (recCp r) = some k) :
    charValues cfg .kanji r = [k.toNat] := by
  rw [charValues, h]
  rfl

theorem packNumeric_one {r0 : Rec} {seg : List Instr} :
    packNumeric [r0] = some seg ↔ ∃ d0, digitVal (recCp r0) = some d0 ∧ seg = [.num1 d0] := by
  simp [packNumeric, Option.bind_eq_some_iff, @eq_comm _ _ seg]

theorem packNumeric_two {r0 r1 : Rec} {seg : List Instr} :
    packNumeric [r0, r1] = some seg ↔
      ∃ d0 d1, digitVal (recCp r0) = some d0 ∧ digitVal (recCp r1) = some d1 ∧ seg = [.num2 d0 d1] := by
  simp [packNumeric, Option.bind_eq_some_iff, @eq_comm _ _ seg]

theorem packAlnum_one {r0 : Rec} {seg : List Instr} :
    packAlnum [r0] = some seg ↔ ∃ a0, alpha (recCp r0) = some a0 ∧ seg = [.an1 a0] := by
  simp [packAlnum, Option.bind_eq_some_iff, @eq_comm _ _ seg]

theorem packNumeric_readBack (cfg : Config) {txt : List Rec} {seg : List Instr} (h : packNumeric txt = some seg) :
    DataGroups .numeric txt.length seg ∧ CarriesText cfg .numeric txt seg := by
  induction txt using packNumeric.induct generalizing seg with
  | case1 =>
    cases h
    exact ⟨.nil, rfl⟩
  | case2 r0 =>
    obtain ⟨d0, h0, rfl⟩ := packNumeric_one.1 h
    refine ⟨.cons rfl (digitVal_wf h0) .nil, ?_⟩
    simp [CarriesText, carriedValues, charValues_numeric h0]
  | case3 r0 r1 =>
    obtain ⟨d0, d1, h0, h1, rfl⟩ := packNumeric_two.1 h
    refine ⟨.cons rfl (by simp [Instr.wf, digitVal_wf h0, digitVal_wf h1]) .nil, ?_⟩
    simp [CarriesText, carriedValues, charValues_numeric h0, charValues_numeric h1]
  | case4 r0 r1 r2 rs ih =>
    obtain ⟨d0, d1, d2, es, h0, h1, h2, hes, rfl⟩ := packNumeric_cons.1 h
    obtain ⟨hgroups, hvalues⟩ := ih hes
    refine ⟨.cons (dataSlot_num3 _) (by simp [Instr.wf, digitVal_wf h0, digitVal_wf h1, digitVal_wf h2]) hgroups, ?_⟩
    rw [CarriesText] at hvalues
    simp [CarriesText, carriedValues, charValues_numeric h0, charValues_numeric h1, charValues_numeric h2, hvalues]

theorem packAlnum_readBack (cfg : Config) {txt : List Rec} {seg : List Instr} (h : packAlnum txt = some seg) :
    DataGroups .alnum txt.length seg ∧ CarriesText cfg .alnum txt seg := by
  induction txt using packAlnum.induct generalizing seg with
  | case1 =>
    cases h
    exact ⟨.nil, rfl⟩
  | case2 r0 =>
    obtain ⟨a0, h0, rfl⟩ := packAlnum_one.1 h
    refine ⟨.cons rfl (alpha_wf h0) .nil, ?_⟩
    simp [CarriesText, carriedValues, charValues_alnum h0]
  | case3 r0 r1 rs ih =>
    obtain ⟨a0, a1, es, h0, h1, hes, rfl⟩ := packAlnum_cons.1 h
    obtain ⟨hgroups, hvalues⟩ := ih hes
    refine ⟨.cons (dataSlot_an2 _) (by simp [Instr.wf, alpha_wf h0, alpha_wf h1]) hgroups, ?_⟩
    rw [CarriesText] at hvalues
    simp [CarriesText, carriedValues, charValues_alnum h0, charValues_alnum h1, hvalues]

/-- Raw bytes are one group each. -/
theorem dataGroups_byte8 (bs : List Byte) : DataGroups .byte bs.length (bs.map .byte8) := by
  induction bs with
  | nil => exact .nil
  | cons b bs ih => exact .cons (dataSlot_byte8 _) rfl ih

theorem packByte_readBack (cfg : Config) (txt : List Rec) :
    DataGroups .byte (byteCount txt) (packByte txt) ∧ CarriesText cfg .byte txt (packByte txt) := by
  have hlen : byteCount txt = (txt.flatMap recRaw).length := by simp [byteCount, List.length_flatMap]
  have hseg : packByte txt = (txt.flatMap recRaw).map .byte8 := by rw [packByte, List.map_flatMap]
  constructor
  · rw [hlen, hseg]
    exact dataGroups_byte8 _
  · rw [CarriesText, hseg, List.flatMap_map]
    show (txt.flatMap recRaw).flatMap (fun b => [b.toNat]) = txt.flatMap fun r => (recRaw r).map BitVec.toNat
    rw [← List.map_eq_flatMap, List.map_flatMap]

theorem packKanji_readBack {cfg : Config} {txt : List Rec} {seg : List Instr} (h : packKanji cfg txt = some seg) :
    DataGroups .kanji txt.length seg ∧ CarriesText cfg .kanji txt seg := by
  induction txt generalizing seg with
  | nil =>
    cases h
    exact ⟨.nil, rfl⟩
  | cons r rs ih =>
    obtain ⟨k, es, hk, hes, rfl⟩ := packKanji_cons.1 h
    obtain ⟨hgroups, hvalues⟩ := ih hes
    refine ⟨.cons (dataSlot_kanji13 _) rfl hgroups, ?_⟩
    rw [CarriesText] at hvalues
    simp [CarriesText, carriedValues, charValues_kanji hk, hvalues]

theorem pack_readBack {cfg : Config} {m : Mode} {txt : List Rec} {seg : List Instr} (h : pack cfg m txt = some seg) :
    DataGroups m (if m = .byte then byteCount txt else txt.length) seg ∧ CarriesText cfg m txt seg := by
  cases m with
  | numeric => exact packNumeric_readBack cfg h
  | alnum => exact packAlnum_readBack cfg h
  | byte =>
    cases h
    exact packByte_readBack cfg txt
  | kanji => exact packKanji_readBack h

/-- Settles O14: the packed elements are the groups the reader expects (`pack_readBack`), which it answers. -/
theorem packedSegmentsReadBack : Obligations.PackedSegmentsReadBack := by
  intro cfg m txt seg rest h
  obtain ⟨hgroups, hvalues⟩ := pack_readBack h
  exact ⟨decodeGroups_encodeAll hgroups (Nat.le_refl _) rest, hvalues⟩

end Sys2Proof.Machine
end

section
/-! The 93-bit row word (spec/30_encoding.md R95) as a number, and its fields. -/

namespace Sys2Proof

open Machine

theorem rowWord_toNat {r : Row} (h : r.fits = true) :
    (rowWord r).toNat = r.capN + 2 ^ 13 * r.capA + 2 ^ 26 * r.capB + 2 ^ 38 * r.capK + 2 ^ 49 * r.total +
      2 ^ 61 * r.g1b + 2 ^ 69 * r.g1w + 2 ^ 77 * r.g2b + 2 ^ 85 * r.g2w := by
  obtain ⟨hn, ha, hb, hk, ht, h1b, h1w, h2b, h2w⟩ := (Row.fits_iff r).1 h
  simp only [rowWord, toNat_append, BitVec.toNat_ofNat, Nat.mod_eq_of_lt, hn, ha, hb, hk, ht, h1b, h1w, h2b, h2w]
  omega

theorem rowOfWord_rowWord {r : Row} (h : r.fits = true) : rowOfWord (rowWord r) = r := by
  obtain ⟨hn, ha, hb, hk, ht, h1b, h1w, h2b, h2w⟩ := (Row.fits_iff r).1 h
  simp only [rowOfWord, BitVec.extractLsb'_toNat, rowWord_toNat h, Nat.shiftRight_eq_div_pow]
  congr <;> omega

/-- Settles O15: the word as a number, and its fields cut out of that number. -/
theorem rowWordHoldsTheNineFields : Obligations.RowWordHoldsTheNineFields :=
  fun _ h => ⟨rowWord_toNat h, rowOfWord_rowWord h⟩

end Sys2Proof
end

section
/-! The spec's sample words (spec/30_encoding.md R91, R97 to R103). -/

namespace Sys2Proof

/-- Settles O10: the decoder run on each word. -/
theorem sampleWordsDecode : Obligations.SampleWordsDecode := by
  unfold Obligations.SampleWordsDecode
  decide

end Sys2Proof
end

section
/-! The count indicators (spec/30_encoding.md R98): the width tables, and APPEND of the count. -/

namespace Sys2Proof.Machine

/-- An element that is appended at the cursor, where it fits, appends its encoding. -/
theorem appends_encoding {i : Instr} {s : State} {n v : Nat} (hi : Slot.appended i.slot = true) (hn : i.width = n)
    (hv : i.value = v) (h : Fits s n) : Appends i s n v := by
  subst hn hv
  exact appends_of_exec (exec_appended hi s) h

theorem countIndOf_appends {m : Mode} {t : Tier} {s : State} {count : Nat} (hc : count < 2 ^ countWidth t m)
    (h : Fits s (countWidth t m)) : Appends (countIndOf m t count) s (countWidth t m) count :=
  appends_encoding (by rw [countIndOf_slot]; rfl) (countIndOf_width m t count) (countIndOf_value hc) h

/-- The tiers of the forty versions (R141). -/
theorem tier_of_version (v : Nat) :
    (v ≤ 9 → tier v = .t1) ∧ (10 ≤ v → v ≤ 26 → tier v = .t2) ∧ (27 ≤ v → tier v = .t3) := by
  refine ⟨fun h => if_pos h, fun h h' => ?_, fun h => ?_⟩
  · rw [tier, if_neg (by omega), if_pos h']
  · rw [tier, if_neg (by omega), if_neg (by omega)]

/-- Settles O24: each of the twelve is an appended element (`appends_encoding`). -/
theorem countIndicatorsWriteTheCount : Obligations.CountIndicatorsWriteTheCount := by
  refine ⟨⟨rfl, rfl, rfl, fun v _ _ => tier_of_version v⟩, fun s => ?_⟩
  refine ⟨?_, ?_, ?_, ?_, ?_, ?_, ?_, ?_, ?_, ?_, ?_, ?_, fun _ _ _ => countIndOf_appends⟩
  all_goals exact fun _ => appends_encoding rfl rfl rfl

end Sys2Proof.Machine
end

section
/-! The classifier (spec/40_classify.md R120 to R130): its step by the class of the character, and what the text says
about the result. -/

namespace Sys2Proof.Machine

/-! The character classes (R121 to R124) as numbers. -/

theorem isDigit_iff (c : Nat) : isDigit c = true ↔ 0x30 ≤ c ∧ c ≤ 0x39 := by simp [isDigit]

theorem isUpper_iff (c : Nat) : isUpper c = true ↔ 0x41 ≤ c ∧ c ≤ 0x5A := by simp [isUpper]

theorem isSym9_iff (c : Nat) :
    isSym9 c = true ↔ c = 0x24 ∨ c = 0x25 ∨ c = 0x2A ∨ c = 0x2B ∨ c = 0x2D ∨ c = 0x2E ∨ c = 0x2F ∨ c = 0x3A ∨
      c = 0x20 := by
  simp [isSym9]

theorem isCJK_iff (cfg : Config) (c : Nat) : isCJK cfg c = true ↔ ∃ r ∈ cfg.cjk, r.1 ≤ c ∧ c ≤ r.2 := by
  simp [isCJK]

/-- A Byte trigger is what the three tests of R120 all turn down, in their order. -/
theorem byteTrigger_iff (cfg : Config) (c : Nat) :
    byteTrigger cfg c = true ↔ isDigit c = false ∧ (isUpper c || isSym9 c) = false ∧ isCJK cfg c = false := by
  simp [byteTrigger, and_assoc]

theorem byteTrigger_digit (cfg : Config) {c : Nat} (hd : isDigit c = true) : byteTrigger cfg c = false := by
  simp [byteTrigger, hd]

theorem byteTrigger_alnum (cfg : Config) {c : Nat} (hs : (isUpper c || isSym9 c) = true) :
    byteTrigger cfg c = false := by
  rcases Bool.or_eq_true_iff.1 hs with h | h <;> simp [byteTrigger, h]

theorem byteTrigger_cjk {cfg : Config} {c : Nat} (hj : isCJK cfg c = true) : byteTrigger cfg c = false := by
  simp [byteTrigger, hj]

/-! The step of R125, class by class. -/

section
variable {cfg : Config} {m : Mode} {c : Nat}

/-- A digit leaves the pair alone, halted or not. -/
theorem classStep_digit (mh : Mode × Bool) (hd : isDigit c = true) : classStep cfg mh c = mh := by
  obtain ⟨m, _ | _⟩ := mh <;> simp [classStep, hd]

theorem classStep_alnum (hd : isDigit c = false) (hs : (isUpper c || isSym9 c) = true) :
    classStep cfg (m, false) c = (.alnum, false) := by
  simp [classStep, hd, hs]

theorem classStep_cjk (hd : isDigit c = false) (hs : (isUpper c || isSym9 c) = false) (hj : isCJK cfg c = true) :
    classStep cfg (m, false) c = (.kanji, false) := by
  simp [classStep, hd, hs, hj]

theorem classStep_trigger (ht : byteTrigger cfg c = true) : classStep cfg (m, false) c = (.byte, true) := by
  obtain ⟨hd, hs, hj⟩ := (byteTrigger_iff cfg c).1 ht
  simp [classStep, hd, hs, hj]

/-! A whole text. -/

/-- The scan is halted after a text exactly when a Byte trigger stands in it (R127). -/
theorem foldl_classStep_snd (cfg : Config) (m : Mode) (cps : List Nat) :
    (cps.foldl (classStep cfg) (m, false)).2 = cps.any (byteTrigger cfg) := by
  fun_induction classifyFrom cfg m cps with
  | case1 m => rfl
  | case2 m c cs hd ih => simp [classStep_digit _ hd, byteTrigger_digit cfg hd, ih]
  | case3 m c cs hd hs ih => simp [classStep_alnum (Bool.eq_false_of_not_eq_true hd) hs, byteTrigger_alnum cfg hs, ih]
  | case4 m c cs hd hs hj ih =>
    rw [Bool.not_eq_true] at hd hs
    simp [classStep_cjk hd hs hj, byteTrigger_cjk hj, ih]
  | case5 m c cs hd hs hj =>
    rw [Bool.not_eq_true] at hd hs hj
    have ht : byteTrigger cfg c = true := (byteTrigger_iff cfg c).2 ⟨hd, hs, hj⟩
    simp [classStep_trigger ht, classStep_halted, ht]

/-- Without a Byte trigger the scan of R120 runs on to the end of the text. -/
theorem foldl_classStep_running {cps : List Nat} (h : ∀ x ∈ cps, byteTrigger cfg x = false) :
    cps.foldl (classStep cfg) (m, false) = (classifyFrom cfg m cps, false) := by
  refine Prod.ext (foldl_classStep_fst cfg m cps) ?_
  rw [foldl_classStep_snd]
  simpa using h

theorem foldl_classStep_digits {digits : List Nat} (mh : Mode × Bool) (h : ∀ d ∈ digits, isDigit d = true) :
    digits.foldl (classStep cfg) mh = mh := by
  induction digits with
  | nil => rfl
  | cons d ds ih =>
    obtain ⟨hd, hds⟩ := List.forall_mem_cons.1 h
    rw [List.foldl_cons, classStep_digit mh hd, ih hds]

/-- The first Byte trigger ends the scan (R127). -/
theorem foldl_classStep_trigger {pre : List Nat} (rest : List Nat) (hpre : ∀ x ∈ pre, byteTrigger cfg x = false)
    (hc : byteTrigger cfg c = true) : (pre ++ c :: rest).foldl (classStep cfg) (m, false) = (.byte, true) := by
  rw [List.foldl_append, foldl_classStep_running hpre, List.foldl_cons, classStep_trigger hc, classStep_halted]

theorem classifyFrom_eq_byte_iff (cps : List Nat) (hm : m ≠ .byte) :
    classifyFrom cfg m cps = .byte ↔ ∃ c ∈ cps, byteTrigger cfg c = true := by
  fun_induction classifyFrom cfg m cps with
  | case1 m => simp [hm]
  | case2 m c cs hd ih => simp [ih hm, byteTrigger_digit cfg hd]
  | case3 m c cs hd hs ih => simp [ih nofun, byteTrigger_alnum cfg hs]
  | case4 m c cs hd hs hj ih => simp [ih nofun, byteTrigger_cjk hj]
  | case5 m c cs hd hs hj =>
    rw [Bool.not_eq_true] at hd hs hj
    simp [(byteTrigger_iff cfg c).2 ⟨hd, hs, hj⟩]

/-- Nothing sets the mode back to Numeric, and only a digit leaves it there (R130). -/
theorem classifyFrom_eq_numeric_iff (cfg : Config) (m : Mode) (cps : List Nat) :
    classifyFrom cfg m cps = .numeric ↔ m = .numeric ∧ ∀ c ∈ cps, isDigit c = true := by
  fun_induction classifyFrom cfg m cps with
  | case1 m => simp
  | case2 m c cs hd ih => simp [ih, hd]
  | case3 m c cs hd hs ih => simp [ih, hd]
  | case4 m c cs hd hs hj ih => simp [ih, hd]
  | case5 m c cs hd hs hj => simp [hd]

end

/-! The end of the scan in the sequencer (R129, R236). -/

/-- With no host access to come, CLASSIFY takes its next step. -/
theorem step_classify {s : State} (hh : s.host = []) (hp : s.phase = .classify) : step s = classifyStep s := by
  simp [step, turn, hh, blockStep, hp]

theorem classifyStep_end {s : State} (hi : s.lenR ≤ s.idx ∨ s.scanHalted = true) :
    classifyStep s = .next { s with
      mode := some s.scanMode, count := countOf s.cfg s.scanMode s.jobText, vscan := 1, phase := .select } :=
  if_neg fun ⟨hlt, hrun⟩ => hi.elim (Nat.not_le.2 hlt) (by simp [hrun])

/-- Settles O33: the step class by class, and its fold as the scan (`foldl_classStep_fst`). -/
theorem foldedStepsAreTheScan : Obligations.FoldedStepsAreTheScan :=
  fun cfg _ _ cps => ⟨rfl, classStep_digit _, classStep_alnum, classStep_cjk,
    fun hd hs hj => classStep_trigger ((byteTrigger_iff cfg _).2 ⟨hd, hs, hj⟩), foldl_classStep_fst cfg .numeric cps⟩

/-- Settles O34: `Byte` by induction along the scan of R120, the halt by cutting the fold at the first trigger. -/
theorem byteExactlyWithATrigger : Obligations.ByteExactlyWithATrigger :=
  fun _ cps => ⟨classifyFrom_eq_byte_iff cps nofun, fun _ hc _ rest hpre => foldl_classStep_trigger rest hpre hc⟩

/-- Settles O35: the scan reaches the last non-digit character unhalted, that character overwrites the mode, and the
digits after it leave the mode alone. -/
theorem lastNonDigitDecides : Obligations.LastNonDigitDecides := by
  intro cfg pre digits c hrun hd hdigits
  obtain ⟨hpre, hc⟩ := List.forall_mem_append.1 hrun
  have hlast : classify cfg (pre ++ [c] ++ digits) = (classStep cfg (classify cfg pre, false) c).1 := by
    rw [classify, ← foldl_classStep_fst, List.foldl_append, List.foldl_append, foldl_classStep_running hpre,
      foldl_classStep_digits _ hdigits]
    rfl
  rw [hlast]
  by_cases hs : (isUpper c || isSym9 c) = true
  · rw [if_pos hs, classStep_alnum hd hs]
  · rw [if_neg hs]
    rw [Bool.not_eq_true] at hs
    have hj : isCJK cfg c = true := by
      by_contra hj
      have ht := (byteTrigger_iff cfg c).2 ⟨hd, hs, Bool.eq_false_of_not_eq_true hj⟩
      simp [ht] at hc
    rw [classStep_cjk hd hs hj]

/-- Settles O36: the classes as numbers, and `Numeric` by induction along the scan of R120. -/
theorem numericExactlyForDigits : Obligations.NumericExactlyForDigits :=
  ⟨fun cfg c => ⟨isDigit_iff c, isUpper_iff c, isSym9_iff c, isCJK_iff cfg c⟩,
    fun cfg cps => (classifyFrom_eq_numeric_iff cfg .numeric cps).trans (and_iff_right rfl)⟩

/-- Settles O37: the mode at the end of the scan is the result on the whole text (`scanAfter_classify`). -/
theorem classifyWritesModeAndCount : Obligations.ClassifyWritesModeAndCount := by
  intro s h hp hh hend
  have hi : s.lenR ≤ s.idx ∨ s.scanHalted = true := hend.imp_left Eq.ge
  obtain ⟨-, -, -, hscan⟩ := (phaseInv_classify hp).1 h.phase_inv
  have hmode : s.scanMode = classify s.cfg (s.jobText.map recCp) := scanAfter_classify hscan.symm hi
  rw [step_classify hh hp, classifyStep_end hi, hmode, countOf, byteCount, jobText_length]

end Sys2Proof.Machine
end

section
/-! The version selected is the first fit of its level (spec R145, R148). -/

namespace Sys2Proof.Machine

/-- The row the scan selects fits, and none of the versions passed on the way to it does (R145). -/
theorem selectFrom_first_fit {cfg : Config} {l : Level} {m : Mode} {count fuel v w : Nat} {row : Row}
    (h : selectFrom cfg l m count fuel v = some (w, row)) :
    count ≤ Row.cap row m ∧ NoneFits cfg l m count v (w - v) := by
  induction fuel generalizing v with
  | zero => cases h
  | succ fuel ih =>
    cases hr : romRow cfg v l with
    | none => simp [selectFrom, hr] at h
    | some r =>
      rw [selectFrom_succ hr] at h
      by_cases hc : count ≤ Row.cap r m
      · rw [if_pos hc] at h
        cases h
        exact ⟨hc, fun _ _ h1 h2 => absurd h2 (by omega)⟩
      · rw [if_neg hc] at h
        obtain ⟨hfit, hsmall⟩ := ih h
        obtain ⟨hlt, -, -⟩ := selectFrom_some h
        have hlen : w - v = w - (v + 1) + 1 := by omega
        rw [hlen]
        exact ⟨hfit, hsmall.cons hr (by omega)⟩

/-- Settles O38, by the scan's induction (`selectFrom_first_fit`), which needs no order of the capacities. -/
theorem selectionIsTheFirstFit : Obligations.SelectionIsTheFirstFit := by
  intro cfg l m count v row h
  obtain ⟨h1, h40, hrow⟩ := selectVersion_some h
  obtain ⟨hfit, hsmall⟩ := selectFrom_first_fit h
  exact ⟨h1, h40, hrow, hfit, fun v' r' h1' hlt => hsmall v' r' h1' (by omega)⟩

end Sys2Proof.Machine
end

section
/-! The default capacity ROM (spec/42_capacity_rom.md R160 to R167), rule by rule. -/

namespace Sys2Proof.Machine

/-- A check that looks at neither version nor level holds at every address once it holds of every stored row. -/
theorem allRows_of_all {cfg : Config} {p : Row → Bool} (hw : cfg.wf = true) (h : cfg.rom.all p = true) :
    allRows cfg (fun _ _ r => p r) = true := by
  simp only [allRows, List.all_eq_true]
  intro k hk l _
  obtain ⟨r, hr⟩ := romRow_some hw (v := k + 1) l (by omega) (List.mem_range.1 hk)
  simpa [hr] using List.all_eq_true.1 h r (romRow_mem hr)

/-- 160 rows within the fields of R95, as the invariant at reset says of the configuration it starts with. -/
theorem defaultConfig_wf : defaultConfig.wf = true := invariantHoldsAtReset.cfg_wf

theorem defaultConfig_cwMax : defaultConfig.cwMax = 2956 := by decide +kernel

/-- R161. -/
theorem romAnchors_defaultConfig : romAnchors defaultConfig = true := by decide +kernel

/-- R162, on the row alone. -/
theorem romOrdered_defaultConfig : romOrdered defaultConfig = true :=
  allRows_of_all defaultConfig_wf (by decide +kernel)

/-- R163, which compares a row with that of the next version. -/
theorem romMonotone_defaultConfig : romMonotone defaultConfig = true := by decide +kernel

/-- R164, where the count's width depends on the version. -/
theorem romFits_defaultConfig : romFits defaultConfig = true := by decide +kernel

theorem romWellFormed_defaultConfig : romWellFormed defaultConfig = true := by
  rw [romWellFormed, romAnchors_defaultConfig, romOrdered_defaultConfig, romMonotone_defaultConfig,
    romFits_defaultConfig]
  rfl

/-- R167, on the row alone. -/
theorem blockGroups_sum_defaultConfig :
    allRows defaultConfig (fun _ _ r => r.g1b * r.g1w + r.g2b * r.g2w == r.total) = true :=
  allRows_of_all defaultConfig_wf (by decide +kernel)

/-- Settles O40: the checks of the table, one rule at a time. -/
theorem defaultRomIsWellFormed : Obligations.DefaultRomIsWellFormed :=
  ⟨defaultConfig_wf, romWellFormed_defaultConfig, defaultConfig_cwMax, blockGroups_sum_defaultConfig⟩

end Sys2Proof.Machine
end

section
/-! The length of a packed segment (spec/43_segment_pack.md R171) as the formula of the spec. -/

namespace Sys2Proof.Machine

/-- The bits behind the whole groups of three digits (R171). -/
theorem dataBits_numeric (n nb : Nat) : dataBits .numeric n nb = 10 * (n / 3) + [0, 4, 7].getD (n % 3) 0 := by
  obtain h | h | h : n % 3 = 0 ∨ n % 3 = 1 ∨ n % 3 = 2 := by omega
  all_goals rw [dataBits, h]; rfl

/-- Settles O41: a packed segment has `dataBits` bits (`pack_bits`), and that formula is the statement's. -/
theorem packedLengthIsD : Obligations.PackedLengthIsD := by
  intro cfg txt
  refine ⟨fun seg h => ?_, fun seg h => pack_bits h, fun seg h => pack_bits h, fun seg h => pack_bits h, fun m => ?_⟩
  · rw [pack_bits h, dataBits_numeric]
  · cases m with
    | numeric => exact dataBits_numeric _ _
    | alnum | byte | kanji => rfl

end Sys2Proof.Machine
end

section
/-! The alphabet (spec/43_segment_pack.md R177): its 45 code points and their values. -/

namespace Sys2Proof.Machine

/-- The 45 code points of the alphabet in the order of their values. -/
def alphabet : List Nat :=
  (List.range 10).map (0x30 + ·) ++ (List.range 26).map (0x41 + ·) ++
    [0x20, 0x24, 0x25, 0x2A, 0x2B, 0x2D, 0x2E, 0x2F, 0x3A]

theorem alpha_isSome (c : Nat) :
    (alpha c).isSome = true ↔ isDigit c = true ∨ isUpper c = true ∨ isSym9 c = true := by
  rw [Option.isSome_iff_ne_none, Ne, alpha_none]
  simp only [not_and_or, Bool.not_eq_false]

/-- Every code point with a value lies below U+005B. -/
theorem lt_of_alpha {c v : Nat} (h : alpha c = some v) : c < 0x5B := by
  have hclass := (alpha_isSome c).1 (Option.isSome_of_eq_some h)
  rw [isDigit_iff, isUpper_iff, isSym9_iff] at hclass
  omega

/-- A value says which code point it is the value of. -/
theorem alphabet_of_alpha {c v : Nat} (h : alpha c = some v) : alphabet[v]? = some c := by
  have hall : ∀ c < 0x5B, ∀ v ∈ alpha c, alphabet[v]? = some c := by decide
  exact hall c (lt_of_alpha h) v h

/-- Settles O42: the 45 values computed, the domain by `alpha_isSome`, and two code points of one value both the one
that `alphabet` has there. -/
theorem alphabetHasFortyFiveValues : Obligations.AlphabetHasFortyFiveValues := by
  refine ⟨by decide, by decide, rfl, rfl, rfl, rfl, rfl, rfl, rfl, rfl, rfl, alpha_isSome, fun c c' v h h' => ⟨?_, ?_⟩⟩
  · exact Option.some.inj ((alphabet_of_alpha h).symm.trans (alphabet_of_alpha h'))
  · simpa [isAlphaValue] using alpha_wf h

end Sys2Proof.Machine
end

section
/-! Which texts a mode can pack (spec/43_segment_pack.md R186 to R188). -/

namespace Sys2Proof.Machine

theorem digitVal_isSome (c : Nat) : (digitVal c).isSome = isDigit c := by
  cases h : isDigit c <;> simp [digitVal, h]

theorem packNumeric_isSome (txt : List Rec) :
    (packNumeric txt).isSome = true ↔ ∀ r ∈ txt, (digitVal (recCp r)).isSome = true := by
  induction txt using packNumeric.induct with
  | case1 => simp [packNumeric]
  | case2 r0 => simp [Option.isSome_iff_exists, packNumeric_one]
  | case3 r0 r1 => simp [Option.isSome_iff_exists, packNumeric_two]
  | case4 r0 r1 r2 rs ih =>
    simp only [List.forall_mem_cons, ← ih]
    simp [Option.isSome_iff_exists, packNumeric_cons]

theorem packAlnum_isSome (txt : List Rec) :
    (packAlnum txt).isSome = true ↔ ∀ r ∈ txt, (alpha (recCp r)).isSome = true := by
  induction txt using packAlnum.induct with
  | case1 => simp [packAlnum]
  | case2 r0 => simp [Option.isSome_iff_exists, packAlnum_one]
  | case3 r0 r1 rs ih =>
    simp only [List.forall_mem_cons, ← ih]
    simp [Option.isSome_iff_exists, packAlnum_cons]

theorem packKanji_isSome (cfg : Config) (txt : List Rec) :
    (packKanji cfg txt).isSome = true ↔ ∀ r ∈ txt, (kanjiMap cfg (recCp r)).isSome = true := by
  induction txt with
  | nil => simp [packKanji]
  | cons r rs ih =>
    simp only [List.forall_mem_cons, ← ih]
    simp [Option.isSome_iff_exists, packKanji_cons]

/-- Packing succeeds exactly on the texts whose characters are all in the mode's legal set. -/
theorem pack_isSome (cfg : Config) (m : Mode) (txt : List Rec) :
    (pack cfg m txt).isSome = true ↔ ∀ r ∈ txt, legal cfg m r = true := by
  cases m with
  | numeric =>
    simp only [legal, ← digitVal_isSome]
    exact packNumeric_isSome txt
  | alnum => exact packAlnum_isSome txt
  | byte => simp [pack, legal]
  | kanji => exact packKanji_isSome cfg txt

theorem pack_eq_none (cfg : Config) (m : Mode) (txt : List Rec) :
    pack cfg m txt = none ↔ ∃ r ∈ txt, legal cfg m r = false := by
  rw [← Option.not_isSome_iff_eq_none, pack_isSome]
  simp only [not_forall, exists_prop, Bool.not_eq_true]

/-- Settles O43: `legal` mode by mode, and packing group by group (`pack_isSome`). -/
theorem packFailsExactlyOnAnIllegalCharacter : Obligations.PackFailsExactlyOnAnIllegalCharacter :=
  ⟨fun _ _ => ⟨Iff.rfl, Option.isSome_iff_exists, rfl, Option.isSome_iff_exists⟩, pack_eq_none⟩

/-! Where the classifier leaves something to raise (R188). -/

/-- The classifier's answer is not `Byte` only where every character passes one of its tests (R127). -/
theorem not_byteTrigger_of_classify {cfg : Config} {cps : List Nat} (h : classify cfg cps ≠ .byte) :
    ∀ c ∈ cps, byteTrigger cfg c = false := by
  have hnone := (byteExactlyWithATrigger cfg cps).1.not.1 h
  simpa using hnone

/-- A character that is no Byte trigger is outside the alphabet exactly when CJK_SET is the only set that has it. -/
theorem alpha_none_of_not_byteTrigger {cfg : Config} {c : Nat} (h : byteTrigger cfg c = false) :
    alpha c = none ↔ isDigit c = false ∧ isUpper c = false ∧ isSym9 c = false ∧ isCJK cfg c = true := by
  rw [alpha_none]
  refine ⟨fun ⟨hd, hu, hs⟩ => ⟨hd, hu, hs, ?_⟩, fun ⟨hd, hu, hs, _⟩ => ⟨hd, hu, hs⟩⟩
  simpa [byteTrigger, hd, hu, hs] using h

theorem pack_alnum_eq_none (cfg : Config) (txt : List Rec) :
    pack cfg .alnum txt = none ↔ ∃ c ∈ txt.map recCp, alpha c = none := by
  simp [pack_eq_none, legal]

theorem pack_kanji_eq_none (cfg : Config) (txt : List Rec) :
    pack cfg .kanji txt = none ↔ ∃ c ∈ txt.map recCp, kanjiMap cfg c = none := by
  simp [pack_eq_none, legal]

/-- Settles O44: `Numeric` means digits alone, Byte mode packs every record, and in the other two modes the character
outside the legal set is one the classifier let pass. -/
theorem whenAnInvalidCharacterIsReached : Obligations.WhenAnInvalidCharacterIsReached := by
  intro cfg txt cps
  refine ⟨fun h => ?_, fun _ => Option.some_ne_none _, fun h => ?_, fun _ => pack_kanji_eq_none cfg txt⟩
  · have hdigits := (numericExactlyForDigits.2 cfg cps).1 h
    rw [← Option.isSome_iff_ne_none, pack_isSome]
    exact fun r hr => hdigits _ (List.mem_map_of_mem hr)
  · have hrun := not_byteTrigger_of_classify (h.trans_ne nofun)
    rw [pack_alnum_eq_none]
    exact exists_congr fun c => and_congr_right fun hc => alpha_none_of_not_byteTrigger (hrun c hc)

end Sys2Proof.Machine
end

section
/-! The byte view of a segment (spec/43_segment_pack.md R172). -/

namespace Sys2Proof.Machine

theorem byteOfBits_bit (b : Nat → Bool) {k : Nat} (hk : k < 8) : (byteOfBits b).getLsbD (7 - k) = b k := by
  have hbit := bitsVal_testBit ((List.range 8).map b) k (by simpa using hk)
  rw [List.length_map, List.length_range, List.getD_eq_getElem _ _ (by simpa using hk), List.getElem_map,
    List.getElem_range] at hbit
  rw [byteOfBits, BitVec.getLsbD_ofNat, decide_eq_true (by omega), Bool.true_and]
  exact hbit

theorem byteView_length (seg : List Instr) : (byteView seg).length = ceil8 (encodeAll seg).length := by
  simp [byteView]

/-- One element appended to a buffer at a cursor: the buffer and the cursor after it (R66). -/
def appendElem (epoch : Nat) (bg : Memory Byte × Nat) (i : Instr) : Memory Byte × Nat :=
  (append epoch bg.1 bg.2 i.width i.value, bg.2 + i.width)

/-- Elements appended one after the other are their concatenated bits ORed in. -/
theorem foldl_appendElem (epoch : Nat) (seg : List Instr) (m : Memory Byte) (g : Nat) :
    seg.foldl (appendElem epoch) (m, g) = (orBits epoch (encodeAll seg) g m, g + (encodeAll seg).length) := by
  induction seg generalizing m g with
  | nil => rfl
  | cons i is ih =>
    rw [List.foldl_cons, appendElem, ih, encodeAll_cons, append_append, List.length_append, encode_length, append,
      Nat.add_assoc]
    rfl

theorem memBit_zeroFill (epoch : Nat) (m : Memory Byte) {t g : Nat} (hg : g < 8 * t) :
    memBit epoch (zeroFill t m) g = false := by
  rw [memBit, cwGet, read_zeroFill, if_pos (by omega)]
  simp

/-- Bits ORed into a zeroed buffer from its first bit on are the bits it holds, with zeros behind them. -/
theorem memBit_orBits_zeroFill (epoch : Nat) (bs : List Bool) (m : Memory Byte) {t g : Nat} (hg : g < 8 * t) :
    memBit epoch (orBits epoch bs 0 (zeroFill t m)) g = bs.getD g false := by
  rw [memBit_orBits, memBit_zeroFill epoch m hg]
  by_cases hlt : g < bs.length
  · simp [hlt]
  · simp [hlt]

/-- The bits of the byte at an index of the byte view are bits of the segment, or zeros beyond it. -/
theorem byteView_getD_bit (seg : List Instr) {i k : Nat} (hi : i < (byteView seg).length) (hk : k < 8) :
    ((byteView seg).getD i 0).getLsbD (7 - k) = (encodeAll seg).getD (8 * i + k) false := by
  rw [List.getD_eq_getElem _ _ hi]
  simp only [byteView, List.getElem_map, List.getElem_range]
  exact byteOfBits_bit _ hk

theorem memBit_in_byte (epoch : Nat) (m : Memory Byte) (a : Nat) {k : Nat} (hk : k < 8) :
    memBit epoch m (8 * a + k) = (cwGet epoch m a).getLsbD (7 - k) := by
  rw [memBit, show (8 * a + k) / 8 = a by omega, show (8 * a + k) % 8 = k by omega]

/-- The elements appended into a zeroed buffer of as many bytes give the byte view, bit by bit. -/
theorem cwGet_foldl_appendElem (seg : List Instr) (epoch : Nat) :
    (List.range (ceil8 (encodeAll seg).length)).map (cwGet epoch
      (seg.foldl (appendElem epoch) (zeroFill (ceil8 (encodeAll seg).length) [], 0)).1) = byteView seg := by
  have hlen := byteView_length seg
  apply List.ext_getElem (by simp [hlen])
  intro i hi hi'
  rw [List.getElem_map, List.getElem_range, foldl_appendElem]
  refine byte_ext fun k hk => ?_
  rw [← memBit_in_byte epoch _ i hk, memBit_orBits_zeroFill _ _ _ (by omega), ← byteView_getD_bit seg hi' hk,
    List.getD_eq_getElem _ _ hi']

/-- Settles O45: both sides bit by bit (`byteView_getD_bit`, `cwGet_foldl_appendElem`). -/
theorem byteViewIsTheSegmentPadded : Obligations.ByteViewIsTheSegmentPadded := by
  refine fun seg epoch => ⟨byteView_length seg, fun g hg => ?_, cwGet_foldl_appendElem seg epoch⟩
  rw [byteView_getD_bit seg (by omega) (by omega), Nat.div_add_mod]

end Sys2Proof.Machine
end

section
/-! The data elements (spec/43_segment_pack.md R174 to R185): each appends its encoding at the cursor. -/

namespace Sys2Proof.Machine

/-- Settles O25: each of the three groups is an appended element (`appends_encoding`). -/
theorem numericGroupsWriteTheirValue : Obligations.NumericGroupsWriteTheirValue := by
  intro s d0 d1 d2 h0 h1 h2
  exact ⟨appends_encoding rfl rfl rfl, appends_encoding rfl rfl rfl, appends_encoding rfl rfl rfl, by omega, by omega⟩

/-- Settles O26: a pair and a single are appended elements (`appends_encoding`). -/
theorem alphanumericGroupsWriteTheirValue : Obligations.AlphanumericGroupsWriteTheirValue := by
  intro s a0 a1 h0 h1
  exact ⟨appends_encoding rfl rfl rfl, appends_encoding rfl rfl rfl, by omega⟩

/-- Settles O27: both are appended elements (`appends_encoding`). -/
theorem byteAndKanjiElementsWriteTheirValue : Obligations.ByteAndKanjiElementsWriteTheirValue :=
  fun _ => ⟨fun _ => appends_encoding rfl rfl rfl, fun _ => appends_encoding rfl rfl rfl⟩

end Sys2Proof.Machine
end

section
/-! The whole-job function taken apart (spec/45_encode_command.md R233, R254): its four outcomes, said once. -/

namespace Sys2Proof.Machine

/-- What a job with mode `m` and count `count` can end as. -/
inductive JobTo (cfg : Config) (l : Level) (txt : List Rec) (m : Mode) (count : Nat) :
    Except JobError JobResult → Prop where
  | noVersion (hsel : selectVersion cfg l m count = none) : JobTo cfg l txt m count (.error .noVersionFits)
  | illegal (v : Nat) (row : Row) (hsel : selectVersion cfg l m count = some (v, row)) (hpack : pack cfg m txt = none) :
      JobTo cfg l txt m count (.error .invalidCharacterForMode)
  | overflow (v : Nat) (row : Row) (seg : List Instr) (hsel : selectVersion cfg l m count = some (v, row))
      (hpack : pack cfg m txt = some seg)
      (hover : 2 ^ countWidth (tier v) m ≤ count ∨ 8 * row.total < requiredBits v m txt) :
      JobTo cfg l txt m count (.error .capacityOverflow)
  | ok (v : Nat) (row : Row) (seg : List Instr) (hsel : selectVersion cfg l m count = some (v, row))
      (hpack : pack cfg m txt = some seg) (hcount : count < 2 ^ countWidth (tier v) m)
      (hroom : requiredBits v m txt ≤ 8 * row.total) :
      JobTo cfg l txt m count
        (.ok ⟨m, count, v, row, requiredBits v m txt, layout row.total (headerAndData v m count seg)⟩)

theorem encodeJob_to (cfg : Config) (l : Level) (txt : List Rec) :
    JobTo cfg l txt (classify cfg (txt.map recCp)) (countOf cfg (classify cfg (txt.map recCp)) txt)
      (encodeJob cfg l txt) := by
  unfold encodeJob
  dsimp only
  split
  next hsel => exact .noVersion hsel
  next v row hsel =>
    split
    next hpack => exact .illegal v row hsel hpack
    next seg hpack =>
      split
      next hover => exact .overflow v row seg hsel hpack hover
      next hroom => exact .ok v row seg hsel hpack (by omega) (by omega)

end Sys2Proof.Machine
end

section
/-! The finished buffer (spec/44_assemble.md R209, R212), bit by bit and byte by byte. -/

namespace Sys2Proof.Machine

/-! The parts of `H`. -/

section
variable (v : Nat) (m : Mode) (count : Nat) (seg : List Instr)

@[simp] theorem headerAndData_length :
    (headerAndData v m count seg).length = 4 + countWidth (tier v) m + (encodeAll seg).length := by
  simp [headerAndData, Nat.add_assoc]

theorem headerAndData_mode {g : Nat} (hg : g < 4) :
    (headerAndData v m count seg).getD g false = m.nibble.getLsbD (3 - g) := by
  rw [headerAndData, List.append_assoc, List.getD_append _ _ _ _ (by simpa), bitsOf_getD _ _ _ hg]
  rfl

theorem headerAndData_count {k : Nat} (hk : k < countWidth (tier v) m) :
    (headerAndData v m count seg).getD (4 + k) false = count.testBit (countWidth (tier v) m - 1 - k) := by
  rw [headerAndData, List.append_assoc, List.getD_append_right _ _ _ _ (by simp), bitsOf_length,
    Nat.add_sub_cancel_left, List.getD_append _ _ _ _ (by simpa), bitsOf_getD _ _ _ hk]

theorem headerAndData_data (k : Nat) :
    (headerAndData v m count seg).getD (4 + countWidth (tier v) m + k) false = (encodeAll seg).getD k false := by
  rw [headerAndData, List.getD_append_right _ _ _ _ (by simp)]
  simp

end

/-! The layout of any `H`. -/

variable {t : Nat} {h : List Bool}

@[simp] theorem layout_length (t : Nat) (h : List Bool) : (layout t h).length = t := by simp [layout]

theorem layout_getElem? {i : Nat} (hi : i < t) :
    (layout t h)[i]? = some (byteOfBits fun k => layoutBit h (8 * i + k)) := by
  simp [layout, hi]

theorem layout_bit {g : Nat} (hg : g < 8 * t) :
    ((layout t h).getD (g / 8) 0).getLsbD (7 - g % 8) = layoutBit h g := by
  rw [List.getD_eq_getElem?_getD, layout_getElem? (by omega), Option.getD_some, byteOfBits_bit _ (by omega),
    Nat.div_add_mod]

theorem layoutBit_of_lt {g : Nat} (hg : g < h.length) : layoutBit h g = h.getD g false := if_pos hg

theorem layoutBit_gap {g : Nat} (hg : h.length ≤ g) (hgap : g < 8 * (ceil8 h.length + 1)) : layoutBit h g = false := by
  rw [layoutBit, if_neg (by omega), if_pos hgap]

theorem layoutBit_pad {i k : Nat} (hi : ceil8 h.length < i) (hk : k < 8) :
    layoutBit h (8 * i + k) = (padAt (ceil8 h.length) i).getLsbD (7 - k) := by
  have hle := le_ceil8 h.length
  rw [layoutBit, if_neg (by omega), if_neg (by omega), show (8 * i + k) / 8 = i by omega,
    show (8 * i + k) % 8 = k by omega]

/-- The gap byte is left as the zero fill made it (R208). -/
theorem layout_gap_byte (hi : ceil8 h.length < t) : (layout t h)[ceil8 h.length]? = some 0 := by
  rw [layout_getElem? hi]
  refine congrArg some (byte_ext fun k hk => ?_)
  have hle := le_ceil8 h.length
  rw [byteOfBits_bit _ hk, layoutBit_gap (by omega) (by omega)]
  exact BitVec.getLsbD_zero.symm

theorem layout_pad_byte {i : Nat} (hgap : ceil8 h.length < i) (hi : i < t) :
    (layout t h)[i]? = some (padAt (ceil8 h.length) i) := by
  rw [layout_getElem? hi]
  refine congrArg some (byte_ext fun k hk => ?_)
  rw [byteOfBits_bit _ hk, layoutBit_pad hgap hk]

theorem padAt_even (e k : Nat) : padAt e (e + 1 + 2 * k) = 0xEC := if_pos (by omega)

theorem padAt_odd (e k : Nat) : padAt e (e + 2 + 2 * k) = 0x11 := if_neg (by omega)

/-- Settles O56: the record is the layout of `H` (`encodeJob_to`), `H` has as many bits as REQ says
(`pack_requiredBits`), and the layout is read off part by part. -/
theorem gapAndPadPositions : Obligations.GapAndPadPositions := by
  intro cfg l txt r hr
  have hto := encodeJob_to cfg l txt
  rw [hr] at hto
  cases hto with
  | ok v row seg _ hpack _ hroom =>
    generalize classify cfg (txt.map recCp) = m at *
    generalize countOf cfg m txt = count
    have hreq := pack_requiredBits hpack v
    have hlen := (headerAndData_length v m count seg).trans hreq
    have hbit : ∀ {g}, g < requiredBits v m txt →
        ((layout row.total (headerAndData v m count seg)).getD (g / 8) 0).getLsbD (7 - g % 8) =
          (headerAndData v m count seg).getD g false :=
      fun hg => (layout_bit (by omega)).trans (layoutBit_of_lt (by omega))
    dsimp only
    refine ⟨layout_length _ _, by rw [ceil8]; omega, fun g hg => ?_, fun k hk => ?_,
      ⟨seg, hpack, hreq.symm, fun k hk => ?_⟩, fun g hg hgap hg' => ?_, ?_⟩
    · rw [hbit (by omega)]
      exact headerAndData_mode v m count seg hg
    · rw [hbit (by omega), headerAndData_count v m count seg hk]
    · rw [hbit (by omega), headerAndData_data v m count seg k]
    · rw [layout_bit hg', layoutBit_gap (by omega) (by rwa [hlen])]
    · rw [← hlen]
      refine ⟨layout_gap_byte, fun k hk => ?_, fun k hk => ?_⟩
      · rw [layout_pad_byte (by omega) hk, padAt_even]
      · rw [layout_pad_byte (by omega) hk, padAt_odd]

end Sys2Proof.Machine
end

section
/-! When CapacityOverflow can happen (spec/44_assemble.md R203, spec/42_capacity_rom.md R164). -/

namespace Sys2Proof.Machine

/-- A check of all rows holds of the row at any address the ROM has. -/
theorem allRows_row {cfg : Config} {p : Nat → Level → Row → Bool} (h : allRows cfg p = true) {v : Nat} {l : Level}
    {r : Row} (h1 : 1 ≤ v) (h2 : v ≤ nVersions) (hr : romRow cfg v l = some r) : p v l r = true := by
  simp only [allRows, List.all_eq_true] at h
  have hv := h (v - 1) (List.mem_range.2 (by omega)) l (by cases l <;> simp)
  simpa [Nat.sub_add_cancel h1, hr] using hv

/-- R164: a count up to the capacity fits its indicator, and as many characters or bytes the buffer. -/
theorem romFits_row {cfg : Config} (h : romFits cfg = true) {v : Nat} {l : Level} {r : Row} (h1 : 1 ≤ v)
    (h2 : v ≤ nVersions) (hr : romRow cfg v l = some r) (m : Mode) :
    Row.cap r m < 2 ^ countWidth (tier v) m ∧
      4 + countWidth (tier v) m + dataBits m (Row.cap r m) (Row.cap r m) ≤ 8 * r.total := by
  have hrow := allRows_row h h1 h2 hr
  simp only [List.all_eq_true, Bool.and_eq_true, decide_eq_true_eq] at hrow
  exact hrow m (by cases m <;> simp)

/-- The data bits grow with the characters and, in Byte mode alone, with the raw bytes instead (R171). -/
theorem dataBits_mono (m : Mode) {n n' nb nb' : Nat} (hn : m ≠ .byte → n ≤ n') (hnb : m = .byte → nb ≤ nb') :
    dataBits m n nb ≤ dataBits m n' nb' := by
  cases m with
  | numeric =>
    have := hn nofun
    simp only [dataBits]
    split_ifs <;> omega
  | alnum => have := hn nofun; simp only [dataBits]; omega
  | byte => have := hnb rfl; simp only [dataBits]; omega
  | kanji => have := hn nofun; simp only [dataBits]; omega

/-- More raw bytes than characters: some character has several. -/
theorem exists_wide_of_byteCount {txt : List Rec} (h : txt.length < byteCount txt) : ∃ r ∈ txt, 1 < recRawLen r := by
  by_contra hnone
  simp only [not_exists, not_and, Nat.not_lt] at hnone
  have hle := List.sum_le_card_nsmul (txt.map recRawLen) 1 (by simpa using hnone)
  simp only [List.length_map, smul_eq_mul, Nat.mul_one] at hle
  exact absurd h (Nat.not_lt.2 hle)

/-- R203 on the selected row: by R164 the count fits its indicator, so the data do not fit, and they can pass the end
of the buffer only where they grow with something that was not counted. -/
theorem wide_of_overflow {cfg : Config} {l : Level} {txt : List Rec} {m : Mode} {v : Nat} {row : Row}
    (hfits : romFits cfg = true) (hsel : selectVersion cfg l m (countOf cfg m txt) = some (v, row))
    (hover : 2 ^ countWidth (tier v) m ≤ countOf cfg m txt ∨ 8 * row.total < requiredBits v m txt) :
    m = .byte ∧ cfg.unit = .chars ∧ ∃ r ∈ txt, 1 < recRawLen r := by
  obtain ⟨h1, h40, hrow⟩ := selectVersion_some hsel
  obtain ⟨hcap, -⟩ := selectFrom_first_fit hsel
  obtain ⟨hwidth, hroom⟩ := romFits_row hfits h1 h40 hrow m
  have hbits : dataBits m (Row.cap row m) (Row.cap row m) < dataBits m txt.length (byteCount txt) := by
    rw [requiredBits] at hover
    omega
  have hm : m = .byte := by
    by_contra hm
    rw [countOf, if_neg (fun hb => hm hb.1)] at hcap
    exact absurd (dataBits_mono m (fun _ => hcap) (fun hb => absurd hb hm)) (Nat.not_le.2 hbits)
  subst hm
  have hbytes : Row.cap row .byte < byteCount txt := Nat.lt_of_mul_lt_mul_left hbits
  have hunit : cfg.unit = .chars := by
    cases hu : cfg.unit with
    | chars => rfl
    | bytes =>
      rw [countOf, if_pos ⟨rfl, hu⟩] at hcap
      omega
  rw [countOf, if_neg (by simp [hunit])] at hcap
  exact ⟨rfl, hunit, exists_wide_of_byteCount (by omega)⟩

/-- Settles O57: the overflow of the job (`encodeJob_to`) is the failed test on the selected row. -/
theorem overflowOnlyFromWideCharacters : Obligations.OverflowOnlyFromWideCharacters := by
  intro cfg l txt hrom h
  have hfits : romFits cfg = true := (Bool.and_eq_true_iff.1 hrom).2
  have hto := encodeJob_to cfg l txt
  rw [h] at hto
  cases hto with
  | overflow v row seg hsel _ hover => exact wide_of_overflow hfits hsel hover

end Sys2Proof.Machine
end

section
/-! ASSEMBLE element by element (spec/44_assemble.md R200, R204 to R209): which element a step runs, and what the mode
indicators, the gap and the pad bytes do. -/

namespace Sys2Proof.Machine

variable {s : State} {m : Mode}

/-- With no host access to come, a step of ASSEMBLE runs the element that is fetched. -/
theorem step_fetched {i : Instr} {t : State} (hp : s.phase = .assemble) (hm : s.mode = some m) (hh : s.host = [])
    (hf : fetchElem m s = some (i, t)) : step s = exec i t := by
  simp only [step, turn, hh, blockStep, hp, assembleStep, hm, hf]

/-- Settles O21: the element fetched at each stage, run by `step_fetched`. -/
theorem stepRunsTheElementAtTheCursor : Obligations.StepRunsTheElementAtTheCursor := by
  intro s m hp hm hh
  have hrun := fun i t => step_fetched (i := i) (t := t) hp hm hh
  refine ⟨fun hs => ?_, fun hs => ?_, fun e es hs hseg => ?_, fun hs hroom => ?_, fun hs hroom => ?_,
    fun hs hroom => ?_, fun rest => rfl⟩
  · exact hrun _ _ (by simp only [fetchElem, hs])
  · exact hrun _ _ (by simp only [fetchElem, hs])
  · exact hrun _ _ (by simp only [fetchElem, hs, hseg])
  · exact hrun _ _ (by simp only [fetchElem, hs, if_pos hroom])
  · exact hrun _ _ (by simp only [fetchElem, hs, if_pos hroom])
  · exact hrun _ _ (by simp only [fetchElem, hs, if_pos hroom])

/-! The mode indicators. -/

theorem modeIndOf_appends (m : Mode) (h : Fits s 4) : Appends (modeIndOf m) s 4 m.nibble.toNat :=
  appends_encoding (by rw [modeIndOf_slot]; rfl) (modeIndOf_width m) (modeIndOf_value m) h

/-- The nibble as the high half of a byte. -/
theorem nibble_high_half (m : Mode) {k : Nat} (hk : k < 8) :
    (BitVec.ofNat 8 (m.nibble.toNat * 16)).getLsbD (7 - k) = (decide (k < 4) && m.nibble.toNat.testBit (3 - k)) := by
  cases m <;> revert k <;> decide

/-- Four bits ORed in at the start of a zero byte are its high half. -/
theorem OrsBits.nibble_byte {t : State} (h : OrsBits s t 0 4 m.nibble.toNat) (hz : s.cwByte 0 = 0) :
    t.cwByte 0 = BitVec.ofNat 8 (m.nibble.toNat * 16) := by
  refine byte_ext fun k hk => ?_
  have hbit := h k
  simp only [State.cwBit, Nat.div_eq_of_lt hk, Nat.mod_eq_of_lt hk, hz] at hbit
  rw [hbit, nibble_high_half m hk]
  by_cases h4 : k < 4 <;> simp [h4]

/-- Settles O23: each indicator is an appended element (`modeIndOf_appends`), and the first byte is read off its four
bits. -/
theorem modeIndicatorsWriteTheirNibble : Obligations.ModeIndicatorsWriteTheirNibble := by
  intro s h
  refine ⟨⟨modeIndOf_appends .numeric h, modeIndOf_appends .alnum h, modeIndOf_appends .byte h,
    modeIndOf_appends .kanji h⟩, fun hcur hz m => ?_⟩
  obtain ⟨t, ht, hframe, hors⟩ := modeIndOf_appends m h
  rw [hcur] at hframe hors
  exact ⟨t, ht, by rw [hframe], hors.nibble_byte hz⟩

/-! The gap and the pad bytes. -/

/-- Settles O28: GAP is `skipByte` in every state. -/
theorem gapSkipsOneByteUnwritten : Obligations.GapSkipsOneByteUnwritten := fun _ => rfl

/-- A pad byte with a position left fills it, and leaves every other byte. -/
theorem padByte_fills {i : Instr} {b : Byte} (hi : exec i s = padByte b s) (h : ceil8 s.cur < s.row.total) :
    ∃ t, exec i s = .next t ∧ t = { s with cw := t.cw, cur := 8 * (ceil8 s.cur + 1) } ∧
      t.cwByte (ceil8 s.cur) = b ∧ ∀ a, a ≠ ceil8 s.cur → t.cwByte a = s.cwByte a :=
  ⟨_, hi.trans (padByte_of_room h), rfl, (cwGet_write _ _ _ _ _).trans (if_pos rfl),
    fun _ ha => (cwGet_write _ _ _ _ _).trans (if_neg ha)⟩

/-- Settles O29: both pad bytes are `padByte`, with room (`padByte_fills`) and without (`padByte_of_full`). -/
theorem padBytesFillThePosition : Obligations.PadBytesFillThePosition :=
  fun _ => ⟨fun h => ⟨padByte_fills rfl h, padByte_fills rfl h⟩, fun h => ⟨padByte_of_full h, padByte_of_full h⟩⟩

end Sys2Proof.Machine
end

section
/-! Runs of the machine (spec/45_encode_command.md R236, R240): chaining steps, and the turns the host leaves to the
block. -/

namespace Sys2Proof.Machine

variable {s t u : State} {m n : Nat}

/-- A run of `k + 1` steps is a step and a run of `k`. -/
theorem run_succ {k : Nat} (hs : step s = .next u) : Host.Core.run core (k + 1) s = Host.Core.run core k u := by
  simp only [Host.Core.run, show core.step s = .next u from hs]

theorem exists_step_of_run {k : Nat} (h : Host.Core.run core (k + 1) s = .next t) :
    ∃ u, step s = .next u ∧ Host.Core.run core k u = .next t := by
  cases hs : step s with
  | next u => exact ⟨u, rfl, (run_succ hs).symm.trans h⟩
  | fault f =>
    simp only [Host.Core.run, show core.step s = .fault f from hs] at h
    cases h
  | refused r =>
    simp only [Host.Core.run, show core.step s = .refused r from hs] at h
    cases h

theorem run_add {j k : Nat} (h : Host.Core.run core j s = .next u) (h' : Host.Core.run core k u = .next t) :
    Host.Core.run core (j + k) s = .next t := by
  induction j generalizing s with
  | zero =>
    cases h
    rwa [Nat.zero_add]
  | succ j ih =>
    obtain ⟨v, hs, h⟩ := exists_step_of_run h
    rw [Nat.succ_add, run_succ hs]
    exact ih h

/-- At most `n` steps lead from `s` to `t`. -/
def Within (n : Nat) (s t : State) : Prop := ∃ k, k ≤ n ∧ Host.Core.run core k s = .next t

theorem Within.step (hs : Machine.step s = .next u) (h : Within n u t) : Within (n + 1) s t := by
  obtain ⟨k, hk, hrun⟩ := h
  exact ⟨k + 1, Nat.succ_le_succ hk, (run_succ hs).trans hrun⟩

theorem Within.one (hs : Machine.step s = .next t) : Within 1 s t := .step hs ⟨0, Nat.le_refl 0, rfl⟩

theorem Within.trans (h : Within m s u) (h' : Within n u t) : Within (m + n) s t := by
  obtain ⟨j, hj, hrun⟩ := h
  obtain ⟨k, hk, hrun'⟩ := h'
  exact ⟨j + k, Nat.add_le_add hj hk, run_add hrun hrun'⟩

theorem Within.mono (h : Within m s t) (hle : m ≤ n) : Within n s t := by
  obtain ⟨k, hk, hrun⟩ := h
  exact ⟨k, hk.trans hle, hrun⟩

/-- The host leaves every turn to the block while it is BUSY: nothing is to come, or a `wait` (log entry 3). -/
def Yields (host : List HostOp) : Prop := host = [] ∨ ∃ rest, host = .wait :: rest

theorem step_of_yields (hy : Yields s.host) (hb : s.busy = true) : step s = blockStep s := by
  rcases hy with hh | ⟨rest, hh⟩ <;> simp [step, turn, hh, hb]

/-- The phases in which STATE is BUSY (R23, R30). -/
theorem busy_iff : s.busy = true ↔
    s.phase = .classify ∨ s.phase = .select ∨ s.phase = .pack ∨ s.phase = .assemble := by
  unfold State.busy
  cases s.phase <;> decide

theorem step_in_classify (hy : Yields s.host) (hp : s.phase = .classify) : step s = classifyStep s := by
  rw [step_of_yields hy (busy_iff.2 (by simp [hp])), blockStep, hp]

theorem step_in_select (hy : Yields s.host) (hp : s.phase = .select) : step s = selectStep s := by
  rw [step_of_yields hy (busy_iff.2 (by simp [hp])), blockStep, hp]

theorem step_in_pack (hy : Yields s.host) (hp : s.phase = .pack) : step s = packStep s := by
  rw [step_of_yields hy (busy_iff.2 (by simp [hp])), blockStep, hp]

theorem step_in_assemble (hy : Yields s.host) (hp : s.phase = .assemble) : step s = assembleStep s := by
  rw [step_of_yields hy (busy_iff.2 (by simp [hp])), blockStep, hp]

end Sys2Proof.Machine
end

section
/-! CLASSIFY and SELECT run to their ends (spec/45_encode_command.md R236). -/

namespace Sys2Proof.Machine

variable {s : State} {m : Mode}

/-! CLASSIFY. -/

/-- SELECT is entered with mode `m` and its count (R129). -/
def State.toSelect (s : State) (m : Mode) : State :=
  { s with mode := some m, count := countOf s.cfg m s.jobText, vscan := 1, phase := .select }

/-- The character at IDX scanned, `q` the pair after it (R125). -/
def State.scanTo (s : State) (q : Mode × Bool) (i : Nat) : State :=
  { s with scanMode := q.1, scanHalted := q.2, idx := i }

theorem classifyStep_scan (hi : s.idx < s.lenR) (hh : s.scanHalted = false) :
    classifyStep s =
      .next (s.scanTo (classStep s.cfg (s.scanMode, s.scanHalted) (recCp (s.textRec s.idx))) (s.idx + 1)) :=
  if_pos ⟨hi, hh⟩

/-- The scan takes a step for each character still to come, at most, and one for the end; its result is that of the
whole text (R120). -/
theorem classify_ends (hy : Yields s.host) (hp : s.phase = .classify)
    (hscan : (s.scanMode, s.scanHalted) = s.scanAfter s.idx) :
    ∃ q i, Within (s.lenR - s.idx + 1) s ((s.scanTo q i).toSelect (classify s.cfg (s.jobText.map recCp))) := by
  induction hn : s.lenR - s.idx generalizing s with
  | zero =>
    have hend : s.lenR ≤ s.idx ∨ s.scanHalted = true := .inl (by omega)
    rw [← scanAfter_classify hscan.symm hend]
    exact ⟨(s.scanMode, s.scanHalted), s.idx, .one ((step_in_classify hy hp).trans (classifyStep_end hend))⟩
  | succ n ih =>
    cases hh : s.scanHalted with
    | true =>
      rw [← scanAfter_classify hscan.symm (.inr hh)]
      have hdone := (step_in_classify hy hp).trans (classifyStep_end (.inr hh))
      exact ⟨(s.scanMode, s.scanHalted), s.idx, (Within.one hdone).mono (by omega)⟩
    | false =>
      have hi : s.idx < s.lenR := by omega
      have hnext := (step_in_classify hy hp).trans (classifyStep_scan hi hh)
      rw [hscan, ← scanAfter_succ hi] at hnext
      obtain ⟨q, i, hrun⟩ := ih (s := s.scanTo (s.scanAfter (s.idx + 1)) (s.idx + 1)) hy hp rfl
        (show s.lenR - (s.idx + 1) = n by omega)
      exact ⟨q, i, .step hnext hrun⟩

/-! SELECT. -/

/-- Where SELECT ends: the version found is latched with its row, or there is none (R145, R146). -/
def State.afterSelect (s : State) : Option (Nat × Row) → State
  | some (v, row) => ({ s with vscan := v } : State).latchVersion row
  | none => ({ s with vscan := nVersions } : State).raise .noVersionFits

theorem selectStep_fits {row : Row} (hm : s.mode = some m) (hr : romRow s.cfg s.vscan s.lvlR = some row)
    (hc : s.count ≤ Row.cap row m) : selectStep s = .next (s.latchVersion row) := by
  simp [selectStep, hm, hr, hc]

theorem selectStep_tooSmall {row : Row} (hm : s.mode = some m) (hr : romRow s.cfg s.vscan s.lvlR = some row)
    (hc : ¬ s.count ≤ Row.cap row m) (hv : s.vscan < nVersions) :
    selectStep s = .next { s with vscan := s.vscan + 1 } := by
  simp [selectStep, hm, hr, hc, hv]

theorem selectStep_noneFits {row : Row} (hm : s.mode = some m) (hr : romRow s.cfg s.vscan s.lvlR = some row)
    (hc : ¬ s.count ≤ Row.cap row m) (hv : s.vscan = nVersions) :
    selectStep s = .next (s.raise .noVersionFits) := by
  simp only [selectStep, hm, hr, if_neg hc]
  exact if_neg (by omega)

/-- SELECT takes at most one step for each version from VSCAN on, and ends as the scan of R145 does. -/
theorem select_ends (hy : Yields s.host) (hp : s.phase = .select) (hm : s.mode = some m) (hw : s.cfg.wf = true)
    (h1 : 1 ≤ s.vscan) {fuel : Nat} (hfuel : s.vscan + fuel = nVersions) :
    Within (fuel + 1) s (s.afterSelect (selectFrom s.cfg s.lvlR m s.count (fuel + 1) s.vscan)) := by
  induction fuel generalizing s with
  | zero =>
    obtain ⟨row, hr⟩ := romRow_some hw s.lvlR h1 (by omega)
    rw [selectFrom_succ hr]
    by_cases hc : s.count ≤ Row.cap row m
    · rw [if_pos hc]
      exact .one ((step_in_select hy hp).trans (selectStep_fits hm hr hc))
    · rw [if_neg hc]
      show Within 1 s (({ s with vscan := nVersions } : State).raise .noVersionFits)
      rw [← hfuel]
      exact .one ((step_in_select hy hp).trans (selectStep_noneFits hm hr hc hfuel))
  | succ fuel ih =>
    obtain ⟨row, hr⟩ := romRow_some hw s.lvlR h1 (by omega)
    rw [selectFrom_succ hr]
    by_cases hc : s.count ≤ Row.cap row m
    · rw [if_pos hc]
      exact (Within.one ((step_in_select hy hp).trans (selectStep_fits hm hr hc))).mono (by omega)
    · rw [if_neg hc]
      have hsmall := (step_in_select hy hp).trans (selectStep_tooSmall hm hr hc (by omega))
      exact .step hsmall (ih (s := { s with vscan := s.vscan + 1 }) hy hp hm hw (Nat.le_add_left 1 _)
        (show s.vscan + 1 + fuel = nVersions by omega))

end Sys2Proof.Machine
end

section
/-! PACK runs to its end (spec/45_encode_command.md R236, spec/43_segment_pack.md R170, R187). -/

namespace Sys2Proof.Machine

variable {s : State} {m : Mode}

/-- Where PACK ends: REQ is computed from the whole segment, or a character is outside the legal set (R187, R202). -/
def State.afterPack (s : State) (m : Mode) : Option (List Instr) → State
  | some seg => { s with seg := seg, req := requiredBits s.ver m s.jobText, phase := .assemble, stage := .test }
  | none => s.raise .invalidCharacterForMode

theorem packStep_illegal (hm : s.mode = some m) (hi : s.idx < s.lenR)
    (hg : packGroup s.cfg m (s.nextRecs (groupSize m)) = none) :
    packStep s = .next (s.raise .invalidCharacterForMode) := by
  simp [packStep, hm, hi, hg]

theorem packStep_group {es : List Instr} (hm : s.mode = some m) (hi : s.idx < s.lenR)
    (hg : packGroup s.cfg m (s.nextRecs (groupSize m)) = some es) :
    packStep s = .next { s with seg := s.seg ++ es, idx := s.idx + (s.nextRecs (groupSize m)).length } := by
  simp [packStep, hm, hi, hg]

theorem packStep_end (hm : s.mode = some m) (hi : s.lenR ≤ s.idx) :
    packStep s = .next (s.afterPack m (some s.seg)) := by
  simp [packStep, hm, Nat.not_lt.2 hi, State.afterPack]

theorem nextRecs_subset (s : State) (k : Nat) : s.nextRecs k ⊆ s.jobText := by
  rw [nextRecs_eq]
  exact fun _ hr => List.drop_subset _ _ (List.take_subset _ _ hr)

theorem nextRecs_ne_nil (m : Mode) (hi : s.idx < s.lenR) : s.nextRecs (groupSize m) ≠ [] := by
  have hlen := nextRecs_length s (groupSize m)
  have hpos := groupSize_pos m
  exact List.ne_nil_of_length_pos (by omega)

/-- The next group is packed as the text it is. -/
theorem packGroup_nextRecs (m : Mode) (hi : s.idx < s.lenR) :
    packGroup s.cfg m (s.nextRecs (groupSize m)) = pack s.cfg m (s.nextRecs (groupSize m)) :=
  packGroup_eq (nextRecs_ne_nil m hi) (by rw [nextRecs_length]; exact Nat.min_le_left _ _)

/-- PACK takes at most one step for each character from IDX on and one for the end, and ends as the packing of the
whole text does (R170). -/
theorem pack_ends (hy : Yields s.host) (hp : s.phase = .pack) (hm : s.mode = some m)
    (hpack : pack s.cfg m (s.jobText.take s.idx) = some s.seg) (hbound : groupSize m ∣ s.idx ∨ s.idx = s.lenR) :
    ∃ es i, Within (s.lenR - s.idx + 1) s
      (({ s with seg := es, idx := i } : State).afterPack m (pack s.cfg m s.jobText)) := by
  induction hn : s.lenR - s.idx using Nat.strong_induction_on generalizing s with
  | _ n ih =>
    rcases Nat.lt_or_ge s.idx s.lenR with hi | hi
    · have hd : groupSize m ∣ s.idx := hbound.resolve_right (by omega)
      cases hg : packGroup s.cfg m (s.nextRecs (groupSize m)) with
      | none =>
        have hnone : pack s.cfg m s.jobText = none := by
          rw [packGroup_nextRecs m hi, pack_eq_none] at hg
          obtain ⟨r, hr, hlegal⟩ := hg
          exact (pack_eq_none _ _ _).2 ⟨r, nextRecs_subset s _ hr, hlegal⟩
        rw [hnone]
        have hstep := (step_in_pack hy hp).trans (packStep_illegal hm hi hg)
        exact ⟨s.seg, s.idx, (Within.one hstep).mono (by omega)⟩
      | some es =>
        have hpos := List.length_pos_of_ne_nil (nextRecs_ne_nil m hi)
        have hstep := (step_in_pack hy hp).trans (packStep_group hm hi hg)
        obtain ⟨es', i, hrun⟩ := ih (s.lenR - (s.idx + (s.nextRecs (groupSize m)).length)) (by omega)
          (s := { s with seg := s.seg ++ es, idx := s.idx + (s.nextRecs (groupSize m)).length }) hy hp hm
          (pack_nextGroup hi hd hpack hg) (nextGroup_boundary hi hd) rfl
        exact ⟨es', i, (Within.step hstep hrun).mono (by omega)⟩
    · rw [List.take_of_length_le (by rwa [jobText_length])] at hpack
      rw [hpack]
      have hstep := (step_in_pack hy hp).trans (packStep_end hm hi)
      exact ⟨s.seg, s.idx, (Within.one hstep).mono (by omega)⟩

end Sys2Proof.Machine
end

section
/-! ASSEMBLE runs to its end (spec/44_assemble.md R200 to R212): the elements still to be appended, then the gap, then
the pad bytes. -/

namespace Sys2Proof.Machine

variable {s : State} {m : Mode}

theorem step_of_fetch {i : Instr} {t : State} (hy : Yields s.host) (hp : s.phase = .assemble) (hm : s.mode = some m)
    (hf : fetchElem m s = some (i, t)) : step s = exec i t := by
  rw [step_in_assemble hy hp]
  simp only [assembleStep, hm, hf]

/-! The appended elements. -/

/-- Bits appended at the cursor, with what stands next behind them. -/
def State.appended (s : State) (bs : List Bool) (st : Stage) (es : List Instr) : State :=
  { s with stage := st, seg := es, cw := orBits s.cwEpoch bs s.cur s.cw, cur := s.cur + bs.length }

theorem appended_appended (s : State) (bs bs' : List Bool) (st st' : Stage) (es es' : List Instr) :
    (s.appended bs st es).appended bs' st' es' = s.appended (bs ++ bs') st' es' := by
  simp only [State.appended, append_append, List.length_append, Nat.add_assoc]

/-- The elements still to be appended before the end of the data (R200). -/
def State.pending (s : State) (m : Mode) : List Instr :=
  match s.stage with
  | .modeInd => modeIndOf m :: countIndOf m (tier s.ver) s.count :: s.seg
  | .countInd => countIndOf m (tier s.ver) s.count :: s.seg
  | _ => s.seg

/-- The stages before the end of the data, the overflow test behind. -/
def Stage.appends (st : Stage) : Prop := st = .modeInd ∨ st = .countInd ∨ st = .data

theorem pending_length_le (s : State) (m : Mode) : (s.pending m).length ≤ s.seg.length + 2 := by
  unfold State.pending
  split <;> simp

/-- The first element still to be appended is the one that stands at the cursor. -/
theorem fetchElem_pending {i : Instr} {is : List Instr} (hs : s.stage.appends) (hpend : s.pending m = i :: is) :
    ∃ st es, fetchElem m s = some (i, { s with stage := st, seg := es }) ∧ st.appends ∧
      ({ s with stage := st, seg := es } : State).pending m = is := by
  rcases hs with hs | hs | hs <;> simp only [State.pending, hs] at hpend
  · cases hpend
    exact ⟨.countInd, s.seg, by simp only [fetchElem, hs], .inr (.inl rfl), rfl⟩
  · cases hpend
    exact ⟨.data, s.seg, by simp only [fetchElem, hs], .inr (.inr rfl), rfl⟩
  · exact ⟨.data, is, by simp only [fetchElem, hs, hpend], .inr (.inr rfl), rfl⟩

/-- An element with room for its bits is appended. -/
theorem step_appended {i : Instr} {st : Stage} {es : List Instr} (hy : Yields s.host) (hp : s.phase = .assemble)
    (hm : s.mode = some m) (hf : fetchElem m s = some (i, { s with stage := st, seg := es }))
    (hi : Slot.appended i.slot = true) (hfit : Fits s i.width) : step s = .next (s.appended (encode i) st es) := by
  rw [step_of_fetch hy hp hm hf, exec_appended hi, State.appended, encode_length]
  exact appendValue_of_fits hfit

/-- With nothing left to append the data end. -/
theorem step_dataEnd (hy : Yields s.host) (hp : s.phase = .assemble) (hm : s.mode = some m) (hs : s.stage.appends)
    (hpend : s.pending m = []) : step s = .next (s.appended [] .gap []) := by
  rcases hs with hs | hs | hs <;> simp only [State.pending, hs] at hpend
  · cases hpend
  · cases hpend
  · rw [step_in_assemble hy hp]
    simp [assembleStep, hm, fetchElem, hs, hpend, State.appended, orBits]

/-- The elements still to be appended take a step each, and the end of the data one. -/
theorem elements_end (hy : Yields s.host) (hp : s.phase = .assemble) (hm : s.mode = some m) (hs : s.stage.appends)
    (hslot : ∀ i ∈ s.pending m, Slot.appended i.slot = true)
    (hfit : s.cur + (encodeAll (s.pending m)).length ≤ 8 * s.row.total) :
    Within ((s.pending m).length + 1) s (s.appended (encodeAll (s.pending m)) .gap []) := by
  induction hpend : s.pending m generalizing s with
  | nil => exact .one (step_dataEnd hy hp hm hs hpend)
  | cons i is ih =>
    obtain ⟨st, es, hf, hs', rfl⟩ := fetchElem_pending hs hpend
    rw [hpend, encodeAll_length_cons] at hfit
    rw [hpend] at hslot
    obtain ⟨hi, his⟩ := List.forall_mem_cons.1 hslot
    have hnext := step_appended hy hp hm hf hi (show s.cur + i.width ≤ _ by omega)
    have hrun := ih (s := s.appended (encode i) st es) hy hp hm hs' his
      (show s.cur + (encode i).length + _ ≤ _ by rw [encode_length, Nat.add_assoc]; exact hfit) rfl
    rw [appended_appended] at hrun
    rw [encodeAll_cons]
    exact .step hnext hrun

/-! The gap and the pad bytes. -/

/-- The pad byte due `k` bytes behind the place where stage `st` stands (R209). -/
def padFrom (st : Stage) (k : Nat) : Byte :=
  if st = .pad1 then padAt 0 (k + 2) else padAt 0 (k + 1)

theorem padAt_add_two (e i : Nat) (h : e < i) : padAt e (i + 2) = padAt e i := by
  rw [padAt, padAt, show (i + 2 - (e + 1)) % 2 = (i - (e + 1)) % 2 by omega]

/-- A position left takes the pad byte due, and the other one is due next. -/
theorem step_pad {c : Nat} (hy : Yields s.host) (hp : s.phase = .assemble) (hm : s.mode = some m)
    (hs : s.stage = .pad0 ∨ s.stage = .pad1) (hcur : s.cur = 8 * c) (hc : c < s.row.total) :
    ∃ st, (st = .pad0 ∨ st = .pad1) ∧ (∀ k, padFrom st k = padFrom s.stage (k + 1)) ∧
      step s = .next { s with stage := st, cw := Memory.write s.cw c (padFrom s.stage 0), cur := 8 * (c + 1) } := by
  have hceil : ceil8 s.cur = c := by rw [ceil8]; omega
  have hroom : ceil8 s.cur < s.row.total := by omega
  have hlt : s.cur < 8 * s.row.total := by omega
  rcases hs with hs | hs
  · have hf : fetchElem m s = some (.pad0, { s with stage := .pad1 }) := by simp only [fetchElem, hs, if_pos hlt]
    refine ⟨.pad1, .inr rfl, fun k => by rw [hs]; rfl, ?_⟩
    rw [step_of_fetch hy hp hm hf, hs, ← hceil]
    exact padByte_of_room hroom
  · have hf : fetchElem m s = some (.pad1, { s with stage := .pad0 }) := by simp only [fetchElem, hs, if_pos hlt]
    refine ⟨.pad0, .inl rfl, fun k => by rw [hs]; exact (padAt_add_two 0 (k + 1) (Nat.succ_pos k)).symm, ?_⟩
    rw [step_of_fetch hy hp hm hf, hs, ← hceil]
    exact padByte_of_room hroom

/-- At the end of the buffer the job is DONE (R210). -/
theorem step_finish_of_pad (hy : Yields s.host) (hp : s.phase = .assemble) (hm : s.mode = some m)
    (hs : s.stage = .pad0 ∨ s.stage = .pad1) (hend : 8 * s.row.total ≤ s.cur) : step s = .next s.finish := by
  rw [step_in_assemble hy hp]
  rcases hs with hs | hs <;> simp [assembleStep, hm, fetchElem, hs, Nat.not_lt.2 hend]

/-- From byte `c` on the pad bytes due are written, to the end of the buffer. -/
theorem pads_end {c : Nat} (hy : Yields s.host) (hp : s.phase = .assemble) (hm : s.mode = some m)
    (hs : s.stage = .pad0 ∨ s.stage = .pad1) (hcur : s.cur = 8 * c) (hc : c ≤ s.row.total) :
    ∃ st cw, Within (s.row.total - c + 1) s ({ s with stage := st, cw := cw } : State).finish ∧
      ∀ a, a < s.row.total →
        cwGet s.cwEpoch cw a = if a < c then cwGet s.cwEpoch s.cw a else padFrom s.stage (a - c) := by
  induction hn : s.row.total - c generalizing s c with
  | zero =>
    exact ⟨s.stage, s.cw, .one (step_finish_of_pad hy hp hm hs (by omega)), fun a ha => (if_pos (by omega)).symm⟩
  | succ n ih =>
    obtain ⟨st, hst, hdue, hnext⟩ := step_pad hy hp hm hs hcur (by omega)
    obtain ⟨st', cw, hrun, hbytes⟩ := ih
      (s := { s with stage := st, cw := Memory.write s.cw c (padFrom s.stage 0), cur := 8 * (c + 1) }) (c := c + 1)
      hy hp hm hst rfl (show c + 1 ≤ s.row.total by omega) (show s.row.total - (c + 1) = n by omega)
    refine ⟨st', cw, .step hnext hrun, fun a ha => (hbytes a ha).trans ?_⟩
    dsimp only
    rw [cwGet_write, hdue]
    rcases Nat.lt_trichotomy a c with h | rfl | h
    · rw [if_pos (by omega), if_neg (by omega), if_pos h]
    · rw [if_pos (by omega), if_pos rfl, if_neg (by omega), Nat.sub_self]
    · rw [if_neg (by omega), if_neg (by omega), show a - (c + 1) + 1 = a - c by omega]

theorem step_gap (hy : Yields s.host) (hp : s.phase = .assemble) (hm : s.mode = some m) (hs : s.stage = .gap)
    (hroom : ceil8 s.cur < s.row.total) :
    step s = .next { s with stage := .pad0, cur := 8 * (ceil8 s.cur + 1) } := by
  have hf : fetchElem m s = some (.gap, { s with stage := .pad0 }) := by simp only [fetchElem, hs, if_pos hroom]
  rw [step_of_fetch hy hp hm hf]
  show Host.Outcome.next _ = _
  rw [Nat.min_eq_left (Nat.mul_le_mul_left 8 hroom)]

theorem step_finish_of_gap (hy : Yields s.host) (hp : s.phase = .assemble) (hm : s.mode = some m) (hs : s.stage = .gap)
    (hend : s.row.total ≤ ceil8 s.cur) : step s = .next s.finish := by
  rw [step_in_assemble hy hp]
  simp [assembleStep, hm, fetchElem, hs, Nat.not_lt.2 hend]

/-- The bytes up to the gap stay, and those behind it are filled with pad bytes. -/
theorem gap_ends (hy : Yields s.host) (hp : s.phase = .assemble) (hm : s.mode = some m) (hs : s.stage = .gap) :
    ∃ st cw, Within (s.row.total + 1) s ({ s with stage := st, cw := cw } : State).finish ∧
      ∀ a, a < s.row.total →
        cwGet s.cwEpoch cw a = if a ≤ ceil8 s.cur then cwGet s.cwEpoch s.cw a else padAt (ceil8 s.cur) a := by
  rcases Nat.lt_or_ge (ceil8 s.cur) s.row.total with hroom | hend
  · obtain ⟨st, cw, hrun, hbytes⟩ := pads_end (s := { s with stage := .pad0, cur := 8 * (ceil8 s.cur + 1) })
      hy hp hm (.inl rfl) rfl hroom
    refine ⟨st, cw, (Within.step (step_gap hy hp hm hs hroom) hrun).mono ?_, fun a ha => (hbytes a ha).trans ?_⟩
    · dsimp only
      omega
    · dsimp only
      by_cases h : a ≤ ceil8 s.cur
      · rw [if_pos (by omega), if_pos h]
      · rw [if_neg (by omega), if_neg h]
        rfl
  · exact ⟨s.stage, s.cw, (Within.one (step_finish_of_gap hy hp hm hs hend)).mono (by omega),
      fun a ha => (if_pos (by omega)).symm⟩

end Sys2Proof.Machine
end

section
/-! The overflow test and the buffer behind it (spec/44_assemble.md R200 to R212). -/

namespace Sys2Proof.Machine

variable {s : State} {m : Mode}

theorem step_test (hy : Yields s.host) (hp : s.phase = .assemble) (hm : s.mode = some m) (hs : s.stage = .test) :
    step s = beginBuffer m s := by
  rw [step_in_assemble hy hp]
  simp only [assembleStep, hm, fetchElem, hs]

/-- The overflow test fails (R203). -/
theorem step_overflow (hy : Yields s.host) (hp : s.phase = .assemble) (hm : s.mode = some m) (hs : s.stage = .test)
    (ho : 2 ^ countWidth (tier s.ver) m ≤ s.count ∨ 8 * s.row.total < s.req) :
    step s = .next (s.raise .capacityOverflow) :=
  (step_test hy hp hm hs).trans (if_pos ho)

/-- The overflow test passes, and the buffer is cleared (R201, R203). -/
theorem step_clear (hy : Yields s.host) (hp : s.phase = .assemble) (hm : s.mode = some m) (hs : s.stage = .test)
    (hc : s.count < 2 ^ countWidth (tier s.ver) m) (hr : s.req ≤ 8 * s.row.total) :
    step s = .next { s with cw := zeroFill s.row.total s.cw, cur := 0, stage := .modeInd } :=
  (step_test hy hp hm hs).trans (if_neg (not_or.2 ⟨Nat.not_le.2 hc, Nat.not_lt.2 hr⟩))

theorem pending_slots (hseg : ∀ i ∈ s.seg, Slot.appended i.slot = true) :
    ∀ i ∈ s.pending m, Slot.appended i.slot = true := by
  have hmode : Slot.appended (modeIndOf m).slot = true := by rw [modeIndOf_slot]; rfl
  have hcount : Slot.appended (countIndOf m (tier s.ver) s.count).slot = true := by rw [countIndOf_slot]; rfl
  unfold State.pending
  split
  · exact List.forall_mem_cons.2 ⟨hmode, List.forall_mem_cons.2 ⟨hcount, hseg⟩⟩
  · exact List.forall_mem_cons.2 ⟨hcount, hseg⟩
  · exact hseg

/-- The two indicators and the segment write `H` (R212). -/
theorem encodeAll_header {v count : Nat} (hc : count < 2 ^ countWidth (tier v) m) (seg : List Instr) :
    encodeAll (modeIndOf m :: countIndOf m (tier v) count :: seg) = headerAndData v m count seg := by
  rw [encodeAll_cons, encodeAll_cons, headerAndData, encode, encode, modeIndOf_width, modeIndOf_value,
    countIndOf_width, countIndOf_value hc, List.append_assoc]

/-- Up to the gap byte the layout is `H` with zeros behind it. -/
theorem layoutBit_data {h : List Bool} {g : Nat} (hg : g < 8 * (ceil8 h.length + 1)) :
    layoutBit h g = h.getD g false := by
  rcases Nat.lt_or_ge g h.length with hlt | hge
  · exact layoutBit_of_lt hlt
  · rw [layoutBit_gap hge hg, List.getD_eq_default _ _ hge]

/-- `H` ORed into a cleared buffer, with the pad bytes behind the gap, is the layout of R212. -/
theorem buffer_bytes {e t : Nat} {h : List Bool} {old cw : Memory Byte}
    (hbytes : ∀ a, a < t → cwGet e cw a =
      if a ≤ ceil8 h.length then cwGet e (orBits e h 0 (zeroFill t old)) a else padAt (ceil8 h.length) a) :
    (List.range t).map (cwGet e cw) = layout t h := by
  refine List.map_congr_left fun a ha => ?_
  have ha := List.mem_range.1 ha
  rw [hbytes a ha]
  refine byte_ext fun k hk => ?_
  rw [byteOfBits_bit _ hk]
  by_cases hgap : a ≤ ceil8 h.length
  · rw [if_pos hgap, ← memBit_in_byte e _ a hk, memBit_orBits_zeroFill _ _ _ (by omega), layoutBit_data (by omega)]
  · rw [if_neg hgap, layoutBit_pad (by omega) hk]

/-- From the overflow test on, where it passes, the buffer is written and the job is DONE. -/
theorem buffer_ends (hy : Yields s.host) (hp : s.phase = .assemble) (hm : s.mode = some m) (hs : s.stage = .test)
    (hseg : ∀ i ∈ s.seg, Slot.appended i.slot = true) (hc : s.count < 2 ^ countWidth (tier s.ver) m)
    (hreq : 4 + countWidth (tier s.ver) m + (encodeAll s.seg).length = s.req) (hr : s.req ≤ 8 * s.row.total) :
    ∃ st cw,
      Within (s.seg.length + s.row.total + 5) s ({ s with stage := st, seg := [], cw := cw } : State).finish ∧
      (List.range s.row.total).map (cwGet s.cwEpoch cw) =
        layout s.row.total (headerAndData s.ver m s.count s.seg) := by
  have hlen := headerAndData_length s.ver m s.count s.seg
  have hclear := step_clear hy hp hm hs hc hr
  have helems := elements_end (s := { s with cw := zeroFill s.row.total s.cw, cur := 0, stage := .modeInd }) hy hp hm
    (.inl rfl) (pending_slots hseg) (by
      show 0 + (encodeAll (_ :: _ :: s.seg)).length ≤ 8 * s.row.total
      rw [encodeAll_header hc]
      omega)
  simp only [State.pending, encodeAll_header hc] at helems
  obtain ⟨st, cw, hgap, hbytes⟩ := gap_ends
    (s := ({ s with cw := zeroFill s.row.total s.cw, cur := 0, stage := .modeInd } : State).appended
      (headerAndData s.ver m s.count s.seg) .gap []) hy hp hm rfl
  simp only [State.appended, Nat.zero_add] at hbytes
  refine ⟨st, cw, (Within.step hclear (helems.trans hgap)).mono ?_, buffer_bytes hbytes⟩
  simp only [List.length_cons, State.appended]
  omega

end Sys2Proof.Machine
end

section
/-! Every job ends (spec/45_encode_command.md R237): what is left to do in each phase, counted in steps. -/

namespace Sys2Proof.Machine

variable {s t u : State} {m : Mode} {j k : Nat}

/-- At most `n` steps lead from `s` to a state that is not BUSY. -/
def EndsWithin (n : Nat) (s : State) : Prop := ∃ t, Within n s t ∧ t.busy = false

theorem EndsWithin.after (h : Within j s u) (h' : EndsWithin k u) : EndsWithin (j + k) s := by
  obtain ⟨t, hrun, hb⟩ := h'
  exact ⟨t, h.trans hrun, hb⟩

theorem EndsWithin.mono (h : EndsWithin j s) (hle : j ≤ k) : EndsWithin k s := by
  obtain ⟨t, hrun, hb⟩ := h
  exact ⟨t, hrun.mono hle, hb⟩

/-- The invariant along a run. -/
theorem Inv.within (h : Inv s) (hr : Within k s t) : Inv t := by
  obtain ⟨k, -, hrun⟩ := hr
  induction k generalizing s with
  | zero =>
    cases hrun
    exact h
  | succ k ih =>
    obtain ⟨v, hs, hrun⟩ := exists_step_of_run hrun
    exact ih (h.step (step_to hs)) hrun

theorem DataGroups.length_le {left : Nat} {seg : List Instr} (h : DataGroups m left seg) : seg.length ≤ left := by
  induction h with
  | nil => exact Nat.le_refl 0
  | @cons left i is hslot hwf htail ih =>
    have hleft : left ≠ 0 := by
      rintro rfl
      rw [dataSlot_zero] at hslot
      cases hslot
    have hunits := units_pos i.slot
    rw [List.length_cons]
    omega

/-- A segment has at most four elements a character, one for each raw byte. -/
theorem pack_length_le {cfg : Config} {txt : List Rec} {seg : List Instr} (h : pack cfg m txt = some seg) :
    seg.length ≤ 4 * txt.length := by
  have hlen := (pack_readBack h).1.length_le
  have hbytes := byteCount_le txt
  split at hlen <;> omega

theorem Assembling.seg_appended (h : Assembling s m) : ∀ i ∈ s.seg, Slot.appended i.slot = true := by
  obtain ⟨written, hpack⟩ := h.written
  exact fun i hi => pack_appended hpack i (List.mem_append_right _ hi)

theorem Assembling.seg_length_le (h : Assembling s m) : s.seg.length ≤ 4 * s.lenR := by
  obtain ⟨written, hpack⟩ := h.written
  have hlen := pack_length_le hpack
  rw [List.length_append, jobText_length] at hlen
  omega

/-- The bits still to be appended end at REQ. -/
theorem CursorAt.pending (h : CursorAt s m) (hs : s.stage.appends) :
    s.cur + (encodeAll (s.pending m)).length = s.req := by
  have hmode := modeIndOf_width m
  have hcount := countIndOf_width m (tier s.ver) s.count
  rcases hs with hs | hs | hs <;> simp only [CursorAt, hs] at h <;>
    simp only [State.pending, hs, encodeAll_length_cons] <;> omega

theorem gap_endsWithin (hy : Yields s.host) (hp : s.phase = .assemble) (hm : s.mode = some m) (hs : s.stage = .gap) :
    EndsWithin (s.row.total + 1) s := by
  obtain ⟨st, cw, hrun, -⟩ := gap_ends hy hp hm hs
  exact ⟨_, hrun, rfl⟩

theorem Assembling.elements_endsWithin (h : Assembling s m) (hy : Yields s.host) (hp : s.phase = .assemble)
    (hs : s.stage.appends) : EndsWithin (s.seg.length + s.row.total + 4) s := by
  have htest : s.stage ≠ .test := by rcases hs with hs | hs | hs <;> simp [hs]
  obtain ⟨-, hreq, -⟩ := h.passed htest
  have hcur := h.cursor.pending hs
  have hlen := pending_length_le s m
  have hrun := elements_end hy hp h.selected.1 hs (pending_slots h.seg_appended) (by omega)
  have hgap := gap_endsWithin (s := s.appended (encodeAll (s.pending m)) .gap []) hy hp h.selected.1 rfl
  exact (EndsWithin.after hrun hgap).mono (by simp only [State.appended]; omega)

theorem Assembling.pads_endsWithin (h : Assembling s m) (hy : Yields s.host) (hp : s.phase = .assemble)
    (hs : s.stage = .pad0 ∨ s.stage = .pad1) : EndsWithin (s.row.total + 1) s := by
  have hcur : s.cur % 8 = 0 ∧ s.cur ≤ 8 * s.row.total := by
    have hc := h.cursor
    rcases hs with hs | hs <;> simp only [CursorAt, hs] at hc <;> exact ⟨hc.1, hc.2.2⟩
  obtain ⟨st, cw, hrun, -⟩ := pads_end (c := s.cur / 8) hy hp h.selected.1 hs (by omega) (by omega)
  exact EndsWithin.mono ⟨_, hrun, rfl⟩ (by omega)

theorem Inv.assemble_endsWithin (h : Inv s) (hy : Yields s.host) (hp : s.phase = .assemble) :
    EndsWithin (4 * s.lenR + s.cfg.cwMax + 5) s := by
  obtain ⟨m, hm, ha⟩ := h.assembling_exists hp
  have hseg := ha.seg_length_le
  have htotal := ha.selected.total_le
  cases hs : s.stage with
  | test =>
    by_cases ho : 2 ^ countWidth (tier s.ver) m ≤ s.count ∨ 8 * s.row.total < s.req
    · exact EndsWithin.mono ⟨_, .one (step_overflow hy hp hm hs ho), rfl⟩ (by omega)
    · have hc : s.count < 2 ^ countWidth (tier s.ver) m := by omega
      have hr : s.req ≤ 8 * s.row.total := by omega
      have hnext := (h.cleared hp ha hs hc hr).assembling hp hm
      exact (EndsWithin.after (.one (step_clear hy hp hm hs hc hr))
        (hnext.elements_endsWithin hy hp (.inl rfl))).mono (by dsimp only; omega)
  | modeInd => exact (ha.elements_endsWithin hy hp (.inl hs)).mono (by omega)
  | countInd => exact (ha.elements_endsWithin hy hp (.inr (.inl hs))).mono (by omega)
  | data => exact (ha.elements_endsWithin hy hp (.inr (.inr hs))).mono (by omega)
  | gap => exact (gap_endsWithin hy hp hm hs).mono (by omega)
  | pad0 => exact (ha.pads_endsWithin hy hp (.inl hs)).mono (by omega)
  | pad1 => exact (ha.pads_endsWithin hy hp (.inr hs)).mono (by omega)

theorem Inv.pack_endsWithin (h : Inv s) (hy : Yields s.host) (hp : s.phase = .pack) :
    EndsWithin (5 * s.lenR + s.cfg.cwMax + 6) s := by
  obtain ⟨m, ⟨hm, -⟩, -, hpack, hbound⟩ := (phaseInv_pack hp).1 h.phase_inv
  obtain ⟨es, i, hrun⟩ := pack_ends hy hp hm hpack hbound
  cases hres : pack s.cfg m s.jobText with
  | none =>
    rw [hres] at hrun
    exact EndsWithin.mono ⟨_, hrun, rfl⟩ (by omega)
  | some seg =>
    rw [hres] at hrun
    have hrest := (h.within hrun).assemble_endsWithin hy rfl
    exact (EndsWithin.after hrun hrest).mono (by simp only [State.afterPack]; omega)

theorem Inv.select_endsWithin (h : Inv s) (hy : Yields s.host) (hp : s.phase = .select) :
    EndsWithin (5 * s.lenR + s.cfg.cwMax + 46) s := by
  obtain ⟨⟨m, hm, -⟩, h1, h40, -⟩ := (phaseInv_select hp).1 h.phase_inv
  have hrun := select_ends hy hp hm h.cfg_wf h1 (Nat.add_sub_cancel' h40)
  have hsteps : nVersions - s.vscan + 1 ≤ 40 := by rw [nVersions]; omega
  cases hres : selectFrom s.cfg s.lvlR m s.count (nVersions - s.vscan + 1) s.vscan with
  | none =>
    rw [hres] at hrun
    exact EndsWithin.mono ⟨_, hrun, rfl⟩ (by omega)
  | some vr =>
    rw [hres] at hrun
    have hrest := (h.within hrun).pack_endsWithin hy rfl
    exact (EndsWithin.after hrun hrest).mono (by simp only [State.afterSelect, State.latchVersion]; omega)

theorem Inv.classify_endsWithin (h : Inv s) (hy : Yields s.host) (hp : s.phase = .classify) :
    EndsWithin (6 * s.lenR + s.cfg.cwMax + 47) s := by
  obtain ⟨-, -, -, hscan⟩ := (phaseInv_classify hp).1 h.phase_inv
  obtain ⟨q, i, hrun⟩ := classify_ends hy hp hscan
  have hrest := (h.within hrun).select_endsWithin hy rfl
  exact (EndsWithin.after hrun hrest).mono (by simp only [State.toSelect, State.scanTo]; omega)

/-- Settles O60, phase by phase from the last one back. -/
theorem everyJobEnds : Obligations.EveryJobEnds := by
  intro s h hb hh
  have hy : Yields s.host := .inl hh
  have hends : EndsWithin (6 * s.lenR + s.cfg.cwMax + 50) s := by
    rcases busy_iff.1 hb with hp | hp | hp | hp
    · exact (h.classify_endsWithin hy hp).mono (by omega)
    · exact (h.select_endsWithin hy hp).mono (by omega)
    · exact (h.pack_endsWithin hy hp).mono (by omega)
    · exact (h.assemble_endsWithin hy hp).mono (by omega)
  obtain ⟨t, ⟨k, hk, hrun⟩, hdone⟩ := hends
  exact ⟨k, t, hk, hrun, hdone⟩

end Sys2Proof.Machine
end

section
/-! A whole job (spec/45_encode_command.md R233 to R237): its text loaded, its command given, and its phases run to the
outcome of the whole-job function. -/

namespace Sys2Proof.Machine

variable {s t : State} {m : Mode} {l : Level} {txt : List Rec}

/-! The text. -/

/-- TEXT with the records stored from address `a` on. -/
def loadText : Memory Rec → Nat → List Rec → Memory Rec
  | mem, _, [] => mem
  | mem, a, r :: rs => loadText (Memory.write mem a r) (a + 1) rs

theorem read_loadText_below (mem : Memory Rec) {a b : Nat} (txt : List Rec) (h : b < a) :
    Memory.read (loadText mem a txt) b = Memory.read mem b := by
  induction txt generalizing mem a with
  | nil => rfl
  | cons r rs ih => rw [loadText, ih _ (by omega), Memory.read_write_other _ _ (by omega)]

theorem read_loadText (mem : Memory Rec) (a : Nat) {txt : List Rec} {i : Nat} (hi : i < txt.length) :
    Memory.read (loadText mem a txt) (a + i) = some txt[i] := by
  induction txt generalizing mem a i with
  | nil => cases hi
  | cons r rs ih =>
    rw [loadText]
    cases i with
    | zero => exact (read_loadText_below _ rs (Nat.lt_succ_self a)).trans (Memory.read_write_same _ _ _)
    | succ i =>
      rw [show a + (i + 1) = a + 1 + i by omega, ih _ _ (Nat.lt_of_succ_lt_succ hi)]
      rfl

/-- The loaded text is the job's text, whatever stood in TEXT before. -/
theorem jobText_loadText {mem : Memory Rec} (ht : s.text = loadText mem 0 txt) (hl : s.lenR = txt.length) :
    s.jobText = txt := by
  apply List.ext_getElem (by rw [jobText_length, hl])
  intro i hi hi'
  rw [jobText_length] at hi
  have hread := read_loadText mem 0 hi'
  rw [Nat.zero_add, ← ht] at hread
  rw [jobText_getElem s i hi, State.textRec, hread, Option.getD_some]

/-- Outside BUSY the host's writes store the text, one record a step. -/
theorem text_loads {a : Nat} {rest : List HostOp} (hb : s.busy = false) (hh : s.host = textOps a txt ++ rest)
    (ha : a + txt.length ≤ textMax) :
    Within txt.length s { s with host := rest, text := loadText s.text a txt } := by
  induction txt generalizing s a with
  | nil =>
    cases hh
    exact ⟨0, Nat.le_refl 0, rfl⟩
  | cons r rs ih =>
    rw [List.length_cons] at ha
    have hwrite := (step_writeText hh).trans (hostWriteText_stored hb (by omega))
    exact .step hwrite (ih (s := { s with host := textOps (a + 1) rs ++ rest, text := Memory.write s.text a r })
      (a := a + 1) hb rfl (by omega))

/-! The phases, from the command on. -/

/-- The job at the start of PACK, `q` and `i` what the scan left. -/
def State.packing (s : State) (m : Mode) (v : Nat) (row : Row) (q : Mode × Bool) (i : Nat) : State :=
  ({ (s.scanTo q i).toSelect m with vscan := v } : State).latchVersion row

/-- A job in CLASSIFY: the pair is that of the characters before IDX, and nothing is selected yet (R125, R230). -/
structure JobStart (s : State) : Prop where
  yields : Yields s.host
  phase : s.phase = .classify
  scan : (s.scanMode, s.scanHalted) = s.scanAfter s.idx
  err : s.err = none
  notSelected : NotSelected s
  cfg_wf : s.cfg.wf = true

/-- CLASSIFY and SELECT of a job. -/
theorem JobStart.select_ends (h : JobStart s) (hm : m = classify s.cfg (s.jobText.map recCp)) :
    ∃ q i, Within (s.lenR + 41) s
      (((s.scanTo q i).toSelect m).afterSelect (selectVersion s.cfg s.lvlR m (countOf s.cfg m s.jobText))) := by
  subst hm
  obtain ⟨q, i, hclass⟩ := classify_ends h.yields h.phase h.scan
  have hsel := Machine.select_ends (s := (s.scanTo q i).toSelect (classify s.cfg (s.jobText.map recCp))) (fuel := 39)
    h.yields rfl rfl h.cfg_wf (Nat.le_refl 1) rfl
  exact ⟨q, i, (hclass.trans hsel).mono (by omega)⟩

/-- PACK of a job whose version is found. -/
theorem JobStart.pack_ends (h : JobStart s) (hm : m = classify s.cfg (s.jobText.map recCp)) {v : Nat} {row : Row}
    (hsel : selectVersion s.cfg s.lvlR m (countOf s.cfg m s.jobText) = some (v, row)) :
    ∃ q i es j, Within (2 * s.lenR + 42) s
      (({ s.packing m v row q i with seg := es, idx := j } : State).afterPack m (pack s.cfg m s.jobText)) := by
  obtain ⟨q, i, hrun⟩ := h.select_ends hm
  rw [hsel] at hrun
  obtain ⟨es, j, hpack⟩ := Machine.pack_ends (s := s.packing m v row q i) (m := m) h.yields rfl rfl
    (by cases m <;> rfl) (.inl (Nat.dvd_zero _))
  have hsteps : s.lenR + 41 + (s.lenR - 0 + 1) ≤ 2 * s.lenR + 42 := by omega
  exact ⟨q, i, es, j, (hrun.trans hpack).mono hsteps⟩

theorem endsAs_of_ok {r : JobResult} (h : encodeJob t.cfg l txt = .ok r) (hd : DoneResult t l txt r) :
    EndsAs t l txt := by
  rw [EndsAs, h]
  exact hd

theorem endsAs_of_error {e : JobError} (h : encodeJob t.cfg l txt = .error e) (he : ErrorResult t l txt e) :
    EndsAs t l txt := by
  rw [EndsAs, h]
  exact he

/-- The run of a job left the host's list, the configuration and the text as they were. -/
structure JobFrame (s t : State) : Prop where
  host : t.host = s.host
  cfg : t.cfg = s.cfg
  text : t.jobText = s.jobText

/-- A job ends as the whole-job function says (R236). -/
theorem JobStart.ends (h : JobStart s) :
    ∃ t, Within (6 * s.lenR + s.cfg.cwMax + 47) s t ∧ JobFrame s t ∧ EndsAs t s.lvlR s.jobText := by
  have hto := encodeJob_to s.cfg s.lvlR s.jobText
  have hlen := (jobText_length s).symm
  generalize hr : encodeJob s.cfg s.lvlR s.jobText = r at hto
  cases hto with
  | noVersion hsel =>
    obtain ⟨q, i, hrun⟩ := h.select_ends rfl
    rw [hsel] at hrun
    exact ⟨_, hrun.mono (by omega), ⟨rfl, rfl, rfl⟩,
      endsAs_of_error hr ⟨rfl, rfl, rfl, hlen, rfl, rfl, h.notSelected⟩⟩
  | illegal v row hsel hpack =>
    obtain ⟨q, i, es, j, hrun⟩ := h.pack_ends rfl hsel
    rw [hpack] at hrun
    exact ⟨_, hrun.mono (by omega), ⟨rfl, rfl, rfl⟩,
      endsAs_of_error hr ⟨rfl, rfl, rfl, hlen, rfl, rfl, hsel, h.notSelected.2.2⟩⟩
  | overflow v row seg hsel hpack hover =>
    obtain ⟨q, i, es, j, hrun⟩ := h.pack_ends rfl hsel
    rw [hpack] at hrun
    have hraise := hrun.trans (.one (step_overflow h.yields rfl rfl rfl hover))
    exact ⟨_, hraise.mono (by omega), ⟨rfl, rfl, rfl⟩,
      endsAs_of_error hr ⟨rfl, rfl, rfl, hlen, rfl, rfl, hsel, rfl⟩⟩
  | ok v row seg hsel hpack hcount hroom =>
    obtain ⟨q, i, es, j, hrun⟩ := h.pack_ends rfl hsel
    rw [hpack] at hrun
    obtain ⟨st, cw, hbuffer, hbytes⟩ := buffer_ends
      (s := ({ s.packing _ v row q i with seg := es, idx := j } : State).afterPack _ (some seg))
      h.yields rfl rfl rfl (pack_appended hpack) hcount (pack_requiredBits hpack v) hroom
    have hsteps : 2 * s.lenR + 42 + (seg.length + row.total + 5) ≤ 6 * s.lenR + s.cfg.cwMax + 47 := by
      obtain ⟨-, -, hrow⟩ := selectVersion_some hsel
      have htotal := total_le_cwMax (romRow_mem hrow)
      have hseg := pack_length_le hpack
      omega
    exact ⟨_, (hrun.trans hbuffer).mono hsteps, ⟨rfl, rfl, rfl⟩,
      endsAs_of_ok hr ⟨rfl, h.err, rfl, hlen, rfl, rfl, rfl, rfl, rfl, hbytes⟩⟩

/-! From the host's first write to its wait. -/

/-- The wait behind a job that has ended reads STATUS and changes nothing the outcome speaks of (R108). -/
theorem step_wait {rest : List HostOp} (hb : s.busy = false) (hh : s.host = .wait :: rest) :
    step s = .next (returns (readReg 1 s) { s with host := rest }) := by
  simp only [step, turn, hh, hb]
  rfl

theorem EndsAs.not_busy (h : EndsAs t l txt) : t.busy = false := by
  have hphase : t.phase = .done ∨ t.phase = .error := by
    unfold EndsAs at h
    split at h
    · exact .inl h.1
    · exact .inr h.1
  rcases hphase with hp | hp <;> simp [State.busy, hp, stateCode]

/-- The command starts the job at its level with as many characters as the text has (R230). -/
theorem step_encodeWord {rest : List HostOp} {n : Nat} (hb : s.busy = false) (hn : n ≤ textMax)
    (hh : s.host = .writeReg 0 (encodeWord l (BitVec.ofNat 13 n)) :: rest) :
    step s = .next (({ s with host := rest } : State).startJob l n) := by
  have hlen : (BitVec.ofNat 13 n).toNat = n := Nat.mod_eq_of_lt (Nat.lt_succ_of_le hn)
  rw [step_writeReg hh, hostWriteReg, if_pos rfl, exec_decodeCommand, cmdGo_encodeWord, if_pos rfl, cmdLvl_encodeWord,
    Level.ofCode_code, cmdLen_encodeWord, encodeCommand, hlen]
  exact if_neg (by simpa [State.busy] using hb)

/-- The state behind the command, the text loaded and the host at its wait. -/
def State.commanded (s : State) (l : Level) (txt : List Rec) (rest : List HostOp) : State :=
  ({ s with host := .wait :: rest, text := loadText s.text 0 txt } : State).startJob l txt.length

theorem jobText_commanded (s : State) (l : Level) (txt : List Rec) (rest : List HostOp) :
    (s.commanded l txt rest).jobText = txt :=
  jobText_loadText rfl rfl

theorem jobStart_commanded (hw : s.cfg.wf = true) (l : Level) (txt : List Rec) (rest : List HostOp) :
    JobStart (s.commanded l txt rest) :=
  ⟨.inr ⟨rest, rfl⟩, rfl, rfl, rfl, ⟨rfl, rfl, rfl⟩, hw⟩

/-- The host loads the text and gives the command (R108). -/
theorem script_commands {rest : List HostOp} (hb : s.busy = false) (hlen : txt.length ≤ textMax)
    (hh : s.host = jobScript l txt ++ rest) : Within (txt.length + 1) s (s.commanded l txt rest) := by
  rw [jobScript, List.append_assoc] at hh
  exact (text_loads hb hh (by omega)).trans (.one (step_encodeWord hb hlen rfl))

/-- A loaded and commanded job, from any state that is not BUSY, ends as the whole-job function says. -/
theorem job_ends {rest : List HostOp} (hw : s.cfg.wf = true) (hb : s.busy = false) (hlen : txt.length ≤ textMax)
    (hh : s.host = jobScript l txt ++ rest) :
    ∃ t, Within (7 * txt.length + s.cfg.cwMax + 50) s t ∧ t.host = rest ∧ t.cfg = s.cfg ∧ t.jobText = txt ∧
      EndsAs t l txt := by
  obtain ⟨t, hrun, ⟨hhost, hcfg, htext⟩, hends⟩ := (jobStart_commanded hw l txt rest).ends
  rw [jobText_commanded] at htext hends
  have hwait := hrun.trans (.one (step_wait hends.not_busy hhost))
  exact ⟨_, ((script_commands hb hlen hh).trans hwait).mono (by simp only [State.commanded, State.startJob]; omega),
    rfl, hcfg, htext, hends⟩

/-- Settles O58: the text loaded, the command given, and the job run through its phases (`JobStart.ends`). -/
theorem jobsEndAsTheFunctionSays : Obligations.JobsEndAsTheFunctionSays := by
  intro s l txt rest hw hb hlen hh
  obtain ⟨t, ⟨k, hk, hrun⟩, hhost, hcfg, htext, hends⟩ := job_ends hw hb hlen hh
  exact ⟨k, t, hk, hrun, hhost, hcfg, htext, hends⟩

end Sys2Proof.Machine
end

section
/-! The same job twice (spec/45_encode_command.md R239): what the whole-job function says of an ended job fixes every
register and the buffer. -/

namespace Sys2Proof.Machine

variable {s t : State} {l : Level} {txt : List Rec}

/-- Two states whose registers hold the same (R21). -/
structure SameRegisters (s t : State) : Prop where
  phase : s.phase = t.phase
  err : s.err = t.err
  lvlR : s.lvlR = t.lvlR
  lenR : s.lenR = t.lenR
  mode : s.mode = t.mode
  count : s.count = t.count
  ver : s.ver = t.ver
  row : s.row = t.row
  req : s.req = t.req

theorem SameRegisters.readReg_eq (h : SameRegisters s t) (n : Nat) : readReg n s = readReg n t := by
  unfold readReg State.statusWord
  rw [h.phase, h.err, h.lvlR, h.lenR, h.mode, h.count, h.ver, h.row, h.req]

theorem DoneResult.sameRegisters {r : JobResult} (h : DoneResult s l txt r) (h' : DoneResult t l txt r) :
    SameRegisters s t := by
  obtain ⟨hp, he, hl, hn, hm, hc, hv, hr, hq, -⟩ := h
  obtain ⟨hp', he', hl', hn', hm', hc', hv', hr', hq', -⟩ := h'
  exact ⟨hp.trans hp'.symm, he.trans he'.symm, hl.trans hl'.symm, hn.trans hn'.symm, hm.trans hm'.symm,
    hc.trans hc'.symm, hv.trans hv'.symm, hr.trans hr'.symm, hq.trans hq'.symm⟩

theorem ErrorResult.sameRegisters {e : JobError} (h : ErrorResult s l txt e) (h' : ErrorResult t l txt e)
    (hcfg : s.cfg = t.cfg) : SameRegisters s t := by
  unfold ErrorResult at h h'
  rw [hcfg] at h
  obtain ⟨hp, he, hl, hn, hm, hc, hsel⟩ := h
  obtain ⟨hp', he', hl', hn', hm', hc', hsel'⟩ := h'
  have hrest : s.ver = t.ver ∧ s.row = t.row ∧ s.req = t.req := by
    cases e with
    | noVersionFits =>
      obtain ⟨hv, hr, hq⟩ := hsel
      obtain ⟨hv', hr', hq'⟩ := hsel'
      exact ⟨hv.trans hv'.symm, hr.trans hr'.symm, hq.trans hq'.symm⟩
    | invalidCharacterForMode =>
      obtain ⟨hsel, hq⟩ := hsel
      obtain ⟨hsel', hq'⟩ := hsel'
      obtain ⟨hv, hr⟩ := Prod.mk.inj (Option.some.inj (hsel.symm.trans hsel'))
      exact ⟨hv, hr, hq.trans hq'.symm⟩
    | capacityOverflow =>
      obtain ⟨hsel, hq⟩ := hsel
      obtain ⟨hsel', hq'⟩ := hsel'
      obtain ⟨hv, hr⟩ := Prod.mk.inj (Option.some.inj (hsel.symm.trans hsel'))
      exact ⟨hv, hr, by rw [hq, hq', hv]⟩
  obtain ⟨hv, hr, hq⟩ := hrest
  exact ⟨hp.trans hp'.symm, he.trans he'.symm, hl.trans hl'.symm, hn.trans hn'.symm, hm.trans hm'.symm,
    hc.trans hc'.symm, hv, hr, hq⟩

theorem DoneResult.cwByte_eq {r : JobResult} (h : DoneResult s l txt r) (h' : DoneResult t l txt r) {a : Nat}
    (ha : a < s.row.total) : s.cwByte a = t.cwByte a := by
  have hrow := (h.sameRegisters h').row
  obtain ⟨-, -, -, -, -, -, -, -, -, hcw⟩ := h
  obtain ⟨-, -, -, -, -, -, -, -, -, hcw'⟩ := h'
  rw [← hrow] at hcw'
  exact List.map_inj_left.1 (hcw.trans hcw'.symm) a (List.mem_range.2 ha)

/-- Two ends of the same job under the same configuration agree. -/
theorem EndsAs.agree (h : EndsAs s l txt) (h' : EndsAs t l txt) (hcfg : s.cfg = t.cfg) :
    SameRegisters s t ∧ (s.phase = .done → ∀ a, a < s.row.total → s.cwByte a = t.cwByte a) := by
  unfold EndsAs at h h'
  rw [hcfg] at h
  cases hr : encodeJob t.cfg l txt with
  | ok r =>
    rw [hr] at h h'
    exact ⟨h.sameRegisters h', fun _ _ ha => h.cwByte_eq h' ha⟩
  | error e =>
    rw [hr] at h h'
    have hp : s.phase = .error := h.1
    exact ⟨h.sameRegisters h' hcfg, fun hd => absurd (hp.symm.trans hd) nofun⟩

/-- Settles O59: both runs end as the whole-job function says (`job_ends`), which fixes what the statement compares. -/
theorem sameJobSameResult : Obligations.SameJobSameResult := by
  intro s₁ s₂ l txt rest₁ rest₂ hcfg hw hlen hb₁ hh₁ hb₂ hh₂
  obtain ⟨t₁, ⟨k₁, -, hrun₁⟩, hhost₁, hcfg₁, -, hends₁⟩ := job_ends hw hb₁ hlen hh₁
  obtain ⟨t₂, ⟨k₂, -, hrun₂⟩, hhost₂, hcfg₂, -, hends₂⟩ := job_ends (hcfg ▸ hw) hb₂ hlen hh₂
  obtain ⟨hregs, hbytes⟩ := hends₁.agree hends₂ (by rw [hcfg₁, hcfg₂, hcfg])
  exact ⟨k₁, k₂, t₁, t₂, hrun₁, hrun₂, hhost₁, hhost₂, hends₁.not_busy, hregs.readReg_eq, hbytes⟩

end Sys2Proof.Machine
end

section
/-! The commands (spec/45_encode_command.md R230 to R232), outside BUSY and in it. -/

namespace Sys2Proof.Machine

variable {s : State} {rest : List HostOp}

theorem encodeCommand_idle (hb : s.busy = false) (l : Level) (n : BitVec 13) :
    encodeCommand l n s = .next (s.startJob l n.toNat) :=
  if_neg (by simp [hb])

theorem encodeCommand_busy (hb : s.busy = true) (l : Level) (n : BitVec 13) : encodeCommand l n s = .next s :=
  if_pos hb

/-- While BUSY no command word has an effect (R232). -/
theorem exec_decodeCommand_busy (hb : s.busy = true) (w : CmdWord) : exec (decodeCommand w) s = .next s := by
  rw [exec_decodeCommand, encodeCommand_busy hb, ite_self]

theorem hostWriteReg_busy (hb : s.busy = true) (w : CmdWord) : hostWriteReg 0 w s = .next s :=
  exec_decodeCommand_busy hb w

theorem hostWriteText_busy (hb : s.busy = true) (a : Nat) (r : Rec) : hostWriteText a r s = .next s := if_pos hb

/-- Settles O17: each form is `encodeCommand` at its level. -/
theorem encodeCommandsStartAJob : Obligations.EncodeCommandsStartAJob :=
  fun _ n =>
    ⟨fun hb => ⟨encodeCommand_idle hb .L n, encodeCommand_idle hb .M n, encodeCommand_idle hb .Q n,
      encodeCommand_idle hb .H n⟩,
    fun hb => ⟨encodeCommand_busy hb .L n, encodeCommand_busy hb .M n, encodeCommand_busy hb .Q n,
      encodeCommand_busy hb .H n⟩⟩

/-- Settles O18: NOP answers the state it is given. -/
theorem nopChangesNothing : Obligations.NopChangesNothing := fun _ _ => rfl

/-- Settles O19: the write is a command without effect (`hostWriteReg_busy`), or refused by its guard. -/
theorem writesWhileBusyAreIgnored : Obligations.WritesWhileBusyAreIgnored :=
  fun s rest hb =>
    have hb : ({ s with host := rest } : State).busy = true := hb
    ⟨fun w hh => (step_writeReg hh).trans (hostWriteReg_busy hb w),
      fun a r hh => (step_writeText hh).trans (hostWriteText_busy hb a r)⟩

end Sys2Proof.Machine
end

section
/-! The transition table (spec/45_encode_command.md R236): the changes of PHASE that a step can make, from the next
states of `BlockTo` and `StepTo`. -/

namespace Sys2Proof.Machine

variable {s t u : State} {m : Mode}

/-- An operation of the opcode table run while BUSY changes PHASE only by raising CapacityOverflow. -/
theorem ExecTo.phase_change {i : Instr} (h : ExecTo i s t) (hb : s.busy = true) (hne : t.phase ≠ s.phase) :
    t.phase = .error ∧ t.err = some .capacityOverflow := by
  cases h with
  | same | appended | skipped | padded => exact absurd rfl hne
  | started _ _ _ hidle => cases hb.symm.trans hidle
  | overflowed => exact ⟨rfl, rfl⟩

/-- In a state that meets the invariant no element leaves ASSEMBLE. -/
theorem RunsTo.phase_eq (h : RunsTo s m t) : t.phase = s.phase := by
  cases h with
  | appended | skipped | padded => rfl

/-- A group that cannot be packed has a character outside the legal set (R187). -/
theorem illegal_of_packGroup (hi : s.idx < s.lenR) (hg : packGroup s.cfg m (s.nextRecs (groupSize m)) = none) :
    ∃ r ∈ s.nextRecs (groupSize m), legal s.cfg m r = false := by
  rwa [packGroup_nextRecs m hi, pack_eq_none] at hg

/-- The rows of R236 that the block takes. The host's list does not matter to them. -/
theorem BlockTo.change_listed (host : List HostOp) (hb : BlockTo s t) (hne : t.phase ≠ s.phase) :
    phaseChange { s with host := host } t := by
  cases hb with
  | rest | scanned | tooSmall | packed | cleared | dataEnd => exact absurd rfl hne
  | classified hp hi =>
    dsimp only [phaseChange]
    rw [hp]
    exact ⟨hi, rfl, rfl, rfl⟩
  | latched m row hp hm hr hc =>
    dsimp only [phaseChange]
    rw [hp]
    exact ⟨m, row, hm, hr, hc, rfl, rfl, rfl⟩
  | noneFits m row hp hm hr hc hv =>
    dsimp only [phaseChange]
    rw [hp]
    exact ⟨m, row, hm, hr, hc, hv, rfl⟩
  | illegal m hp hm hi hg =>
    dsimp only [phaseChange]
    rw [hp]
    exact ⟨m, hm, hi, illegal_of_packGroup hi hg, rfl⟩
  | allPacked m hp hm hi =>
    dsimp only [phaseChange]
    rw [hp]
    exact ⟨hi, m, hm, rfl⟩
  | overflow m hp hm hs ho =>
    dsimp only [phaseChange]
    rw [hp]
    exact ⟨rfl, fun _ => ⟨m, hm, ho⟩⟩
  | finished m hp hm hs =>
    dsimp only [phaseChange]
    rw [hp]
    refine ⟨?_, rfl⟩
    rcases hs with ⟨hs, -⟩ | ⟨hs | hs, -⟩ <;> simp [hs]
  | ran m i u t hp hm hf hx =>
    have hkeep := fetchElem_keeps hf
    have hpt : u.phase = s.phase := by rw [hkeep]
    obtain ⟨hphase, herr⟩ := hx.phase_change (busy_iff.2 (by simp [hpt, hp])) (by rwa [hpt])
    dsimp only [phaseChange]
    rw [hp, hphase]
    exact ⟨herr, fun hs => absurd hs (fetchElem_past_test hf)⟩

/-- What the invariant adds to those rows. -/
theorem BlockTo.change_ofInv (hb : BlockTo s t) (h : Inv s) (hne : t.phase ≠ s.phase) : phaseChangeOfInv s t := by
  cases hb with
  | rest | scanned | tooSmall | packed | cleared | dataEnd => exact absurd rfl hne
  | classified hp hi =>
    obtain ⟨-, -, -, hscan⟩ := (phaseInv_classify hp).1 h.phase_inv
    have hle := h.idx_le (.inl hp)
    rw [phaseChangeOfInv, hp]
    exact ⟨hi.imp_left (Nat.le_antisymm hle), congrArg some (scanAfter_classify hscan.symm hi)⟩
  | latched m row hp =>
    rw [phaseChangeOfInv, hp]
    trivial
  | noneFits m row hp hm hr hc hv =>
    obtain ⟨-, -, h40, -⟩ := (phaseInv_select hp).1 h.phase_inv
    rw [phaseChangeOfInv, hp]
    exact Nat.le_antisymm h40 hv
  | illegal m hp =>
    rw [phaseChangeOfInv, hp]
    trivial
  | allPacked m hp hm hi =>
    rw [phaseChangeOfInv, hp]
    exact Nat.le_antisymm (h.idx_le (.inr hp)) hi
  | overflow m hp hm hs ho =>
    rw [phaseChangeOfInv, hp]
    exact ⟨hs, m, hm, ho⟩
  | ran m i u t hp hm hf hx => exact absurd ((h.assembling hp hm).runsTo hf hx).phase_eq hne
  | finished m hp hm hs =>
    have htest : s.stage ≠ .test := by rcases hs with ⟨hs, -⟩ | ⟨hs | hs, -⟩ <;> simp [hs]
    obtain ⟨hcount, hreq, -⟩ := (h.assembling hp hm).passed htest
    rw [phaseChangeOfInv, hp]
    exact ⟨m, hm, hcount, hreq⟩

/-- A start of a job is the row of R236 from IDLE, DONE or ERROR. -/
theorem change_to_classify {w : CmdWord} {rest : List HostOp} (hh : s.host = .writeReg 0 w :: rest)
    (hg : cmdGo w = true) (hb : s.busy = false) (ht : t.phase = .classify) (hi : t.idx = 0) :
    phaseChange s t ∧ phaseChangeOfInv s t := by
  have hgo : w.toNat % 2 = 1 := by simpa [cmdGo_eq] using hg
  have hidle : s.phase = .idle ∨ s.phase = .done ∨ s.phase = .error := by
    unfold State.busy at hb
    revert hb
    cases s.phase <;> decide
  rw [phaseChange, phaseChangeOfInv, ht]
  rcases hidle with hp | hp | hp <;> rw [hp] <;> exact ⟨⟨w, rest, hh, hgo, hi⟩, trivial⟩

/-- Reset is the row of R236 from every phase. -/
theorem change_to_idle {rest : List HostOp} (hh : s.host = .reset :: rest) (ht : t.phase = .idle) :
    phaseChange s t ∧ phaseChangeOfInv s t := by
  rw [phaseChange, phaseChangeOfInv, ht]
  cases s.phase <;> exact ⟨⟨rest, hh⟩, trivial⟩

/-- Settles O9: of a step's next states (`step_to`) those of the block, a start and reset change PHASE. -/
theorem onlyTheListedPhaseChanges : Obligations.OnlyTheListedPhaseChanges := by
  intro s t hstep hne
  cases step_to hstep with
  | block hb => exact ⟨hb.change_listed s.host hne, fun h => hb.change_ofInv h hne⟩
  | tick rest hh hb =>
    exact ⟨hb.change_listed s.host hne, fun h => hb.change_ofInv (h.bookkeeping rest s.dout s.freeReads) hne⟩
  | read | ignored | wrote => exact absurd rfl hne
  | started w rest l n hh hg _ _ hb =>
    obtain ⟨hlisted, hinv⟩ :=
      change_to_classify hh hg hb (State.startJob_phase _ l n.toNat) (State.startJob_idx _ l n.toNat)
    exact ⟨hlisted, fun _ => hinv⟩
  | reset rest hh =>
    obtain ⟨hlisted, hinv⟩ := change_to_idle hh (State.resetBlock_phase _)
    exact ⟨hlisted, fun _ => hinv⟩

end Sys2Proof.Machine
end

section
/-! The three errors (spec/60_exceptions.md R251, R256 to R259): what a raise writes and leaves alone, which elements
raise, and how ERROR is left. -/

namespace Sys2Proof.Machine

variable {s t : State}

/-! What a host reads after a raise (R256, R257). -/

@[simp] theorem State.textRec_raise (s : State) (e : JobError) (a : Nat) : (s.raise e).textRec a = s.textRec a := rfl

/-- CW is free anew (log entry 6). -/
@[simp] theorem State.cwByte_raise (s : State) (e : JobError) (a : Nat) :
    (s.raise e).cwByte a = Config.freeCw (s.cwEpoch + 1) a := rfl

/-- STATUS holds the error's code over STATE = ERROR (R23, R251). -/
theorem readReg_raise_status (s : State) (e : JobError) :
    readReg 1 (s.raise e) = 4 * (errCode (some e)).toNat + 3 :=
  statusWord_toNat (s.raise e)

theorem readReg_raise_other {n : Nat} (hn : n ≠ 1) (s : State) (e : JobError) :
    readReg n (s.raise e) = readReg n s := by
  unfold readReg
  split
  case h_1 => exact absurd rfl hn
  all_goals rfl

/-- The phases in which `done` is 1 (R258). -/
theorem doneOut_iff (s : State) : s.doneOut = true ↔ s.phase = .done ∨ s.phase = .error := by
  unfold State.doneOut
  cases s.phase <;> decide

/-- Settles O46: the registers after a raise one by one, and `done` as a function of PHASE. -/
theorem raiseWritesStatusAndForgetsCw : Obligations.RaiseWritesStatusAndForgetsCw := by
  refine ⟨fun s e => ⟨?_, rfl, (doneOut_iff _).2 (.inr rfl), fun n hn => readReg_raise_other hn s e,
    s.textRec_raise e, s.cwByte_raise e, rfl, rfl, rfl⟩, doneOut_iff⟩
  rw [readReg_raise_status]
  cases e <;> rfl

/-! The elements that raise (R255, log entry 8). -/

/-- A stream element other than the gap and the pads is appended at the cursor. -/
theorem appended_of_ne {i : Instr} (hc : i.slot ≠ .command) (hgap : i ≠ .gap) (hpad0 : i ≠ .pad0)
    (hpad1 : i ≠ .pad1) : Slot.appended i.slot = true := by
  cases i
  case encodeL | encodeM | encodeQ | encodeH | nop => exact absurd rfl hc
  case gap => exact absurd rfl hgap
  case pad0 => exact absurd rfl hpad0
  case pad1 => exact absurd rfl hpad1
  all_goals rfl

/-- Settles O30: such an element runs as APPEND of its encoding (`exec_appended`), which raises where it does not
fit. -/
theorem elementsPastTheEndRaiseOverflow : Obligations.ElementsPastTheEndRaiseOverflow := by
  intro s i hc hgap hpad0 hpad1 hfit
  have hexec : exec i s = .next (s.raise .capacityOverflow) :=
    (exec_appended (appended_of_ne hc hgap hpad0 hpad1) s).trans (appendValue_of_not_fits hfit)
  exact ⟨_, hexec, rfl, rfl, rfl, s.textRec_raise _, s.cwByte_raise _, fun _ hn => readReg_raise_other hn s _⟩

/-! How ERROR is left (R259). -/

/-- In ERROR the block's own steps change nothing. -/
theorem BlockTo.eq_of_error (h : BlockTo s t) (hp : s.phase = .error) : t = s := by
  cases h with
  | rest => rfl
  | scanned hp' | classified hp' | latched _ _ hp' | tooSmall _ _ hp' | noneFits _ _ hp' | illegal _ hp'
  | packed _ _ hp' | allPacked _ hp' | overflow _ hp' | cleared _ hp' | ran _ _ _ _ hp' | dataEnd _ hp'
  | finished _ hp' => cases hp.symm.trans hp'

/-- Settles O47: of a step's next states (`step_to`) only those of a command and of reset leave ERROR. -/
theorem errorIsLeftOnlyByCommandOrReset : Obligations.ErrorIsLeftOnlyByCommandOrReset := by
  intro s t hp h
  cases step_to h with
  | block hb => exact .inl ((hb.eq_of_error hp).symm ▸ hp)
  | tick rest hh hb => exact .inl ((hb.eq_of_error hp).symm ▸ hp)
  | read | ignored | wrote => exact .inl hp
  | started w rest l n hh hg =>
    have hgo : w.toNat % 2 = 1 := by simpa [cmdGo_eq] using hg
    exact .inr (.inl ⟨w, rest, hh, hgo, rfl, rfl⟩)
  | reset rest hh => exact .inr (.inr ⟨rest, hh, rfl⟩)

end Sys2Proof.Machine
end

section
/-! Reset and the hazards of a running job (spec/70_reset_and_hazards.md R280, R286, R287): the reset input, what a
result survives, and the reads whose value the spec leaves open. -/

namespace Sys2Proof.Machine

variable {s t : State}

/-! Reset (R280). -/

/-- Settles O1: a step on the reset access is `resetBlock`, and then every register reads 0 (`readReg_resetBlock`). -/
theorem resetEndsAnyJobAndZeroesRegisters : Obligations.ResetEndsAnyJobAndZeroesRegisters :=
  fun _ _ hh => ⟨_, step_reset hh, rfl, rfl, rfl, fun n => readReg_resetBlock n _, rfl, rfl⟩

/-! Reads while BUSY (R286, U4). -/

theorem hostReadReg_free {n : Nat} (hb : s.busy = true) (h2 : 2 ≤ n) (h16 : n ≤ 16) :
    hostReadReg n s = .next (returnsFree (regWidth n) s) :=
  if_pos ⟨hb, h2, h16⟩

theorem hostReadCw_free {a : Nat} (ha : a < s.cfg.cwMax) (hb : s.busy = true) :
    hostReadCw a s = .next (returnsFree 8 s) := by
  rw [hostReadCw, if_neg (Nat.not_le.2 ha), if_pos hb]

/-- The value of a free read has the given width. -/
theorem returnsFree_dout_lt (w : Nat) (s : State) : (returnsFree w s).dout < 2 ^ w := Nat.mod_lt _ (Nat.two_pow_pos w)

/-- Settles O53: while BUSY both kinds of read are free reads, of the register's width and of a byte's. -/
theorem readsWhileBusyAreFree : Obligations.ReadsWhileBusyAreFree := by
  intro s rest hb
  have hb : ({ s with host := rest } : State).busy = true := hb
  refine ⟨fun n h2 h16 hh => ?_, fun a ha hh => ?_⟩
  · exact ⟨_, returnsFree_dout_lt _ _, (step_readReg hh).trans (hostReadReg_free hb h2 h16)⟩
  · exact ⟨_, returnsFree_dout_lt _ _, (step_readCw hh).trans (hostReadCw_free ha hb)⟩

/-! After DONE (R287). -/

/-- Outside BUSY the block's own steps change nothing. -/
theorem BlockTo.eq_of_not_busy (h : BlockTo s t) (hb : ¬ s.busy = true) : t = s := by
  rw [busy_iff] at hb
  cases h with
  | rest => rfl
  | scanned hp | classified hp | latched _ _ hp | tooSmall _ _ hp | noneFits _ _ hp | illegal _ hp | packed _ _ hp
  | allPacked _ hp | overflow _ hp | cleared _ hp | ran _ _ _ _ hp | dataEnd _ hp | finished _ hp =>
    simp [hp] at hb

/-- Settles O50: in DONE the block's own steps change nothing (`BlockTo.eq_of_not_busy`), and of the host's accesses
(`step_to`) only a command with GO = 1 and reset give the registers or CW another value. -/
theorem resultLivesUntilTheNextJob : Obligations.ResultLivesUntilTheNextJob := by
  intro s t hp h hcmd hreset
  have hidle : ¬ s.busy = true := by simp [busy_iff, hp]
  cases step_to h with
  | block hb => rw [hb.eq_of_not_busy hidle]
  | tick rest hh hb => rw [hb.eq_of_not_busy hidle]
  | read | ignored | wrote => rfl
  | started w rest l n hh hg =>
    have hgo : w.toNat % 2 = 1 := by simpa [cmdGo_eq] using hg
    have heven := hcmd w rest hh
    omega
  | reset rest hh => exact absurd hh (hreset rest)

end Sys2Proof.Machine
end
